-- ==== Sys2Proof/Word.lean ====
section
/-! DEFINITION. The word types of IE-DCT8 (spec/00_scope.md R7, R9): what the spec treats as bits is a bit vector. -/

namespace Sys2Proof

/-- An 8-bit element: PIX_IN, PIX_OUT, QT, BASE_ZZ (R7, R65). -/
abbrev Byte := BitVec 8

/-- A host data word, a command word, a stored coefficient (R7, R61, R90). -/
abbrev Word := BitVec 32

/-- A byte offset inside the 4 KiB window (R60). -/
abbrev Addr := BitVec 12

/-- The bit pattern of an IEEE-754 binary64 value: FT, AAN, the FDCT datapath (R7, R67). -/
abbrev F64 := BitVec 64

end Sys2Proof
end

