-- ==== Sys2Proof/Config.lean ====
section
/-! DEFINITION. What an implementation fixes, and the free values: constants without a body, so that no proof
can see what they are (spec/00_scope.md R8; spec/93_implementation_defined.md). -/

namespace Sys2Proof

/-- The open parameter IDCT_DC_ROUNDING (R8, R196; 93 P2). -/
inductive DcRounding
  | equal
  | reference
  deriving DecidableEq, Repr

/-- The arrays whose contents a reset leaves unspecified (R46, R270; 93 U5). -/
inductive ResetArray
  | pixIn
  | coef
  | mcoef
  | pixOut
  | qt
  | ft
  | w
  deriving DecidableEq, Repr

/-- "`Equal` is this hardware's value" (R8). The other value stays expressible: the inverse transform takes
the parameter as an argument (log 6). -/
def Config.idctDcRounding : DcRounding := .equal

/-- The word a host read of 0x100..0x7FF returns while BUSY = 1, on draw `n` (R72; 93 U2: any value). Free (log 4). -/
opaque Config.busyRead : Nat → Word

/-- What element `k` of array `a` holds after the reset event of draw `n` (R270, R273; 93 U5: any value), read
modulo the element's width. Free (log 4). -/
opaque Config.afterReset : Nat → ResetArray → Nat → Int

/-- The sign bit and the low 51 fraction bits of a NaN made from two operands. No rule gives them, and no run
makes a NaN (R149, R241). Free (log 10). -/
opaque Config.nanBits : F64 → F64 → BitVec 52

/-- trunc of a NaN or an infinity. No rule gives it, and no run needs it (R149). Free (log 10). -/
opaque Config.truncNonFinite : F64 → Int

/-- The platform places the window at `BASE`, a multiple of 4096 (R60; 93 P3); this is its page number.
Free, and no rule depends on it (log 8). -/
opaque Config.basePage : Nat

/-- The platform address of window offset 0x000 (R60). -/
def Config.base : Nat := 4096 * Config.basePage

end Sys2Proof
end

