-- ==== Sys2Proof/Syntax.lean ====
section
/-! DEFINITION. The commands of IE-DCT8: one constructor per row of spec/opcode_table.json, with the operands
decoding leaves (spec/30_encoding.md R92 to R98). -/

namespace Sys2Proof

/-- FDCT's operand PRE (R94): `raw` is PRE = 0 (unsigned pixels), `pre` is PRE = 1 (pre-shifted samples). -/
inductive PixelMode
  | raw
  | pre
  deriving DecidableEq, Repr

/-- IDCT's operand SRC (R95): `mcoef` is SRC = 0, `coef` is SRC = 1. -/
inductive CoefSource
  | mcoef
  | coef
  deriving DecidableEq, Repr

/-- A decoded command (R98). Quality and rank bounds are the clamped integers. -/
inductive Instr
  | nop
  | buildqt (q : Nat)
  | fdct (mode : PixelMode)
  | mask (start stop : Nat)
  | idct (src : CoefSource)
  deriving DecidableEq, Repr

/-- Why a word is no command (R96, R97). -/
inductive CmdReject
  | illegalOpc
  | rsvdBits
  deriving DecidableEq, Repr

/-- What decoding a word gives (R98). -/
inductive Decoded
  | command (i : Instr)
  | reject (r : CmdReject)
  deriving DecidableEq, Repr

end Sys2Proof
end

