-- ==== Sys2Proof/WellFormed.lean ====
section
/-! DEFINITION. Well-formed commands: operands in the ranges the clamps of decoding give (spec/30_encoding.md
R92, R93, R98). -/

namespace Sys2Proof

/-- The effective quality is in [1,100] (R92); each effective rank bound is in [0,64] (R93). No relation between
start and end is required (R93). -/
def Instr.wellFormed : Instr → Bool
  | .nop => true
  | .buildqt q => decide (1 ≤ q) && decide (q ≤ 100)
  | .fdct _ => true
  | .mask start stop => decide (start ≤ 64) && decide (stop ≤ 64)
  | .idct _ => true

/-- `wellFormed` as a proposition. -/
abbrev Instr.WellFormed (i : Instr) : Prop := i.wellFormed = true

end Sys2Proof
end

