-- ==== Sys2Proof/Decode.lean ====
section
/-! DEFINITION. Decoding of a 32-bit command word, total, rejecting by name, and the encoder (spec/30_encoding.md
R90 to R103). A command is one word, so no length is decoded (R90). -/

namespace Sys2Proof

/-- `clamp(x, lo, hi)` (R10). -/
def clampInt (x lo hi : Int) : Int := if x < lo then lo else if hi < x then hi else x

/-- `sext_16(w[31:16])`, BUILDQT's raw quality (R92). -/
def qualityField (w : Word) : Int := (w.extractLsb' 16 16).toInt

/-- `sext_8(w[15:8])`, MASK's raw start (R93). -/
def startField (w : Word) : Int := (w.extractLsb' 8 8).toInt

/-- `sext_8(w[23:16])`, MASK's raw end (R93). -/
def stopField (w : Word) : Int := (w.extractLsb' 16 8).toInt

/-- The opcode field OPC = w[3:0] (R90). -/
def opcField (w : Word) : BitVec 4 := w.extractLsb' 0 4

/-- RMASK: a 1 at every reserved bit of a legal opcode (R97). Illegal opcodes have no entry. -/
def rmask (opc : Nat) : Option Word :=
  match opc with
  | 0 => some 0xFFFFFFF0#32
  | 1 => some 0x0000FFF0#32
  | 2 => some 0xFFFFFEF0#32
  | 3 => some 0xFF0000F0#32
  | 4 => some 0xFFFFFEF0#32
  | _ => none

/-- The operands of a legal word, by opcode (R91 to R95, R98). -/
def decodeLegal (w : Word) : Instr :=
  match (opcField w).toNat with
  | 0 => .nop
  | 1 => .buildqt (clampInt (qualityField w) 1 100).toNat
  | 2 => .fdct (if w.getLsbD 8 then .pre else .raw)
  | 3 => .mask (clampInt (startField w) 0 64).toNat (clampInt (stopField w) 0 64).toNat
  | _ => .idct (if w.getLsbD 8 then .coef else .mcoef)

/-- Decoding, a total function from any word to a command or a rejection: the opcode first, then the reserved
bits (R98). -/
def decode (w : Word) : Decoded :=
  match rmask (opcField w).toNat with
  | none => .reject .illegalOpc
  | some m => if w &&& m = 0#32 then .command (decodeLegal w) else .reject .rsvdBits

/-- The canonical word of a command: its fields hold the clamped values (R91, R99, R100). -/
def encode : Instr → Word
  | .nop => 0x00000000#32
  | .buildqt q => BitVec.ofNat 16 q ++ 0x0001#16
  | .fdct .raw => 0x00000002#32
  | .fdct .pre => 0x00000102#32
  | .mask start stop => 0x00#8 ++ BitVec.ofNat 8 stop ++ BitVec.ofNat 8 start ++ 0x03#8
  | .idct .mcoef => 0x00000004#32
  | .idct .coef => 0x00000104#32

/-- Byte lane `j` of a word: bits 8j+7 : 8j (R68). -/
def laneByte (w : Word) (j : Fin 4) : Byte := w.extractLsb' (8 * j.val) 8

/-- The word four byte lanes carry, lane 0 least significant (R68). -/
def wordOfLanes (b0 b1 b2 b3 : Byte) : Word := b3 ++ b2 ++ b1 ++ b0

/-- The word of an opcode-table row whose `nbits` bits are `w`; bits above `nbits` are 0. -/
def tableWord (nbits w : Nat) : Word := BitVec.ofNat 32 (w % 2 ^ nbits)

/-- The instruction the decoder reads from an opcode-table word. The word goes out in its byte lanes and comes back
from them, as a bus that carries bytes would do it (R68). A command has 32 bits, so a longer row is none (R90). -/
def decodeTableWord (nbits w : Nat) : Option Instr :=
  if nbits ≤ 32 then
    let t := tableWord nbits w
    match decode (wordOfLanes (laneByte t 0) (laneByte t 1) (laneByte t 2) (laneByte t 3)) with
    | .command i => some i
    | .reject _ => none
  else none

end Sys2Proof
end

