-- ==== Sys2Proof/Machine/State.lean ====
section
/-! DEFINITION. The state of IE-DCT8 (spec/10_state.md R46), plain data, its reset value, and the reasons a step
can stop. The ROMs, ID and IRQ are constants or derived views: Machine/Roms.lean and Machine/Flags.lean. -/

namespace Sys2Proof.Machine

/-- STATUS.ERRCODE (R240). Codes 8..15 are never produced (93 U8), so the field holds one of these names. -/
inductive ErrCode
  | none
  | cmdIllegalOpc
  | cmdRsvdBits
  | cmdNoTable
  | busBusy
  | busUnmapped
  | busMisaligned
  | busReadonly
  deriving DecidableEq, Repr

/-- The fields of STATUS (R38). The reserved bits are stuck at 0 (93 U6) and have no field. -/
structure Status where
  busy : Bool
  done : Bool
  err : Bool
  eovf : Bool
  tv : Bool
  errcode : ErrCode
  lastop : BitVec 4
  deriving DecidableEq, Repr

/-- The fields of CTRL (R36). SRST holds nothing and the reserved bits read 0. -/
structure Ctrl where
  doneIe : Bool
  errIe : Bool
  deriving DecidableEq, Repr

/-- The fields of PHASE (R34): START in bits 6:0, END in bits 14:8. -/
structure Phase where
  start : BitVec 7
  stop : BitVec 7
  deriving DecidableEq, Repr

/-- The engine's pending command (R41). -/
inductive Pend
  | idle
  | run (w : Word)
  deriving DecidableEq, Repr

/-- A block buffer of 64 elements in natural order, with the validity bit of each element (R26 to R29, R45). -/
structure Buffer (α : Type) where
  data : Vector α 64
  valid : Vector Bool 64
  deriving DecidableEq, Repr

/-- The response of a host access (R61). -/
inductive Resp
  | okay
  | error
  deriving DecidableEq, Repr

/-- What a host access returns (R61): a read its data word and its response, a write its response. -/
inductive Reply
  | read (data : Word) (resp : Resp)
  | write (resp : Resp)
  deriving DecidableEq, Repr

/-- One turn of the schedule: an event of R232. `engine` is the engine's turn: it completes the running command
if there is one, and does nothing when idle (log 1). -/
inductive Turn
  | read (addr : Addr)
  | write (addr : Addr) (data : Word)
  | engine
  | reset
  deriving DecidableEq, Repr

/-- The state: R46's list, then the model's own `schedule`, `reply` and `draws` (logs 1, 2 and 4). -/
structure State where
  pixIn : Buffer Byte
  coef : Buffer Word
  mcoef : Buffer Word
  pixOut : Buffer Byte
  qt : Vector Byte 64
  ft : Vector F64 64
  w : Vector Int 64
  quality : BitVec 7
  sf : BitVec 13
  phase : Phase
  ctrl : Ctrl
  status : Status
  errinfo : Word
  pend : Pend
  schedule : List Turn
  reply : Option Reply
  draws : Nat
  deriving DecidableEq, Repr

/-- Why the machine stops. -/
inductive Fault
  /-- Raised by a host read or by a completing command that reads an element whose value the rules do not define
  (R45, R71, R252; 93 U1). The spec's own model fault. Safe: the hardware goes on with some value. -/
  | uninitRead
  /-- Raised by the engine's turn when PEND holds a word that is no legal command. Acceptance lets none in (R221),
  so no run reaches it (log 7). Safe. -/
  | pendNotLegal
  deriving DecidableEq, Repr

/-- Why an instruction has no meaning. -/
inductive Refusal
  /-- Raised by exec for an instruction that has no meaning yet. Safe: the model stops. No arm of exec raises it. -/
  | notModelled (mnemonic : String)
  deriving DecidableEq, Repr

/-- A buffer of which no element is valid. Its contents are R45's unspecified ones. -/
def Buffer.invalid {α : Type} (data : Vector α 64) : Buffer α := ⟨data, Vector.replicate 64 false⟩

/-- STATUS after reset: 0x0000_0000 (R46). -/
def Status.reset : Status :=
  { busy := false, done := false, err := false, eovf := false, tv := false, errcode := .none, lastop := 0#4 }

/-- The machine right after reset (R46, R270). The contents R46 leaves unspecified are 0 here (DESIGN CHOICE,
unsafe in a claim that reads a field directly, log 3); no access reads them before a write, because every validity
bit and TV are 0. Nothing is scheduled, and no access has been answered (logs 1 and 2). -/
def State.reset : State where
  pixIn := Buffer.invalid (Vector.replicate 64 0#8)
  coef := Buffer.invalid (Vector.replicate 64 0#32)
  mcoef := Buffer.invalid (Vector.replicate 64 0#32)
  pixOut := Buffer.invalid (Vector.replicate 64 0#8)
  qt := Vector.replicate 64 0#8
  ft := Vector.replicate 64 0#64
  w := Vector.replicate 64 0
  quality := 0#7
  sf := 0#13
  phase := ⟨0#7, 0#7⟩
  ctrl := ⟨false, false⟩
  status := Status.reset
  errinfo := 0#32
  pend := .idle
  schedule := []
  reply := none
  draws := 0

end Sys2Proof.Machine
end

