-- ==== Sys2Proof/Machine/Roms.lean ====
section
/-! DEFINITION. The constant ROMs and the hard-wired ID (spec/10_state.md R22 to R25 and R35; contents from
spec/40_tables.md R110 to R115 and spec/41_forward.md R141). Nothing writes them and no reset changes them. -/

namespace Sys2Proof.Machine

/-- ID, hard-wired: ASCII "DCT", then 0x07 (R2, R35). -/
def idWord : Word := 0x44435407#32

/-- ZZ_TO_NAT contents, row by row of R110. -/
def zzToNatRows : List Nat :=
  [ 0,  1,  8, 16,  9,  2,  3, 10] ++
  [17, 24, 32, 25, 18, 11,  4,  5] ++
  [12, 19, 26, 33, 40, 48, 41, 34] ++
  [27, 20, 13,  6,  7, 14, 21, 28] ++
  [35, 42, 49, 56, 57, 50, 43, 36] ++
  [29, 22, 15, 23, 30, 37, 44, 51] ++
  [58, 59, 52, 45, 38, 31, 39, 46] ++
  [53, 60, 61, 54, 47, 55, 62, 63]

/-- NAT_TO_ZZ contents, row by row of R111. -/
def natToZzRows : List Nat :=
  [ 0,  1,  5,  6, 14, 15, 27, 28] ++
  [ 2,  4,  7, 13, 16, 26, 29, 42] ++
  [ 3,  8, 12, 17, 25, 30, 41, 43] ++
  [ 9, 11, 18, 24, 31, 40, 44, 53] ++
  [10, 19, 23, 32, 39, 45, 52, 54] ++
  [20, 22, 33, 38, 46, 51, 55, 60] ++
  [21, 34, 37, 47, 50, 56, 59, 61] ++
  [35, 36, 48, 49, 57, 58, 62, 63]

/-- BASE_ZZ contents, row by row of R115, indexed by zig-zag rank. -/
def baseZzRows : List Nat :=
  [ 16,  11,  12,  14,  12,  10,  16,  14] ++
  [ 13,  14,  18,  17,  16,  19,  24,  40] ++
  [ 26,  24,  22,  22,  24,  49,  35,  37] ++
  [ 29,  40,  58,  51,  61,  60,  57,  51] ++
  [ 56,  55,  64,  72,  92,  78,  64,  68] ++
  [ 87,  69,  55,  56,  80, 109,  81,  87] ++
  [ 95,  98, 103, 104, 103,  62,  77, 113] ++
  [121, 112, 100, 120,  92, 101, 103,  99]

/-- Table K.1 in natural order, row by row, as R115 gives it beside BASE_ZZ: the same table, no ROM of its own. -/
def k1Rows : List Nat :=
  [16, 11, 10, 16,  24,  40,  51,  61] ++
  [12, 12, 14, 19,  26,  58,  60,  55] ++
  [14, 13, 16, 24,  40,  57,  69,  56] ++
  [14, 17, 22, 29,  51,  87,  80,  62] ++
  [18, 22, 37, 56,  68, 109, 103,  77] ++
  [24, 35, 55, 64,  81, 104, 113,  92] ++
  [49, 64, 78, 87, 103, 121, 120, 101] ++
  [72, 92, 95, 98, 112, 100, 103,  99]

/-- AAN contents, the binary64 patterns of R113. -/
def aanRows : List Nat :=
  [0x3FF0000000000000, 0x3FF63150B14861EF, 0x3FF4E7AE914D6FCA, 0x3FF2D062EF6C11AA] ++
  [0x3FF0000000000000, 0x3FE92469C0A7BF3B, 0x3FE1517A7BC720BB, 0x3FD1A855DE72AB5D]

/-- `ZZ_TO_NAT[r]`: the natural index at rank r, 6 bits (R22). -/
def zzToNat (r : Fin 64) : Fin 64 := Fin.ofNat 64 (zzToNatRows.getD r.val 0)

/-- `NAT_TO_ZZ[k]`: the rank of natural index k, 6 bits (R23). -/
def natToZz (k : Fin 64) : Fin 64 := Fin.ofNat 64 (natToZzRows.getD k.val 0)

/-- `BASE_ZZ[r]`: 8 bits (R24). -/
def baseZz (r : Fin 64) : Byte := BitVec.ofNat 8 (baseZzRows.getD r.val 0)

/-- `K1[k]`: the base table at natural index k (R115). -/
def k1 (k : Fin 64) : Byte := BitVec.ofNat 8 (k1Rows.getD k.val 0)

/-- `aa[i]`: binary64 (R25). -/
def aan (i : Fin 8) : F64 := BitVec.ofNat 64 (aanRows.getD i.val 0)

/-- K_C4, the literal 0.707106781 (R141). -/
def kC4 : F64 := 0x3FE6A09E6665983E#64

/-- K_C6, the literal 0.382683433 (R141). -/
def kC6 : F64 := 0x3FD87DE2A75D2F39#64

/-- K_C2mC6, the literal 0.541196100 (R141). -/
def kC2mC6 : F64 := 0x3FE1517A7BC720BB#64

/-- K_C2pC6, the literal 1.306562965 (R141). -/
def kC2pC6 : F64 := 0x3FF4E7AE914D6FCA#64

end Sys2Proof.Machine
end

