-- ==== Sys2Proof/Machine/Binary64.lean ====
section
/-! DEFINITION. IEEE-754 binary64 arithmetic on bit patterns (spec/00_scope.md R11): each operation computes the
exact result on integers and rounds it once, to the nearest binary64 value, ties to even. -/

namespace Sys2Proof.Machine

/-- The sign bit. -/
def fSign (x : F64) : Bool := x.msb

/-- The biased exponent field, 11 bits. -/
def fExp (x : F64) : Nat := (x.extractLsb' 52 11).toNat

/-- The fraction field, 52 bits. -/
def fFrac (x : F64) : Nat := (x.extractLsb' 0 52).toNat

/-- Neither an infinity nor a NaN. -/
def fIsFinite (x : F64) : Bool := fExp x != 2047

/-- A NaN. -/
def fIsNaN (x : F64) : Bool := fExp x == 2047 && fFrac x != 0

/-- An infinity. -/
def fIsInf (x : F64) : Bool := fExp x == 2047 && fFrac x == 0

/-- The integer significand of a finite value. -/
def fMant (x : F64) : Nat := if fExp x = 0 then fFrac x else 2 ^ 52 + fFrac x

/-- The exponent of the significand's unit: a finite `x` is ± fMant x · 2 ^ fScale x. -/
def fScale (x : F64) : Int := if fExp x = 0 then -1074 else (fExp x : Int) - 1075

/-- The signed significand of a finite value. -/
def fSignedMant (x : F64) : Int := if fSign x then -(fMant x : Int) else (fMant x : Int)

/-- The exact rational value of a finite pattern. -/
def fValue (x : F64) : Rat := (fSignedMant x : Rat) * (2 : Rat) ^ fScale x

/-- +0 or -0. -/
def fIsZero (x : F64) : Bool := fExp x == 0 && fFrac x == 0

/-- A pattern from its sign and its 63 low bits. -/
def fPack (s : Bool) (bits : Nat) : F64 := BitVec.ofBool s ++ BitVec.ofNat 63 bits

/-- ±0. -/
def fZero (s : Bool) : F64 := fPack s 0

/-- ±infinity. -/
def fInf (s : Bool) : F64 := fPack s (2047 * 2 ^ 52)

/-- A NaN made from two operands; sign and payload are free (log 10). -/
def fNaN (x y : F64) : F64 :=
  (Config.nanBits x y).extractLsb' 51 1 ++ 0xFFF#12 ++ (Config.nanBits x y).extractLsb' 0 51

/-- The nearest integer to n/d, ties to even, for d > 0. -/
def roundHalfEven (n d : Nat) : Nat :=
  if d < 2 * (n % d) ∨ (2 * (n % d) = d ∧ n / d % 2 = 1) then n / d + 1 else n / d

/-- floor(log2(num/den)) for num, den > 0. -/
def ratioLog2 (num den : Nat) : Int :=
  let l : Int := (num.log2 : Int) - (den.log2 : Int)
  if num * 2 ^ (-l).toNat < den * 2 ^ l.toNat then l - 1 else l

/-- The exponent of the unit in the last place of the binary64 values next to num/den · 2^e: 53 significant bits,
and no unit below 2^-1074. -/
def ulpExp (num den : Nat) (e : Int) : Int := max (ratioLog2 num den + e - 52) (-1074)

/-- The binary64 pattern nearest to ±(num/den)·2^e, ties to even, an infinity on overflow (R11). -/
def fRound (s : Bool) (num den : Nat) (e : Int) : F64 :=
  if num = 0 then fZero s else
    let u := ulpExp num den e
    let m := roundHalfEven (num * 2 ^ (e - u).toNat) (den * 2 ^ (u - e).toNat)
    let bits := (u + 1074).toNat * 2 ^ 52 + m
    if bits < 2047 * 2 ^ 52 then fPack s bits else fInf s

/-- The sum of two finite values: exact, then rounded. An exact zero is +0 unless both operands are negative. -/
def fAddFinite (x y : F64) : F64 :=
  let e := min (fScale x) (fScale y)
  let n := fSignedMant x * 2 ^ (fScale x - e).toNat + fSignedMant y * 2 ^ (fScale y - e).toNat
  if n = 0 then fZero (fSign x && fSign y) else fRound (decide (n < 0)) n.natAbs 1 e

/-- `fadd` (R11). -/
def fAdd (x y : F64) : F64 :=
  if fIsFinite x && fIsFinite y then fAddFinite x y
  else if fIsNaN x || fIsNaN y then fNaN x y
  else if fIsInf x && fIsInf y then (if fSign x == fSign y then x else fNaN x y)
  else if fIsInf x then x else y

/-- The sign bit inverted. -/
def fNeg (x : F64) : F64 := x ^^^ 0x8000000000000000#64

/-- `fsub` (R11). -/
def fSub (x y : F64) : F64 := fAdd x (fNeg y)

/-- `fmul` (R11). -/
def fMul (x y : F64) : F64 :=
  let s := fSign x ^^ fSign y
  if fIsFinite x && fIsFinite y then fRound s (fMant x * fMant y) 1 (fScale x + fScale y)
  else if fIsNaN x || fIsNaN y || fIsZero x || fIsZero y then fNaN x y
  else fInf s

/-- `fdiv` (R11). -/
def fDiv (x y : F64) : F64 :=
  let s := fSign x ^^ fSign y
  if fIsNaN x || fIsNaN y then fNaN x y
  else if fIsInf x then (if fIsInf y then fNaN x y else fInf s)
  else if fIsInf y then fZero s
  else if fIsZero y then (if fIsZero x then fNaN x y else fInf s)
  else fRound s (fMant x) (fMant y) (fScale x - fScale y)

/-- `f64(n)`: exact for every integer below 2^53 in magnitude (R11). -/
def fOfInt (n : Int) : F64 := fRound (decide (n < 0)) n.natAbs 1 0

/-- `trunc(x)`: the integer nearest `x` in the direction of zero (R11). Free for a NaN or an infinity (log 10). -/
def fTrunc (x : F64) : Int :=
  if fIsFinite x then
    let m : Int := ((fMant x * 2 ^ (fScale x).toNat / 2 ^ (-fScale x).toNat : Nat) : Int)
    if fSign x then -m else m
  else Config.truncNonFinite x

/-- `x > 0.0`; false on a NaN. -/
def fPos (x : F64) : Bool := !fSign x && !fIsZero x && !fIsNaN x

/-- The constant 0.5. -/
def fHalf : F64 := 0x3FE0000000000000#64

/-- The constant 1.0. -/
def fOne : F64 := 0x3FF0000000000000#64

/-- The constant 8.0. -/
def fEight : F64 := 0x4020000000000000#64

/-- `RoundHalfAway(x)`: add or subtract 0.5 in binary64, then truncate, exactly so (R148; 93 U3). -/
def roundHalfAway (x : F64) : Int :=
  if fPos x then fTrunc (fAdd x fHalf) else fTrunc (fSub x fHalf)

end Sys2Proof.Machine
end

