-- ==== Sys2Proof/Machine/Operands.lean ====
section
/-! DEFINITION. The operand forms of the commands and of host accesses: buffer elements and their validity,
element packing, shifts, clamps, the level shift, and the row and column passes (spec/00_scope.md R10, R13;
spec/10_state.md R45; spec/20_memory.md R65 to R67; spec/41_forward.md R142, R145, R146). -/

namespace Sys2Proof.Machine

/-- The element of a buffer, if its validity bit is 1 (R45). -/
def Buffer.get? {α : Type} (b : Buffer α) (k : Fin 64) : Option α :=
  if b.valid[k] then some b.data[k] else none

/-- A write to an element sets its validity bit (R45). -/
def Buffer.put {α : Type} (b : Buffer α) (k : Fin 64) (v : α) : Buffer α :=
  ⟨b.data.set k.val v, b.valid.set k.val true⟩

/-- A command writes every element of its output buffer, with the validity bits (R224). -/
def Buffer.full {α : Type} (f : Fin 64 → α) : Buffer α :=
  ⟨Vector.ofFn f, Vector.replicate 64 true⟩

/-- Every element has been written since reset (R275). -/
def Buffer.allValid {α : Type} (b : Buffer α) : Bool := b.valid.all id

/-- `a >> n`: floor(a / 2^n) (R10, R200). -/
def asr (a : Int) (n : Nat) : Int := a / 2 ^ n

/-- An 8-bit element in bits 7:0 of its word, zero-extended (R65). -/
def wordOfByte (b : Byte) : Word := b.zeroExtend 32

/-- A 6-bit ROM element, zero-extended (R65). -/
def wordOfIndex (k : Fin 64) : Word := BitVec.ofNat 32 k.val

/-- Bits 31:0 of a binary64 pattern, the word at the lower offset (R67). -/
def lowWord (x : F64) : Word := x.extractLsb' 0 32

/-- Bits 63:32 of a binary64 pattern, the word at offset + 4 (R67). -/
def highWord (x : F64) : Word := x.extractLsb' 32 32

/-- `LevelShift(b, pre)` (R142). -/
def levelShift (b : Byte) : PixelMode → Int
  | .raw => (b.toNat : Int) - 128
  | .pre => b.toInt

/-- Row i of a block: natural indices 8i..8i+7 (R13, R145). -/
def rowOf {α : Type} (b : Vector α 64) (i : Fin 8) : Vector α 8 :=
  Vector.ofFn fun j => b[8 * i.val + j.val]

/-- Column c of a block: indices c, 8+c, …, 56+c (R13, R146). -/
def colOf {α : Type} (b : Vector α 64) (c : Fin 8) : Vector α 8 :=
  Vector.ofFn fun j => b[8 * j.val + c.val]

/-- Apply `f` to every row; output j of row i goes to index 8i + j (R145, R188). -/
def mapRows {α β : Type} (f : Vector α 8 → Vector β 8) (b : Vector α 64) : Vector β 64 :=
  let out : Vector (Vector β 8) 8 := Vector.ofFn fun i => f (rowOf b i)
  Vector.ofFn fun k => out[k.val / 8][k.val % 8]

/-- Apply `f` to every column; output j of column c goes to index 8j + c (R146, R190). -/
def mapCols {α β : Type} (f : Vector α 8 → Vector β 8) (b : Vector α 64) : Vector β 64 :=
  let out : Vector (Vector β 8) 8 := Vector.ofFn fun c => f (colOf b c)
  Vector.ofFn fun k => out[k.val % 8][k.val / 8]

end Sys2Proof.Machine
end

