-- ==== Sys2Proof/Machine/Flags.lean ====
section
/-! DEFINITION. The flags and register views: STATUS, CTRL, QUALITY, SF and PHASE as the words the host reads, the
write-one-to-clear rule, and the interrupt output (spec/10_state.md R32 to R43, spec/60_exceptions.md R250). -/

namespace Sys2Proof.Machine

/-- The code of an error in STATUS bits 11:8 (R240). -/
def ErrCode.code : ErrCode → BitVec 4
  | .none => 0#4
  | .cmdIllegalOpc => 1#4
  | .cmdRsvdBits => 2#4
  | .cmdNoTable => 3#4
  | .busBusy => 4#4
  | .busUnmapped => 5#4
  | .busMisaligned => 6#4
  | .busReadonly => 7#4

/-- STATUS as the host reads it (R38). -/
def Status.word (t : Status) : Word :=
  0#12 ++ t.lastop ++ 0#4 ++ t.errcode.code ++ 0#3 ++ BitVec.ofBool t.tv ++ BitVec.ofBool t.eovf ++
    BitVec.ofBool t.err ++ BitVec.ofBool t.done ++ BitVec.ofBool t.busy

/-- CTRL as the host reads it: SRST and the reserved bits read 0 (R36). -/
def Ctrl.word (c : Ctrl) : Word := 0#30 ++ BitVec.ofBool c.errIe ++ BitVec.ofBool c.doneIe

/-- PHASE as the host reads it (R34). -/
def Phase.word (p : Phase) : Word := 0#17 ++ p.stop ++ 0#1 ++ p.start

/-- QUALITY as the host reads it (R32). -/
def qualityWord (q : BitVec 7) : Word := 0#25 ++ q

/-- SF as the host reads it (R33). -/
def sfWord (f : BitVec 13) : Word := 0#19 ++ f

/-- CTRL after a write with bit 31 = 0 (R36, R271). -/
def Ctrl.ofWord (v : Word) : Ctrl := { doneIe := v.getLsbD 0, errIe := v.getLsbD 1 }

/-- A STATUS write: bit 1 clears DONE, bit 2 clears ERR and ERRCODE, bit 3 clears EOVF; every other bit is
ignored (R38, R248). -/
def Status.clear (t : Status) (v : Word) : Status :=
  { t with
    done := t.done && !v.getLsbD 1
    err := t.err && !v.getLsbD 2
    errcode := if v.getLsbD 2 then .none else t.errcode
    eovf := t.eovf && !v.getLsbD 3 }

/-- IRQ (R43, R250). -/
def State.irq (s : State) : Bool :=
  (s.status.done && s.ctrl.doneIe) || (s.status.err && s.ctrl.errIe)

end Sys2Proof.Machine
end

