-- ==== Sys2Proof/Machine/Ops.lean ====
section
/-! DEFINITION. The shared operations: the address map, recording an error ("taking an exception") and clearing it,
reset, acceptance of a command, host reads and writes, and the completion of a command (spec/20_memory.md,
spec/44_control.md, spec/60_exceptions.md, spec/70_reset_and_hazards.md). -/

namespace Sys2Proof.Machine

/-- What an offset of the window names (R62). -/
inductive Loc
  | id
  | ctrl
  | status
  | cmd
  | errinfo
  | quality
  | sf
  | phase
  | pixIn (k : Fin 64)
  | coef (k : Fin 64)
  | mcoef (k : Fin 64)
  | pixOut (k : Fin 64)
  | qt (k : Fin 64)
  | ftLow (k : Fin 64)
  | ftHigh (k : Fin 64)
  | zzToNat (r : Fin 64)
  | natToZz (k : Fin 64)
  | baseZz (r : Fin 64)
  | aanLow (i : Fin 8)
  | aanHigh (i : Fin 8)
  deriving DecidableEq, Repr

/-- The registers at 0x000..0x01C, by word number (R62). -/
def locateRegister (word : Nat) : Option Loc :=
  match word with
  | 0 => some .id
  | 1 => some .ctrl
  | 2 => some .status
  | 3 => some .cmd
  | 4 => some .errinfo
  | 5 => some .quality
  | 6 => some .sf
  | 7 => some .phase
  | _ => none

/-- The map of R62 for an aligned offset, region by region of 256 bytes; `none` is unmapped. -/
def locate (a : Addr) : Option Loc :=
  let n := a.toNat
  match n / 0x100 with
  | 0x0 => locateRegister (n / 4)
  | 0x1 => some (.pixIn (Fin.ofNat 64 (n / 4)))
  | 0x2 => some (.coef (Fin.ofNat 64 (n / 4)))
  | 0x3 => some (.mcoef (Fin.ofNat 64 (n / 4)))
  | 0x4 => some (.pixOut (Fin.ofNat 64 (n / 4)))
  | 0x5 => some (.qt (Fin.ofNat 64 (n / 4)))
  | 0x6 => some (if n % 8 < 4 then .ftLow (Fin.ofNat 64 (n / 8)) else .ftHigh (Fin.ofNat 64 (n / 8)))
  | 0x7 => some (if n % 8 < 4 then .ftLow (Fin.ofNat 64 (n / 8)) else .ftHigh (Fin.ofNat 64 (n / 8)))
  | 0x8 => some (.zzToNat (Fin.ofNat 64 (n / 4)))
  | 0x9 => some (.natToZz (Fin.ofNat 64 (n / 4)))
  | 0xA => some (.baseZz (Fin.ofNat 64 (n / 4)))
  | 0xB => if n < 0xB40 then
      some (if n % 8 < 4 then .aanLow (Fin.ofNat 8 (n / 8)) else .aanHigh (Fin.ofNat 8 (n / 8))) else none
  | _ => none

/-- The offset R62 gives a location. -/
def Loc.offset : Loc → Addr
  | .id => 0x000#12
  | .ctrl => 0x004#12
  | .status => 0x008#12
  | .cmd => 0x00C#12
  | .errinfo => 0x010#12
  | .quality => 0x014#12
  | .sf => 0x018#12
  | .phase => 0x01C#12
  | .pixIn k => BitVec.ofNat 12 (0x100 + 4 * k.val)
  | .coef k => BitVec.ofNat 12 (0x200 + 4 * k.val)
  | .mcoef k => BitVec.ofNat 12 (0x300 + 4 * k.val)
  | .pixOut k => BitVec.ofNat 12 (0x400 + 4 * k.val)
  | .qt k => BitVec.ofNat 12 (0x500 + 4 * k.val)
  | .ftLow k => BitVec.ofNat 12 (0x600 + 8 * k.val)
  | .ftHigh k => BitVec.ofNat 12 (0x604 + 8 * k.val)
  | .zzToNat r => BitVec.ofNat 12 (0x800 + 4 * r.val)
  | .natToZz k => BitVec.ofNat 12 (0x900 + 4 * k.val)
  | .baseZz r => BitVec.ofNat 12 (0xA00 + 4 * r.val)
  | .aanLow i => BitVec.ofNat 12 (0xB00 + 8 * i.val)
  | .aanHigh i => BitVec.ofNat 12 (0xB04 + 8 * i.val)

/-- The platform's view of the window: the offset of a platform address, if it falls in the window (R60). -/
def windowOffset (platformAddr : Nat) : Option Addr :=
  if Config.base ≤ platformAddr ∧ platformAddr < Config.base + 4096 then
    some (BitVec.ofNat 12 (platformAddr - Config.base))
  else none

/-- `addr[1:0] ≠ 0` (R64, R73). -/
def misaligned (a : Addr) : Bool := a.extractLsb' 0 2 != 0#2

/-- The access column of R62: RO. -/
def Loc.readOnly : Loc → Bool
  | .ctrl | .status | .cmd | .pixIn _ | .coef _ | .mcoef _ => false
  | .id | .errinfo | .quality | .sf | .phase | .pixOut _ | .qt _ | .ftLow _ | .ftHigh _ | .zzToNat _
  | .natToZz _ | .baseZz _ | .aanLow _ | .aanHigh _ => true

/-- PIX_IN, COEF, MCOEF and CMD: not writable while BUSY = 1 (R64). -/
def Loc.busyBlocked : Loc → Bool
  | .cmd | .pixIn _ | .coef _ | .mcoef _ => true
  | .id | .ctrl | .status | .errinfo | .quality | .sf | .phase | .pixOut _ | .qt _ | .ftLow _ | .ftHigh _
  | .zzToNat _ | .natToZz _ | .baseZz _ | .aanLow _ | .aanHigh _ => false

/-- The offsets 0x100..0x7FF: reads while BUSY = 1 return any value (R72). -/
def Loc.busyUnspecified : Loc → Bool
  | .pixIn _ | .coef _ | .mcoef _ | .pixOut _ | .qt _ | .ftLow _ | .ftHigh _ => true
  | .id | .ctrl | .status | .cmd | .errinfo | .quality | .sf | .phase | .zzToNat _ | .natToZz _ | .baseZz _
  | .aanLow _ | .aanHigh _ => false

/-- `RecordError(code, info)`, the one action every error takes: the unit's whole "trap entry" (R243). Clearing it,
the whole "trap return", is `Status.clear` (R248). -/
def recordError (code : ErrCode) (info : Word) (s : State) : State :=
  if s.status.err then { s with status := { s.status with eovf := true } }
  else { s with status := { s.status with err := true, errcode := code }, errinfo := info }

/-- The state change of either reset (R270, R271): the reset values of R46; what R46 leaves unspecified takes free
values, a fresh draw for each reset (log 4). What the outside still has to do, `schedule`, stays. -/
def resetState (s : State) : State :=
  { State.reset with
    pixIn := Buffer.invalid (Vector.ofFn fun k => BitVec.ofInt 8 (Config.afterReset s.draws .pixIn k.val))
    coef := Buffer.invalid (Vector.ofFn fun k => BitVec.ofInt 32 (Config.afterReset s.draws .coef k.val))
    mcoef := Buffer.invalid (Vector.ofFn fun k => BitVec.ofInt 32 (Config.afterReset s.draws .mcoef k.val))
    pixOut := Buffer.invalid (Vector.ofFn fun k => BitVec.ofInt 8 (Config.afterReset s.draws .pixOut k.val))
    qt := Vector.ofFn fun k => BitVec.ofInt 8 (Config.afterReset s.draws .qt k.val)
    ft := Vector.ofFn fun k => BitVec.ofInt 64 (Config.afterReset s.draws .ft k.val)
    w := Vector.ofFn fun k => Config.afterReset s.draws .w k.val
    schedule := s.schedule
    draws := s.draws + 1 }

/-- FDCT and IDCT need STATUS.TV = 1; BUILDQT, MASK and NOP do not (R221, R225). -/
def needsTables : Instr → Bool
  | .fdct _ | .idct _ => true
  | .nop | .buildqt _ | .mask _ _ => false

/-- The error of a rejected word (R240). -/
def rejectCode : CmdReject → ErrCode
  | .illegalOpc => .cmdIllegalOpc
  | .rsvdBits => .cmdRsvdBits

/-- `Accept(w)`, part of the CMD write, with BUSY = 0 (R221). -/
def accept (w : Word) (s : State) : State :=
  match decode w with
  | .reject r => recordError (rejectCode r) w s
  | .command i =>
    if needsTables i && !s.status.tv then recordError .cmdNoTable w s
    else { s with
      pend := .run w
      status := { s.status with busy := true, done := false, lastop := opcField w } }

/-- What the host is told. -/
def answer (r : Reply) (s : State) : State := { s with reply := some r }

/-- A failed access: the error record and nothing else (R64, R243). -/
def busError (code : ErrCode) (a : Addr) (r : Reply) (s : State) : State :=
  answer r (recordError code (a.zeroExtend 32) s)

/-- The word a location reads as while it is not under R72 (R62, R65 to R67); `none` where the rules define no
value (R71). -/
def readLoc (l : Loc) (s : State) : Option Word :=
  match l with
  | .id => some idWord
  | .ctrl => some s.ctrl.word
  | .status => some s.status.word
  | .cmd => some 0#32
  | .errinfo => some s.errinfo
  | .quality => some (qualityWord s.quality)
  | .sf => some (sfWord s.sf)
  | .phase => some s.phase.word
  | .pixIn k => (s.pixIn.get? k).map wordOfByte
  | .coef k => s.coef.get? k
  | .mcoef k => s.mcoef.get? k
  | .pixOut k => (s.pixOut.get? k).map wordOfByte
  | .qt k => if s.status.tv then some (wordOfByte s.qt[k]) else none
  | .ftLow k => if s.status.tv then some (lowWord s.ft[k]) else none
  | .ftHigh k => if s.status.tv then some (highWord s.ft[k]) else none
  | .zzToNat r => some (wordOfIndex (zzToNat r))
  | .natToZz k => some (wordOfIndex (natToZz k))
  | .baseZz r => some (wordOfByte (baseZz r))
  | .aanLow i => some (lowWord (aan i))
  | .aanHigh i => some (highWord (aan i))

/-- A write that passed every check (R62). A location that is read-only never comes here (R64). -/
def writeLoc (l : Loc) (d : Word) (s : State) : State :=
  match l with
  | .ctrl => if d.getLsbD 31 then resetState s else { s with ctrl := Ctrl.ofWord d }
  | .status => { s with status := s.status.clear d }
  | .cmd => accept d s
  | .pixIn k => { s with pixIn := s.pixIn.put k (d.truncate 8) }
  | .coef k => { s with coef := s.coef.put k d }
  | .mcoef k => { s with mcoef := s.mcoef.put k d }
  | .id | .errinfo | .quality | .sf | .phase | .pixOut _ | .qt _ | .ftLow _ | .ftHigh _ | .zzToNat _
  | .natToZz _ | .baseZz _ | .aanLow _ | .aanHigh _ => s

/-- A host read, checked in the order of R64; while BUSY = 1 the block buffers, QT and FT return a draw (R72); an
undefined element is the fault UninitRead (R71). -/
def hostRead (a : Addr) (s : State) : Host.Outcome State Fault Refusal :=
  if misaligned a then .next (busError .busMisaligned a (.read 0#32 .error) s)
  else
    match locate a with
    | none => .next (busError .busUnmapped a (.read 0#32 .error) s)
    | some l =>
      if s.status.busy && l.busyUnspecified then
        .next (answer (.read (Config.busyRead s.draws) .okay) { s with draws := s.draws + 1 })
      else
        match readLoc l s with
        | some d => .next (answer (.read d .okay) s)
        | none => .fault .uninitRead

/-- A host write, checked in the order of R64 and R246. -/
def hostWrite (a : Addr) (d : Word) (s : State) : State :=
  if misaligned a then busError .busMisaligned a (.write .error) s
  else
    match locate a with
    | none => busError .busUnmapped a (.write .error) s
    | some l =>
      if l.readOnly then busError .busReadonly a (.write .error) s
      else if s.status.busy && l.busyBlocked then busError .busBusy a (.write .error) s
      else answer (.write .okay) (writeLoc l d s)

/-- The end of every completion (R224): PEND Idle, BUSY 0, DONE 1. -/
def finish (s : State) : State :=
  { s with pend := .idle, status := { s.status with busy := false, done := true } }

end Sys2Proof.Machine
end

