-- ==== Sys2Proof/Machine/Control.lean ====
section
/-! DEFINITION. The control family: NOP (spec/44_control.md R230). -/

namespace Sys2Proof.Machine

/-- NOP: no operation; only the completion's BUSY, DONE and PEND (R230). -/
def execNop (s : State) : Host.Outcome State Fault Refusal := .next (finish s)

end Sys2Proof.Machine
end

