-- ==== Sys2Proof/Machine/Forward.lean ====
section
/-! DEFINITION. The forward family: FDCT (spec/41_forward.md R140 to R151). -/

namespace Sys2Proof.Machine

/-- The 8-point AAN butterfly, every operation binary64 and in the order written (R144). -/
def fdct8 (d : Vector F64 8) : Vector F64 8 :=
  let tmp0 := fAdd d[0] d[7]
  let tmp7 := fSub d[0] d[7]
  let tmp1 := fAdd d[1] d[6]
  let tmp6 := fSub d[1] d[6]
  let tmp2 := fAdd d[2] d[5]
  let tmp5 := fSub d[2] d[5]
  let tmp3 := fAdd d[3] d[4]
  let tmp4 := fSub d[3] d[4]
  let even10 := fAdd tmp0 tmp3
  let even13 := fSub tmp0 tmp3
  let even11 := fAdd tmp1 tmp2
  let even12 := fSub tmp1 tmp2
  let o0 := fAdd even10 even11
  let o4 := fSub even10 even11
  let z1 := fMul (fAdd even12 even13) kC4
  let o2 := fAdd even13 z1
  let o6 := fSub even13 z1
  let odd10 := fAdd tmp4 tmp5
  let odd11 := fAdd tmp5 tmp6
  let odd12 := fAdd tmp6 tmp7
  let z5 := fMul (fSub odd10 odd12) kC6
  let z2 := fAdd (fMul kC2mC6 odd10) z5
  let z4 := fAdd (fMul kC2pC6 odd12) z5
  let z3 := fMul odd11 kC4
  let z11 := fAdd tmp7 z3
  let z13 := fSub tmp7 z3
  let o5 := fAdd z13 z2
  let o3 := fSub z13 z2
  let o1 := fAdd z11 z4
  let o7 := fSub z11 z4
  #v[o0, o1, o2, o3, o4, o5, o6, o7]

/-- Both passes: rows, then columns of the row-pass result (R145, R146). -/
def fdctBlock (d : Vector F64 64) : Vector F64 64 := mapCols fdct8 (mapRows fdct8 d)

/-- The level-shifted samples as binary64 values (R140, R142). -/
def samples (mode : PixelMode) (pix : Vector Byte 64) : Vector F64 64 :=
  Vector.ofFn fun k => fOfInt (levelShift pix[k] mode)

/-- One quantized coefficient, `RoundHalfAway(d · FT)`, in COEF's 32 bits (R147). No rule gives a value outside
them, and none arises (R149; log 10). -/
def quantize (d ft : F64) : Word := BitVec.ofInt 32 (roundHalfAway (fMul d ft))

/-- The whole forward transform of a block (R140). -/
def forwardBlock (mode : PixelMode) (pix : Vector Byte 64) (ft : Vector F64 64) : Vector Word 64 :=
  let d := fdctBlock (samples mode pix)
  Vector.ofFn fun k => quantize d[k] ft[k]

/-- FDCT: reads PIX_IN and FT, writes COEF (R140, R225). Every PIX_IN element must be valid (R151, R275), and the
tables built, which acceptance has checked (R221; log 9). -/
def execFdct (mode : PixelMode) (s : State) : Host.Outcome State Fault Refusal :=
  if s.pixIn.allValid && s.status.tv then
    let out := forwardBlock mode s.pixIn.data s.ft
    .next (finish { s with coef := Buffer.full fun k => out[k] })
  else .fault .uninitRead

end Sys2Proof.Machine
end

