-- ==== Sys2Proof/Machine/Inverse.lean ====
section
/-! DEFINITION. The inverse family: IDCT (spec/43_inverse.md R185 to R207). All arithmetic is on exact integers
(R199). -/

namespace Sys2Proof.Machine

/-- The fixed-point multipliers, scaled by 2^12 (R186). -/
def mulC1 : Int := 4017
def mulS1 : Int := 799
def mulC3 : Int := 3406
def mulS3 : Int := 2276
def mulC6 : Int := 1567
def mulS6 : Int := 3784
def mulR2 : Int := 5793
def mulR1_2 : Int := 2896

/-- Dequantization at the same natural position (R187). -/
def dequantize (cf : Vector Word 64) (qt : Vector Byte 64) : Vector Int 64 :=
  Vector.ofFn fun (k : Fin 64) => cf[k].toInt * (qt[k].toNat : Int)

/-- Stages 2 and 1, the same in both passes (R188, R190). The arguments are v0..v7 after stage 3. -/
def idctTail (v0 v1 v2 v3 v4 v5 v6 v7 : Int) : Vector Int 8 :=
  let t := asr (v0 - v3 + 1) 1
  let v0 := asr (v0 + v3 + 1) 1
  let v3 := t
  let t := asr (v1 - v2 + 1) 1
  let v1 := asr (v1 + v2 + 1) 1
  let v2 := t
  let t := asr (v4 * mulS3 + v7 * mulC3 + 2048) 12
  let v4 := asr (v4 * mulC3 - v7 * mulS3 + 2048) 12
  let v7 := t
  let t := asr (v5 * mulS1 + v6 * mulC1 + 2048) 12
  let v5 := asr (v5 * mulC1 - v6 * mulS1 + 2048) 12
  let v6 := t
  #v[v0 + v7, v1 + v6, v2 + v5, v3 + v4, v3 - v4, v2 - v5, v1 - v6, v0 - v7]

/-- `idct_row`: stages 4 and 3 of the row pass, then the common tail (R188). -/
def idctRow (p : Vector Int 8) : Vector Int 8 :=
  let v0 := asr (mulR2 * p[0] + 128) 8
  let v1 := asr (mulR2 * p[4] + 128) 8
  let v2 := p[2]
  let v3 := p[6]
  let v4 := asr (mulR1_2 * (p[1] - p[7]) + 128) 8
  let v7 := asr (mulR1_2 * (p[1] + p[7]) + 128) 8
  let v5 := p[3] * 2 ^ 4
  let v6 := p[5] * 2 ^ 4
  let t := asr (v0 - v1 + 1) 1
  let v0 := asr (v0 + v1 + 1) 1
  let v1 := t
  let t := asr (v2 * mulS6 + v3 * mulC6 + 128) 8
  let v2 := asr (v2 * mulC6 - v3 * mulS6 + 128) 8
  let v3 := t
  let t := asr (v4 - v6 + 1) 1
  let v4 := asr (v4 + v6 + 1) 1
  let v6 := t
  let t := asr (v7 + v5 + 1) 1
  let v5 := asr (v7 - v5 + 1) 1
  let v7 := t
  idctTail v0 v1 v2 v3 v4 v5 v6 v7

/-- `idct_col`: stages 4 and 3 of the column pass, then the common tail (R190). -/
def idctCol (x : Vector Int 8) : Vector Int 8 :=
  let v0 := asr (mulR2 * x[0] + 2048) 12
  let v1 := asr (mulR2 * x[4] + 2048) 12
  let v2 := x[2]
  let v3 := x[6]
  let v4 := asr (mulR1_2 * (x[1] - x[7]) + 2048) 12
  let v7 := asr (mulR1_2 * (x[1] + x[7]) + 2048) 12
  let v5 := x[3]
  let v6 := x[5]
  let t := asr (v0 - v1 + 1) 1
  let v0 := asr (v0 + v1 + 1) 1
  let v1 := t
  let t := asr (v2 * mulS6 + v3 * mulC6 + 2048) 12
  let v2 := asr (v2 * mulC6 - v3 * mulS6 + 2048) 12
  let v3 := t
  let t := asr (v4 - v6 + 1) 1
  let v4 := asr (v4 + v6 + 1) 1
  let v6 := t
  let t := asr (v7 + v5 + 1) 1
  let v5 := asr (v7 - v5 + 1) 1
  let v7 := t
  idctTail v0 v1 v2 v3 v4 v5 v6 v7

/-- `RowDC(a)` (R192, R196). -/
def rowDc (r : DcRounding) (a : Int) : Int :=
  match r with
  | .equal => asr (mulR2 * a + 896) 10
  | .reference => asr (mulR2 * a + 512) 10

/-- `ColDC(a)` (R192, R196). -/
def colDc (r : DcRounding) (a : Int) : Int :=
  match r with
  | .equal => asr (mulR2 * a + 14336) 14
  | .reference => asr (mulR2 * a + 8192) 14

/-- Fast-path detection: elements 1..7 are all 0 (R191, R193). -/
def acZero (x : Vector Int 8) : Bool :=
  x[1] == 0 && x[2] == 0 && x[3] == 0 && x[4] == 0 && x[5] == 0 && x[6] == 0 && x[7] == 0

/-- One row: the fast path or the butterfly (R185, R191). -/
def inverseRow (r : DcRounding) (p : Vector Int 8) : Vector Int 8 :=
  if acZero p then Vector.replicate 8 (rowDc r p[0]) else idctRow p

/-- One column: the fast path or the butterfly (R185, R193). -/
def inverseCol (r : DcRounding) (x : Vector Int 8) : Vector Int 8 :=
  if acZero x then Vector.replicate 8 (colDc r x[0]) else idctCol x

/-- `OutStage(y)` (R197). -/
def outStage (y : Int) : Byte := BitVec.ofInt 8 (clampInt (128 + asr (y + 8) 4) 0 255)

/-- W, the row-pass output (R185, R189). -/
def inverseRows (r : DcRounding) (cf : Vector Word 64) (qt : Vector Byte 64) : Vector Int 64 :=
  mapRows (inverseRow r) (dequantize cf qt)

/-- The reconstructed block from W (R185). -/
def inverseOut (r : DcRounding) (w : Vector Int 64) : Vector Byte 64 :=
  let y := mapCols (inverseCol r) w
  Vector.ofFn fun k => outStage y[k]

/-- The buffer SRC selects (R95, R185). -/
def sourceBuffer (src : CoefSource) (s : State) : Buffer Word :=
  match src with
  | .mcoef => s.mcoef
  | .coef => s.coef

/-- IDCT: reads MCOEF or COEF, and QT; writes PIX_OUT and W (R185, R225). Every source element must be valid (R203,
R275), and the tables built, which acceptance has checked (R221; log 9). -/
def execIdct (src : CoefSource) (s : State) : Host.Outcome State Fault Refusal :=
  if (sourceBuffer src s).allValid && s.status.tv then
    let w := inverseRows Config.idctDcRounding (sourceBuffer src s).data s.qt
    let out := inverseOut Config.idctDcRounding w
    .next (finish { s with pixOut := Buffer.full (fun k => out[k]), w := w })
  else .fault .uninitRead

end Sys2Proof.Machine
end

