-- ==== Sys2Proof/Machine/Mask.lean ====
section
/-! DEFINITION. The masker family: MASK (spec/42_mask.md R170 to R177). -/

namespace Sys2Proof.Machine

/-- The two rank comparators of lane k (R170). -/
def keeps (start stop : Nat) (k : Fin 64) : Bool :=
  decide (start ≤ (natToZz k).val) && decide ((natToZz k).val < stop)

/-- One lane: the coefficient bit for bit, or 0 (R170). -/
def maskLane (start stop : Nat) (cf : Vector Word 64) (k : Fin 64) : Word :=
  if keeps start stop k then cf[k] else 0#32

/-- MASK s, e: reads COEF, writes MCOEF and PHASE (R170, R172, R225). Every COEF element must be valid, those MASK
zeroes too (R177). -/
def execMask (start stop : Nat) (s : State) : Host.Outcome State Fault Refusal :=
  if s.coef.allValid then
    .next (finish { s with
      mcoef := Buffer.full (maskLane start stop s.coef.data)
      phase := { start := BitVec.ofNat 7 start, stop := BitVec.ofNat 7 stop } })
  else .fault .uninitRead

end Sys2Proof.Machine
end

