-- ==== Sys2Proof/Machine/Tables.lean ====
section
/-! DEFINITION. The table family: BUILDQT (spec/40_tables.md R120 to R124). -/

namespace Sys2Proof.Machine

/-- The scale factor sf (R121). -/
def scaleFactor (q : Nat) : Nat := if q < 50 then 5000 / q else 200 - 2 * q

/-- One step size from a base entry: `clamp(floor((base·sf + 50) / 100), 1, 255)` (R122). -/
def stepSize (base sf : Nat) : Byte :=
  BitVec.ofNat 8 (clampInt (((base * sf + 50) / 100 : Nat) : Int) 1 255).toNat

/-- The InverseTable for a scale factor, in natural order: the entry at natural index k comes from the base entry of
rank NAT_TO_ZZ[k] (R122). -/
def buildQt (sf : Nat) : Vector Byte 64 :=
  Vector.ofFn fun k => stepSize (baseZz (natToZz k)).toNat sf

/-- `FT[k]` from `QT[k]`, with row and column of k: binary64, left to right (R123; 90 C1). -/
def forwardEntry (step : Byte) (row col : Fin 8) : F64 :=
  fDiv fOne (fMul (fMul (fMul (fOfInt step.toNat) (aan row)) (aan col)) fEight)

/-- The ForwardTable of an InverseTable (R123). -/
def buildFt (qt : Vector Byte 64) : Vector F64 64 :=
  Vector.ofFn fun k => forwardEntry qt[k] (Fin.ofNat 8 (k.val / 8)) (Fin.ofNat 8 (k.val % 8))

/-- BUILDQT q: QT, FT, QUALITY, SF and TV, all at completion (R120, R124). -/
def execBuildqt (q : Nat) (s : State) : Host.Outcome State Fault Refusal :=
  let sf := scaleFactor q
  let qt := buildQt sf
  .next (finish { s with
    qt := qt
    ft := buildFt qt
    quality := BitVec.ofNat 7 q
    sf := BitVec.ofNat 13 sf
    status := { s.status with tv := true } })

end Sys2Proof.Machine
end

