-- ==== Sys2Proof/Machine/Dispatch.lean ====
section
/-! DEFINITION. One arm per command, each one call of its meaning (the case split of spec/44_control.md R224). -/

namespace Sys2Proof.Machine

/-- The completion of a decoded command (R224). -/
def exec (i : Instr) (s : State) : Host.Outcome State Fault Refusal :=
  match i with
  | .nop => Sys2Proof.Machine.execNop s
  | .buildqt q => Sys2Proof.Machine.execBuildqt q s
  | .fdct mode => Sys2Proof.Machine.execFdct mode s
  | .mask start stop => Sys2Proof.Machine.execMask start stop s
  | .idct src => Sys2Proof.Machine.execIdct src s

end Sys2Proof.Machine
end

