-- ==== Sys2Proof/Machine/Step.lean ====
section
/-! DEFINITION. One step: the next turn of the schedule, or the engine's turn when nothing is scheduled
(spec/44_control.md R223, R232; log 1). -/

namespace Sys2Proof.Machine

/-- The engine's turn: complete the running command, or nothing when idle (R223, R224, R260). -/
def engineTurn (s : State) : Host.Outcome State Fault Refusal :=
  match s.pend with
  | .idle => .next s
  | .run w =>
    match decode w with
    | .command i => exec i s
    | .reject _ => .fault .pendNotLegal

/-- One turn (R232). -/
def takeTurn (t : Turn) (s : State) : Host.Outcome State Fault Refusal :=
  match t with
  | .read a => hostRead a s
  | .write a d => .next (hostWrite a d s)
  | .engine => engineTurn s
  | .reset => .next (resetState s)

/-- One step of the machine. With nothing scheduled the engine moves, so that a running command completes
eventually (R223). -/
def step (s : State) : Host.Outcome State Fault Refusal :=
  match s.schedule with
  | [] => engineTurn s
  | t :: rest => takeTurn t { s with schedule := rest }

/-- `s` with the command word `w` accepted (the state change of R221 for a legal word), and the engine next to
move: the next step completes exactly this command. It stands for a CMD write of `w` that was accepted (log 1). -/
def State.withFetchWord (s : State) (nbits w : Nat) : State :=
  { s with
    pend := .run (tableWord nbits w)
    status := { s.status with busy := true, done := false, lastop := opcField (tableWord nbits w) }
    schedule := match s.schedule with
      | [] => []
      | t :: rest => .engine :: t :: rest }

end Sys2Proof.Machine
end

