-- ==== Sys2Proof/Machine/Script.lean ====
section
/-! DEFINITION. The spec's command syntax, and its pseudo-instructions as lists of turns (spec/30_encoding.md R100
to R102). IE-DCT8 encodes none of this: it says what the host does. -/

namespace Sys2Proof.Machine

/-- A line of the command syntax (R100); `FDCT` is `FDCT.RAW`, and `IDCT` is `IDCT.MCOEF`. -/
inductive Asm
  | nop
  | buildqt (q : Int)
  | fdct (mode : PixelMode)
  | mask (s e : Int)
  | idct (src : CoefSource)
  deriving DecidableEq, Repr

/-- `enc`: the word of a line; `none` is an assembly error: "It is not wrapped" (R100). -/
def assemble : Asm → Option Word
  | .nop => some 0x00000000#32
  | .buildqt q =>
    if -32768 ≤ q ∧ q ≤ 32767 then some (BitVec.ofInt 16 q ++ 0x0001#16) else none
  | .fdct .raw => some 0x00000002#32
  | .fdct .pre => some 0x00000102#32
  | .mask s e =>
    if -128 ≤ s ∧ s ≤ 127 ∧ -128 ≤ e ∧ e ≤ 127 then
      some (0x00#8 ++ BitVec.ofInt 8 e ++ BitVec.ofInt 8 s ++ 0x03#8)
    else none
  | .idct .mcoef => some 0x00000004#32
  | .idct .coef => some 0x00000104#32

/-- `cmd C`: a write of C's word to CMD (R101). -/
def cmdTurn (w : Word) : Turn := .write Loc.cmd.offset w

/-- `poll`, as the schedule of a command that completes after `busyReads` reads of STATUS that still see BUSY = 1:
those reads, the completion, and the read that sees BUSY = 0 (R101, R223). -/
def pollTurns (busyReads : Nat) : List Turn :=
  List.replicate busyReads (.read Loc.status.offset) ++ [.engine, .read Loc.status.offset]

/-- `cmd C ; poll`; `none` where C is an assembly error (R102). -/
def commandTurns (busyReads : Nat) (a : Asm) : Option (List Turn) :=
  (assemble a).map fun w => cmdTurn w :: pollTurns busyReads

/-- `TABLES q` (R102). -/
def tablesTurns (busyReads : Nat) (q : Int) : Option (List Turn) := commandTurns busyReads (.buildqt q)

/-- `FORWARD` and `FORWARD.PRE` (R102). -/
def forwardTurns (busyReads : Nat) (mode : PixelMode) : Option (List Turn) := commandTurns busyReads (.fdct mode)

/-- `RECON s, e` (R102). -/
def reconTurns (busyReads : Nat) (s e : Int) : Option (List Turn) :=
  match commandTurns busyReads (.mask s e), commandTurns busyReads (.idct .mcoef) with
  | some m, some i => some (m ++ i)
  | _, _ => none

/-- `PHASE n` is `RECON 0, n` (R102). -/
def phaseTurns (busyReads : Nat) (n : Int) : Option (List Turn) := reconTurns busyReads 0 n

/-- `INVERSE` (R102). -/
def inverseTurns (busyReads : Nat) : Option (List Turn) := commandTurns busyReads (.idct .coef)

/-- `LDBLK v0, …, v63`: 64 writes from 0x100 (R102). -/
def ldblkTurns (v : Vector Word 64) : List Turn :=
  (List.finRange 64).map fun k => .write (Loc.pixIn k).offset v[k]

/-- `RDBLK`: 64 reads from 0x400 (R102). -/
def rdblkTurns : List Turn := (List.finRange 64).map fun k => .read (Loc.pixOut k).offset

/-- `ACKERR` (R102, R248). -/
def ackerrTurn : Turn := .write Loc.status.offset 0x0000000C#32

/-- `ACKDONE` (R102). -/
def ackdoneTurn : Turn := .write Loc.status.offset 0x00000002#32

/-- `SOFTRESET` (R102, R271). -/
def softresetTurn : Turn := .write Loc.ctrl.offset 0x80000000#32

end Sys2Proof.Machine
end

