-- ==== Sys2Proof/Safety.lean ====
section
/-! DEFINITION. What claims call a safe run, the precondition of each command, and the machine's invariant. -/

namespace Sys2Proof.Machine

/-- The outcome is a next state. -/
def isNext (o : Host.Outcome State Fault Refusal) : Bool :=
  match o with
  | .next _ => true
  | .fault _ => false
  | .refused _ => false

/-- A run of `n` steps that stops at no fault and no refusal. -/
def SafeRun (n : Nat) (s : State) : Prop := isNext (Sys2Proof.core.run n s) = true

/-- What a command needs to complete with a defined result: TV for FDCT and IDCT (R225), and every element it
consumes valid (R275). -/
def ready (i : Instr) (s : State) : Bool :=
  match i with
  | .nop => true
  | .buildqt _ => true
  | .fdct _ => s.pixIn.allValid && s.status.tv
  | .mask _ _ => s.coef.allValid
  | .idct .mcoef => s.mcoef.allValid && s.status.tv
  | .idct .coef => s.coef.allValid && s.status.tv

/-- A command is running. -/
def Pend.isRun : Pend → Bool
  | .idle => false
  | .run _ => true

/-- QT, FT, QUALITY and SF are those of one quality in [1,100] (R121 to R124). -/
structure TablesBuilt (s : State) : Prop where
  qualityLow : 1 ≤ s.quality.toNat
  qualityHigh : s.quality.toNat ≤ 100
  scale : s.sf = BitVec.ofNat 13 (scaleFactor s.quality.toNat)
  inverseTable : s.qt = buildQt (scaleFactor s.quality.toNat)
  forwardTable : s.ft = buildFt s.qt

/-- What every state a run reaches satisfies: BUSY and PEND agree (R41); PEND holds an accepted word (R221); DONE is 0
while a command runs (R226); ERR and ERRCODE agree (R38, R240); LASTOP is a legal opcode (R38, R96); PHASE holds
clamped bounds (R34); TV says whether the tables stand (R32, R33, R38, R124). -/
structure Inv (s : State) : Prop where
  busyIsRun : s.status.busy = s.pend.isRun
  pendAccepted : ∀ w, s.pend = .run w →
    ∃ i, decode w = .command i ∧ (needsTables i = true → s.status.tv = true) ∧ s.status.lastop = opcField w ∧
      s.status.done = false
  errHasCode : s.status.err = true ↔ s.status.errcode ≠ .none
  lastopLegal : s.status.lastop.toNat ≤ 4
  phaseStart : s.phase.start.toNat ≤ 64
  phaseStop : s.phase.stop.toNat ≤ 64
  tablesWhenTv : s.status.tv = true → TablesBuilt s
  nothingWithoutTv : s.status.tv = false → s.quality = 0#7 ∧ s.sf = 0#13

/-- The bus error of a host write at byte offset `n`, from R62's ranges and R64's order, not from the model's map. -/
def writeCheck (n : Nat) (busy : Bool) : Option ErrCode :=
  if n % 4 ≠ 0 then some .busMisaligned
  else if (0x020 ≤ n ∧ n < 0x100) ∨ 0xB40 ≤ n then some .busUnmapped
  else if n < 0x004 ∨ (0x010 ≤ n ∧ n < 0x020) ∨ 0x400 ≤ n then some .busReadonly
  else if busy = true ∧ (n = 0x00C ∨ (0x100 ≤ n ∧ n < 0x400)) then some .busBusy
  else none

/-- The bus error of a host read at byte offset `n` (R62, R64). -/
def readCheck (n : Nat) : Option ErrCode :=
  if n % 4 ≠ 0 then some .busMisaligned
  else if (0x020 ≤ n ∧ n < 0x100) ∨ 0xB40 ≤ n then some .busUnmapped
  else none

/-- R243's record of an error, field by field, and nothing else changed. -/
def withError (code : ErrCode) (info : Word) (s : State) : State :=
  { s with
    status := { s.status with
      err := true
      errcode := if s.status.err then s.status.errcode else code
      eovf := s.status.eovf || s.status.err }
    errinfo := if s.status.err then s.errinfo else info }

/-- The state of a completed command: `s` with PEND Idle, BUSY 0, DONE 1 (R224). -/
def completed (s : State) : State :=
  { s with pend := .idle, status := { s.status with busy := false, done := true } }

/-- What commands compute is the same in two states (R225's outputs and inputs). -/
def SameData (s t : State) : Prop :=
  s.pixIn = t.pixIn ∧ s.coef = t.coef ∧ s.mcoef = t.mcoef ∧ s.pixOut = t.pixOut ∧ s.qt = t.qt ∧ s.ft = t.ft ∧
    s.w = t.w ∧ s.quality = t.quality ∧ s.sf = t.sf ∧ s.phase = t.phase ∧ s.status.tv = t.status.tv

/-- A host access that is no soft reset: a read, or a write that does not write 1 to CTRL bit 31 (R222, R271). -/
def harmless : Turn → Bool
  | .read _ => true
  | .write a d => !(a == 0x004#12 && d.getLsbD 31)
  | .engine => false
  | .reset => false

/-- `r` is the exact value `v` rounded to the nearest binary64 value, ties to even (R11); and an infinity of `v`'s sign
exactly when |v| is at least the largest finite value and half an ulp, which is the model's choice and IEEE-754's, not
R11's (PRESUMED, log 10). -/
def CorrectlyRounded (r : F64) (v : Rat) : Prop :=
  if |v| < 2 ^ 1024 - 2 ^ 970 then
    fIsFinite r = true ∧
      ∀ z : F64, fIsFinite z = true →
        |fValue r - v| ≤ |fValue z - v| ∧ (|fValue r - v| = |fValue z - v| → fValue z = fValue r ∨ fFrac r % 2 = 0)
  else fIsInf r = true ∧ (fSign r = true ↔ v < 0)

/-- The values of a halving pair `(a + b + 1) >> 1` and `(a - b + 1) >> 1`, with their pre-shift sums (R188, R190). -/
def halvingNodes (a b : Int) : List Int :=
  [a + b, a + b + 1, asr (a + b + 1) 1, a - b, a - b + 1, asr (a - b + 1) 1]

/-- The values of a rotation `(a * p + b * q + r) >> n` and `(a * q - b * p + r) >> n`, with their products and pre-shift
sums (R188, R190). -/
def rotationNodes (a b p q r : Int) (n : Nat) : List Int :=
  [a * p, b * q, a * p + b * q, a * p + b * q + r, asr (a * p + b * q + r) n,
   a * q, b * p, a * q - b * p, a * q - b * p + r, asr (a * q - b * p + r) n]

/-- The values of a scaling `(m * a + r) >> n`, with its product and pre-shift sum (R188, R190, R192). -/
def scalingNodes (m a r : Int) (n : Nat) : List Int := [m * a, m * a + r, asr (m * a + r) n]

/-- Every value, product and pre-shift sum of stages 2 and 1, the eight outputs last (R188, R190). The arguments are
v0..v7 after stage 3. -/
def tailNodes (v0 v1 v2 v3 v4 v5 v6 v7 : Int) : List Int :=
  let w0 := asr (v0 + v3 + 1) 1
  let w3 := asr (v0 - v3 + 1) 1
  let w1 := asr (v1 + v2 + 1) 1
  let w2 := asr (v1 - v2 + 1) 1
  let w7 := asr (v4 * 2276 + v7 * 3406 + 2048) 12
  let w4 := asr (v4 * 3406 - v7 * 2276 + 2048) 12
  let w6 := asr (v5 * 799 + v6 * 4017 + 2048) 12
  let w5 := asr (v5 * 4017 - v6 * 799 + 2048) 12
  halvingNodes v0 v3 ++ halvingNodes v1 v2 ++
    rotationNodes v4 v7 2276 3406 2048 12 ++ rotationNodes v5 v6 799 4017 2048 12 ++
    [w0 + w7, w1 + w6, w2 + w5, w3 + w4, w3 - w4, w2 - w5, w1 - w6, w0 - w7]

/-- Every value, product and pre-shift sum of stages 4 and 3, then those of the tail, written from the pseudocode of R188
and R190: `r` and `n` are the rounding constant and the shift of stage 4 and of the stage-3 rotation, and `x3` and `x5`
enter as `v5` and `v6`. -/
def butterflyNodes (x : Vector Int 8) (v5 v6 r : Int) (n : Nat) : List Int :=
  let a0 := asr (5793 * x[0] + r) n
  let a1 := asr (5793 * x[4] + r) n
  let a4 := asr (2896 * (x[1] - x[7]) + r) n
  let a7 := asr (2896 * (x[1] + x[7]) + r) n
  x.toList ++ [v5, v6, x[1] - x[7], x[1] + x[7]] ++
    scalingNodes 5793 x[0] r n ++ scalingNodes 5793 x[4] r n ++
    scalingNodes 2896 (x[1] - x[7]) r n ++ scalingNodes 2896 (x[1] + x[7]) r n ++
    halvingNodes a0 a1 ++ rotationNodes x[2] x[6] 3784 1567 r n ++ halvingNodes a4 v6 ++ halvingNodes a7 v5 ++
    tailNodes (asr (a0 + a1 + 1) 1) (asr (a0 - a1 + 1) 1)
      (asr (x[2] * 1567 - x[6] * 3784 + r) n) (asr (x[2] * 3784 + x[6] * 1567 + r) n)
      (asr (a4 + v6 + 1) 1) (asr (a7 - v5 + 1) 1) (asr (a4 - v6 + 1) 1) (asr (a7 + v5 + 1) 1)

/-- Every value and every pre-shift sum of the row pass on one row, fast path first, outputs last (R188, R192). -/
def rowNodes (p : Vector Int 8) : List Int :=
  scalingNodes 5793 p[0] 896 10 ++ butterflyNodes p (p[3] * 16) (p[5] * 16) 128 8

/-- Every value and every pre-shift sum of the column pass on one column, fast path first, outputs last (R190, R192). -/
def colNodes (x : Vector Int 8) : List Int :=
  scalingNodes 5793 x[0] 14336 14 ++ butterflyNodes x x[3] x[5] 2048 12

end Sys2Proof.Machine
end

