-- ==== Sys2Proof/Certificates/Slice0/Obligations.lean ====
section
/-! DEFINITION. The statements for the provers, from the numbered rules of spec/, family by family. -/

open Sys2Proof Sys2Proof.Machine

/-! ## Encoding (spec/30_encoding.md) -/

/-- The encoding examples of R103, word for word, and the one word of NOP (R100). -/
def Obligations.EncodingExamples : Prop :=
  assemble (.buildqt 50) = some 0x00320001#32 ∧ assemble (.buildqt 100) = some 0x00640001#32 ∧
  assemble (.buildqt (-5)) = some 0xFFFB0001#32 ∧ decode 0xFFFB0001#32 = .command (.buildqt 1) ∧
  assemble (.buildqt 1000) = some 0x03E80001#32 ∧ decode 0x03E80001#32 = .command (.buildqt 100) ∧
  assemble (.mask 0 1) = some 0x00010003#32 ∧ assemble (.mask 0 64) = some 0x00400003#32 ∧
  assemble (.mask 5 6) = some 0x00060503#32 ∧
  assemble (.mask (-3) 100) = some 0x0064FD03#32 ∧ decode 0x0064FD03#32 = .command (.mask 0 64) ∧
  assemble (.fdct .pre) = some 0x00000102#32 ∧ decode 0x00000102#32 = .command (.fdct .pre) ∧
  assemble (.idct .coef) = some 0x00000104#32 ∧ decode 0x00000104#32 = .command (.idct .coef) ∧
  decode 0x00000005#32 = .reject .illegalOpc ∧ decode 0x00000012#32 = .reject .rsvdBits ∧
  assemble .nop = some 0x00000000#32 ∧ decode 0x00000000#32 = .command .nop

/-- Decoding the canonical word of a well-formed command gives the command back (R99, R100). -/
def Obligations.DecodeEncodeRoundTrip : Prop :=
  ∀ i : Instr, i.WellFormed → decode (encode i) = .command i

/-- BUILDQT's quality field is signed and clamped to [1,100] (R92); MASK's rank fields are signed and clamped to [0,64], with
no relation between them required (R93). -/
def Obligations.OperandFieldsAreClamped : Prop :=
  (∀ f : BitVec 16, decode (f ++ 0x0001#16) =
    .command (.buildqt (if f.toInt < 1 then 1 else if 100 < f.toInt then 100 else f.toInt.toNat))) ∧
  (∀ s e : BitVec 8, decode (0x00#8 ++ e ++ s ++ 0x03#8) =
    .command (.mask (if s.toInt < 0 then 0 else if 64 < s.toInt then 64 else s.toInt.toNat)
      (if e.toInt < 0 then 0 else if 64 < e.toInt then 64 else e.toInt.toNat)))

/-- A word with a legal opcode is a command exactly when no reserved bit is set, and is rejected by name otherwise
(R97); a word with another opcode is rejected as an illegal opcode (R96). -/
def Obligations.ReservedBitsDecideLegality : Prop :=
  ∀ w opcMask : Word,
    ((w &&& 0xF#32 = 0#32 ∧ opcMask = 0xFFFFFFF0#32) ∨ (w &&& 0xF#32 = 1#32 ∧ opcMask = 0x0000FFF0#32) ∨
     (w &&& 0xF#32 = 2#32 ∧ opcMask = 0xFFFFFEF0#32) ∨ (w &&& 0xF#32 = 3#32 ∧ opcMask = 0xFF0000F0#32) ∨
     (w &&& 0xF#32 = 4#32 ∧ opcMask = 0xFFFFFEF0#32) →
      (w &&& opcMask = 0#32 → ∃ i, decode w = .command i) ∧
      (w &&& opcMask ≠ 0#32 → decode w = .reject .rsvdBits)) ∧
    (5 ≤ (w &&& 0xF#32).toNat → decode w = .reject .illegalOpc)

/-- The assembler wraps no operand: outside its field it is an assembly error, inside it the word decodes to the clamped
command (R92, R93, R100). -/
def Obligations.AssembledOperandsAreNotWrapped : Prop :=
  (∀ q : Int, (q < -32768 ∨ 32767 < q → assemble (.buildqt q) = none) ∧
    (-32768 ≤ q ∧ q ≤ 32767 → ∃ w, assemble (.buildqt q) = some w ∧
      decode w = .command (.buildqt (clampInt q 1 100).toNat))) ∧
  (∀ s e : Int, (s < -128 ∨ 127 < s ∨ e < -128 ∨ 127 < e → assemble (.mask s e) = none) ∧
    (-128 ≤ s ∧ s ≤ 127 ∧ -128 ≤ e ∧ e ≤ 127 → ∃ w, assemble (.mask s e) = some w ∧
      decode w = .command (.mask (clampInt s 0 64).toNat (clampInt e 0 64).toNat)))

/-! ## The step and the lifecycle of a command (spec/44_control.md) -/

/-- A step takes one turn (R232; the schedule is the model's, log 1). When the engine moves (nothing scheduled, or its turn is
next) and PEND holds a word that decodes to `i`, the step is `exec i` with the turn taken off the schedule (R223, R224). A
host turn or a reset turn is that event. With nothing to run the engine does nothing (R272). -/
def Obligations.StepTakesOneTurn : Prop :=
  ∀ (s : State) (rest : List Turn),
    (∀ (w : Word) (i : Instr), ((s.schedule = [] ∧ rest = []) ∨ s.schedule = .engine :: rest) →
      s.pend = .run w → decode w = .command i → step s = exec i { s with schedule := rest }) ∧
    (∀ a, s.schedule = .read a :: rest → step s = hostRead a { s with schedule := rest }) ∧
    (∀ a d, s.schedule = .write a d :: rest → step s = .next (hostWrite a d { s with schedule := rest })) ∧
    (s.schedule = .reset :: rest → step s = .next (resetState { s with schedule := rest })) ∧
    (((s.schedule = [] ∧ rest = []) ∨ s.schedule = .engine :: rest) → s.pend = .idle →
      step s = .next { s with schedule := rest })

/-- Acceptance, as part of a CMD write that passed the bus checks: a legal command whose tables exist is captured, an
illegal word or a missing table changes the error record only (R221). -/
def Obligations.AcceptanceOfACommandWord : Prop :=
  ∀ (s : State) (w : Word), s.status.busy = false →
    (∀ i, decode w = .command i →
      (((∃ m, i = .fdct m) ∨ (∃ c, i = .idct c)) → s.status.tv = true) →
      hostWrite 0x00C#12 w s = { s with
        pend := .run w
        status := { s.status with busy := true, done := false, lastop := w.extractLsb' 0 4 }
        reply := some (.write .okay) }) ∧
    (decode w = .reject .illegalOpc →
      hostWrite 0x00C#12 w s = { withError .cmdIllegalOpc w s with reply := some (.write .okay) }) ∧
    (decode w = .reject .rsvdBits →
      hostWrite 0x00C#12 w s = { withError .cmdRsvdBits w s with reply := some (.write .okay) }) ∧
    (∀ i, decode w = .command i → ((∃ m, i = .fdct m) ∨ (∃ c, i = .idct c)) → s.status.tv = false →
      hostWrite 0x00C#12 w s = { withError .cmdNoTable w s with reply := some (.write .okay) })

/-- NOP completes in every state and changes only BUSY, DONE and PEND; its only word is 0 (R230). -/
def Obligations.NopCompletes : Prop :=
  (∀ s : State, exec .nop s =
    .next { s with pend := .idle, status := { s.status with busy := false, done := true } }) ∧
  (∀ w : Word, decode w = .command .nop ↔ w = 0#32)

/-- Every command completes in exactly the states that meet its preconditions, and faults UninitRead in the others; what
it writes is valid afterwards; and no step but a reset makes a valid element invalid (R275, R252). R252 gives that fault for
an element that is not valid. For FDCT and IDCT with TV = 0, which R252 says cannot happen, the fault is the model's own
choice (log 9, DEDUCED). -/
def Obligations.CommandsCompleteExactlyWhenReady : Prop :=
  (∀ (i : Instr) (s : State), (ready i s = true → ∃ t, exec i s = .next t) ∧
    (ready i s = false → exec i s = .fault .uninitRead)) ∧
  (∀ (m : PixelMode) (s t : State), exec (.fdct m) s = .next t → t.coef.allValid = true) ∧
  (∀ (a b : Nat) (s t : State), exec (.mask a b) s = .next t → t.mcoef.allValid = true) ∧
  (∀ (c : CoefSource) (s t : State), exec (.idct c) s = .next t → t.pixOut.allValid = true) ∧
  (∀ (s t : State) (k : Fin 64), step s = .next t →
    (∀ rest, s.schedule ≠ .reset :: rest) →
    (∀ d rest, d.getLsbD 31 = true → s.schedule ≠ .write 0x004#12 d :: rest) →
    (s.pixIn.valid[k] = true → t.pixIn.valid[k] = true) ∧ (s.coef.valid[k] = true → t.coef.valid[k] = true) ∧
    (s.mcoef.valid[k] = true → t.mcoef.valid[k] = true) ∧ (s.pixOut.valid[k] = true → t.pixOut.valid[k] = true))

/-- The frame of every command: a completion ends with PEND Idle, BUSY 0, DONE 1, keeps the error record, LASTOP, CTRL and
PIX_IN, and writes nothing outside the command's own row of R225's table. -/
def Obligations.CompletionFrame : Prop :=
  ∀ (i : Instr) (s t : State), exec i s = .next t →
    t.pend = .idle ∧ t.status.busy = false ∧ t.status.done = true ∧
    t.status.err = s.status.err ∧ t.status.eovf = s.status.eovf ∧ t.status.errcode = s.status.errcode ∧
    t.errinfo = s.errinfo ∧ t.status.lastop = s.status.lastop ∧ t.ctrl = s.ctrl ∧ t.pixIn = s.pixIn ∧
    t.schedule = s.schedule ∧ t.reply = s.reply ∧ t.draws = s.draws ∧
    ((∀ q, i ≠ .buildqt q) →
      t.qt = s.qt ∧ t.ft = s.ft ∧ t.quality = s.quality ∧ t.sf = s.sf ∧ t.status.tv = s.status.tv) ∧
    ((∀ m, i ≠ .fdct m) → t.coef = s.coef) ∧
    ((∀ a b, i ≠ .mask a b) → t.mcoef = s.mcoef ∧ t.phase = s.phase) ∧
    ((∀ c, i ≠ .idct c) → t.pixOut = s.pixOut ∧ t.w = s.w)

/-- Every command is a function of the inputs R225 lists: states that agree on them give the same outputs (R16). -/
def Obligations.CommandsArePureFunctions : Prop :=
  ∀ s s' t t' : State,
    (∀ q, exec (.buildqt q) s = .next t → exec (.buildqt q) s' = .next t' →
      t.qt = t'.qt ∧ t.ft = t'.ft ∧ t.quality = t'.quality ∧ t.sf = t'.sf ∧ t.status.tv = t'.status.tv) ∧
    (∀ m, s.pixIn.data = s'.pixIn.data → s.ft = s'.ft →
      exec (.fdct m) s = .next t → exec (.fdct m) s' = .next t' → t.coef = t'.coef) ∧
    (∀ a b, s.coef.data = s'.coef.data →
      exec (.mask a b) s = .next t → exec (.mask a b) s' = .next t' → t.mcoef = t'.mcoef ∧ t.phase = t'.phase) ∧
    (s.mcoef.data = s'.mcoef.data → s.qt = s'.qt →
      exec (.idct .mcoef) s = .next t → exec (.idct .mcoef) s' = .next t' → t.pixOut = t'.pixOut ∧ t.w = t'.w) ∧
    (s.coef.data = s'.coef.data → s.qt = s'.qt →
      exec (.idct .coef) s = .next t → exec (.idct .coef) s' = .next t' → t.pixOut = t'.pixOut ∧ t.w = t'.w)

/-- DONE rises only by a completion: the engine's turn, on a running command, that leaves PEND Idle and BUSY 0 (R226). -/
def Obligations.DoneRisesOnlyByCompletion : Prop :=
  ∀ s t : State, step s = .next t → t.status.done = true → s.status.done = true ∨
    ((s.schedule = [] ∨ ∃ rest, s.schedule = .engine :: rest) ∧
      s.pend.isRun = true ∧ t.pend = .idle ∧ t.status.busy = false)

/-- While a command runs, no host access except a soft reset changes an operand, a table, PEND, BUSY or LASTOP (R222). -/
def Obligations.OperandsAreFrozenWhileBusy : Prop :=
  ∀ (s t : State) (x : Turn) (rest : List Turn), s.status.busy = true → harmless x = true → s.schedule = x :: rest →
    step s = .next t →
      SameData s t ∧ t.pend = s.pend ∧ t.status.busy = true ∧ t.status.lastop = s.status.lastop

/-- Latency is invisible in what a command computes: after any harmless host accesses, the completion leaves the data it
leaves when it comes at once, and it comes whenever that one does (R222, R287, R288). -/
def Obligations.ResultIsIndependentOfLatency : Prop :=
  ∀ (s t₀ : State) (turns : List Turn), s.status.busy = true → s.pend.isRun = true →
    (∀ x ∈ turns, harmless x = true) →
    step { s with schedule := [.engine] } = .next t₀ →
    ∃ t, Sys2Proof.core.run (turns.length + 1) { s with schedule := turns ++ [.engine] } = .next t ∧
      SameData t₀ t ∧ t.pend = .idle ∧ t.status.busy = false ∧ t.status.done = true

/-! ## BUILDQT (spec/40_tables.md) -/

/-- The ROM contents hang together: the zig-zag maps are inverse bijections (R114), generated by the diagonal walk of
R112, and BASE_ZZ is Table K.1 in zig-zag order with entries in [10,121] (R115). -/
def Obligations.RomsAreConsistent : Prop :=
  (∀ r : Fin 64, natToZz (zzToNat r) = r) ∧ (∀ k : Fin 64, zzToNat (natToZz k) = k) ∧
  (List.finRange 64).map (fun r => (zzToNat r).val) =
    (List.range 15).flatMap (fun d =>
      ((if d % 2 = 0 then (List.range 8).reverse else List.range 8).filter
        (fun row => decide (row ≤ d ∧ d - row < 8))).map (fun row => 8 * row + (d - row))) ∧
  (∀ r : Fin 64, baseZz r = k1 (zzToNat r)) ∧
  (∀ r : Fin 64, 10 ≤ (baseZz r).toNat ∧ (baseZz r).toNat ≤ 121)

/-- BUILDQT q completes in every state; it writes QT (by rank, R122), FT from QT at the same position (R123), QUALITY, SF
and TV (R124), and nothing else but PEND, BUSY and DONE. -/
def Obligations.BuildqtResult : Prop :=
  ∀ (q : Nat) (s : State), 1 ≤ q → q ≤ 100 →
    ∃ (sf : Nat) (qt : Vector Byte 64) (ft : Vector F64 64),
      exec (.buildqt q) s = .next { s with
        qt := qt, ft := ft, quality := BitVec.ofNat 7 q, sf := BitVec.ofNat 13 sf, pend := .idle,
        status := { s.status with tv := true, busy := false, done := true } } ∧
      (q < 50 → sf = 5000 / q) ∧ (50 ≤ q → sf = 200 - q * 2) ∧
      (∀ r : Fin 64, ((qt[zzToNat r]).toNat : Int) = clampInt ((((baseZz r).toNat * sf + 50) / 100 : Nat) : Int) 1 255) ∧
      (∀ k : Fin 64, ((qt[k]).toNat : Int) = clampInt ((((k1 k).toNat * sf + 50) / 100 : Nat) : Int) 1 255) ∧
      (∀ row col : Fin 8, ft[8 * row.val + col.val] =
        fDiv fOne (fMul (fMul (fMul (fOfInt (qt[8 * row.val + col.val]).toNat) (aan row)) (aan col)) fEight))

/-- The scale factor that BUILDQT leaves in SF: its two formulas, its ranges, its neutral and zero points, and that it does
not increase with q (R121). -/
def Obligations.ScaleFactorOfQuality : Prop :=
  ∀ (q q' : Nat) (s s' t t' : State), 1 ≤ q → q ≤ q' → q' ≤ 100 →
    exec (.buildqt q) s = .next t → exec (.buildqt q') s' = .next t' →
    (q < 50 → t.sf.toNat = 5000 / q ∧ 102 ≤ t.sf.toNat ∧ t.sf.toNat ≤ 5000) ∧
    (50 ≤ q → t.sf.toNat = 200 - q * 2 ∧ t.sf.toNat ≤ 100) ∧
    (q = 50 → t.sf.toNat = 100) ∧ (q = 100 → t.sf.toNat = 0) ∧ t'.sf.toNat ≤ t.sf.toNat

/-- QT entries are in [1,255], do not increase with q, and are strictly larger at q = 10 than at q = 90 (R125). -/
def Obligations.StepSizesOfQuality : Prop :=
  (∀ (q q' : Nat) (s s' t t' : State) (k : Fin 64), 1 ≤ q → q ≤ q' → q' ≤ 100 →
    exec (.buildqt q) s = .next t → exec (.buildqt q') s' = .next t' →
    1 ≤ (t.qt[k]).toNat ∧ (t.qt[k]).toNat ≤ 255 ∧ (t'.qt[k]).toNat ≤ (t.qt[k]).toNat) ∧
  (∀ (s s' t t' : State) (k : Fin 64), exec (.buildqt 10) s = .next t → exec (.buildqt 90) s' = .next t' →
    (t'.qt[k]).toNat < (t.qt[k]).toNat)

/-- Every forward-table entry is a positive, finite, normal binary64 value, for every step size in [1,255] and every
position (R123). -/
def Obligations.ForwardEntriesAreNormal : Prop :=
  ∀ (step : Byte) (row col : Fin 8), step ≠ 0#8 →
    fSign (forwardEntry step row col) = false ∧ 1 ≤ fExp (forwardEntry step row col) ∧
      fExp (forwardEntry step row col) ≤ 2046

/-! ## Binary64 arithmetic (spec/00_scope.md R11) -/

/-- fadd and fsub round the exact result to the nearest binary64 value, ties to even (R11). That a result beyond the largest
finite value is an infinity is the model's choice (log 10, PRESUMED), not R11's. -/
def Obligations.AdditionIsCorrectlyRounded : Prop :=
  ∀ x y : F64, fIsFinite x = true → fIsFinite y = true →
    CorrectlyRounded (fAdd x y) (fValue x + fValue y) ∧ CorrectlyRounded (fSub x y) (fValue x - fValue y)

/-- fmul and fdiv round the exact result to the nearest binary64 value, ties to even (R11). That a result beyond the largest
finite value is an infinity is the model's choice (log 10, PRESUMED), not R11's. Division by zero, which no run reaches, is
left out. -/
def Obligations.MultiplicationIsCorrectlyRounded : Prop :=
  ∀ x y : F64, fIsFinite x = true → fIsFinite y = true →
    CorrectlyRounded (fMul x y) (fValue x * fValue y) ∧
    (fValue y ≠ 0 → CorrectlyRounded (fDiv x y) (fValue x / fValue y))

/-- f64(n) is exact below 2^53 in magnitude, and trunc rounds toward zero (R11). -/
def Obligations.IntegerConversionsAreExact : Prop :=
  (∀ n : Int, n.natAbs < 2 ^ 53 → fIsFinite (fOfInt n) = true ∧ fValue (fOfInt n) = (n : Rat)) ∧
  (∀ x : F64, fIsFinite x = true →
    (0 ≤ fValue x → fTrunc x = ⌊fValue x⌋) ∧ (fValue x ≤ 0 → fTrunc x = ⌈fValue x⌉))

/-- The AAN vector and the butterfly's constants are the binary64 values nearest their decimal literals (R113, R141). -/
def Obligations.ConstantsAreNearestTheirLiterals : Prop :=
  CorrectlyRounded (aan 0) 1 ∧ CorrectlyRounded (aan 1) (1387039845 / 1000000000) ∧
  CorrectlyRounded (aan 2) (1306562965 / 1000000000) ∧ CorrectlyRounded (aan 3) (1175875602 / 1000000000) ∧
  CorrectlyRounded (aan 4) 1 ∧ CorrectlyRounded (aan 5) (785694958 / 1000000000) ∧
  CorrectlyRounded (aan 6) (541196100 / 1000000000) ∧ CorrectlyRounded (aan 7) (275899379 / 1000000000) ∧
  CorrectlyRounded kC4 (707106781 / 1000000000) ∧ CorrectlyRounded kC6 (382683433 / 1000000000) ∧
  kC2mC6 = aan 6 ∧ kC2pC6 = aan 2

/-- The corner cases of RoundHalfAway, the artefact at 0x3FDFFFFFFFFFFFFF among them (R148). -/
def Obligations.RoundHalfAwayCorners : Prop :=
  roundHalfAway 0x0000000000000000#64 = 0 ∧ roundHalfAway 0x8000000000000000#64 = 0 ∧
  roundHalfAway 0x4004000000000000#64 = 3 ∧ roundHalfAway 0xC004000000000000#64 = -3 ∧
  roundHalfAway 0x3FF7FFFFFFFFFFFF#64 = 1 ∧ roundHalfAway 0x3FDFFFFFFFFFFFFF#64 = 1 ∧
  roundHalfAway 0xBFDFFFFFFFFFFFFF#64 = -1 ∧
  (∀ x : F64, roundHalfAway x = if fPos x = true then fTrunc (fAdd x fHalf) else fTrunc (fSub x fHalf))

/-! ## FDCT (spec/41_forward.md) -/

/-- FDCT completes when the tables are built and every PIX_IN element is valid; it writes COEF, computed by the row pass,
the column pass and the quantizer, and nothing else but PEND, BUSY and DONE (R145 to R147). That a rounded product outside
32 bits, which no table of BUILDQT gives, is stored as its residue is the model's choice (log 10, PRESUMED). -/
def Obligations.FdctResult : Prop :=
  ∀ (m : PixelMode) (s : State), s.pixIn.allValid = true → s.status.tv = true →
    ∃ (rows cols : Vector F64 64) (out : Vector Word 64),
      exec (.fdct m) s = .next { s with
        coef := ⟨out, Vector.replicate 64 true⟩, pend := .idle,
        status := { s.status with busy := false, done := true } } ∧
      (∀ i j : Fin 8, rows[8 * i.val + j.val] =
        (fdct8 (Vector.ofFn fun (n : Fin 8) => fOfInt (levelShift (s.pixIn.data[8 * i.val + n.val]) m)))[j]) ∧
      (∀ c j : Fin 8, cols[8 * j.val + c.val] =
        (fdct8 (Vector.ofFn fun (n : Fin 8) => rows[8 * n.val + c.val]))[j]) ∧
      (∀ k : Fin 64, out[k] = BitVec.ofInt 32 (roundHalfAway (fMul cols[k] s.ft[k])))

/-- The level shift gives a sample in [-128,127] either way, and FDCT.PRE on the bytes p XOR 0x80 computes the COEF that
FDCT computes on the bytes p (R142, R143). -/
def Obligations.PreShiftedInputIsEquivalent : Prop :=
  (∀ b : Byte, levelShift b .raw = (b.toNat : Int) - 128 ∧ levelShift b .pre = b.toInt ∧
    -128 ≤ levelShift b .raw ∧ levelShift b .raw ≤ 127 ∧ -128 ≤ levelShift b .pre ∧ levelShift b .pre ≤ 127) ∧
  (∀ s s' : State, s.pixIn.allValid = true → s'.pixIn.allValid = true → s.status.tv = true → s'.status.tv = true →
    s'.ft = s.ft → (∀ k : Fin 64, s'.pixIn.data[k] = s.pixIn.data[k] ^^^ 0x80#8) →
    ∃ t t', exec (.fdct .raw) s = .next t ∧ exec (.fdct .pre) s' = .next t' ∧ t'.coef = t.coef)

/-- A flat block has no non-zero AC coefficient, and its DC output is exactly 64 times the sample (R150), for every
forward table of finite entries. That a quantized DC outside 32 bits, which no table of BUILDQT gives, is stored as its residue
is the model's choice (log 10, PRESUMED). -/
def Obligations.FlatBlockHasOnlyDc : Prop :=
  ∀ (m : PixelMode) (s : State) (x : Int), s.pixIn.allValid = true → s.status.tv = true →
    (∀ k : Fin 64, fIsFinite s.ft[k] = true) → (∀ k : Fin 64, levelShift s.pixIn.data[k] m = x) →
    ∃ t, exec (.fdct m) s = .next t ∧ (∀ k : Fin 64, k ≠ 0 → t.coef.data[k] = 0#32) ∧
      t.coef.data[(0 : Fin 64)] = BitVec.ofInt 32 (roundHalfAway (fMul (fOfInt (64 * x)) s.ft[(0 : Fin 64)]))

/-- The forward arithmetic never overflows: with tables that BUILDQT built, every product is finite and every coefficient
is stored without wrapping, far inside 32 bits. The bound is looser than R149's 1025. -/
def Obligations.ForwardArithmeticNeverOverflows : Prop :=
  ∀ (m : PixelMode) (s : State), s.pixIn.allValid = true → s.status.tv = true → TablesBuilt s →
    ∃ t, exec (.fdct m) s = .next t ∧ ∀ k : Fin 64,
      fIsFinite (fMul (fdctBlock (samples m s.pixIn.data))[k] s.ft[k]) = true ∧
      (t.coef.data[k]).toInt = roundHalfAway (fMul (fdctBlock (samples m s.pixIn.data))[k] s.ft[k]) ∧
      |(t.coef.data[k]).toInt| ≤ 1048576

/-! ## MASK (spec/42_mask.md) -/

/-- MASK completes when every COEF element is valid; it writes MCOEF and PHASE, leaves COEF as it was, and changes nothing
else but PEND, BUSY and DONE (R170, R172, R173). -/
def Obligations.MaskResult : Prop :=
  ∀ (start stop : Nat) (s : State), start ≤ 64 → stop ≤ 64 → s.coef.allValid = true →
    ∃ out : Vector Word 64,
      exec (.mask start stop) s = .next { s with
        mcoef := ⟨out, Vector.replicate 64 true⟩,
        phase := { start := BitVec.ofNat 7 start, stop := BitVec.ofNat 7 stop },
        pend := .idle, status := { s.status with busy := false, done := true } } ∧
      (∀ k : Fin 64, out[k] =
        if start ≤ (natToZz k).val ∧ (natToZz k).val < stop then s.coef.data[k] else 0#32) ∧
      ((Phase.mk (BitVec.ofNat 7 start) (BitVec.ofNat 7 stop)).word).toNat = stop * 256 + start

/-- The kept set, in natural order, is the ranks from start to end through ZZ_TO_NAT, and has max(0, end - start)
elements (R171). -/
def Obligations.MaskKeepsTheRanks : Prop :=
  ∀ (start stop : Nat) (s t : State), start ≤ 64 → stop ≤ 64 → exec (.mask start stop) s = .next t →
    (∀ r : Fin 64, start ≤ r.val → r.val < stop → t.mcoef.data[zzToNat r] = s.coef.data[zzToNat r]) ∧
    (∀ r : Fin 64, ¬ (start ≤ r.val ∧ r.val < stop) → t.mcoef.data[zzToNat r] = 0#32) ∧
    ((Finset.univ : Finset (Fin 64)).filter
      (fun k => start ≤ (natToZz k).val ∧ (natToZz k).val < stop)).card = stop - start

/-- The source's edge cases: the full range copies, [0,1) keeps the DC term, [i,i+1) isolates one frequency, and a range
with start ≥ end keeps nothing (R174, R170). -/
def Obligations.MaskEdgeCases : Prop :=
  ∀ s t : State,
    (exec (.mask 0 64) s = .next t → ∀ k : Fin 64, t.mcoef.data[k] = s.coef.data[k]) ∧
    (exec (.mask 0 1) s = .next t → t.mcoef.data[(0 : Fin 64)] = s.coef.data[(0 : Fin 64)] ∧
      ∀ k : Fin 64, k ≠ 0 → t.mcoef.data[k] = 0#32) ∧
    (∀ i : Fin 64, exec (.mask i.val (i.val + 1)) s = .next t →
      t.mcoef.data[zzToNat i] = s.coef.data[zzToNat i] ∧
        ∀ k : Fin 64, k ≠ zzToNat i → t.mcoef.data[k] = 0#32) ∧
    (∀ a b : Nat, b ≤ a → exec (.mask a b) s = .next t → ∀ k : Fin 64, t.mcoef.data[k] = 0#32)

/-- Monotonic fidelity: MASK 0, n and MASK 0, n+1 differ at most at natural index ZZ_TO_NAT[n], and the number of kept
coefficients is n (R175). -/
def Obligations.PhaseAddsOneCoefficient : Prop :=
  ∀ (n : Fin 64) (s t t' : State), exec (.mask 0 n.val) s = .next t → exec (.mask 0 (n.val + 1)) s = .next t' →
    (∀ k : Fin 64, k ≠ zzToNat n → t'.mcoef.data[k] = t.mcoef.data[k]) ∧
    ((Finset.univ : Finset (Fin 64)).filter (fun k => (natToZz k).val < n.val)).card = n.val

/-- Masking twice with one range is masking once, and the full range returns COEF exactly (R176). -/
def Obligations.MaskIsIdempotent : Prop :=
  ∀ (start stop : Nat) (s t u : State), exec (.mask start stop) s = .next t →
    exec (.mask start stop) { t with coef := t.mcoef } = .next u →
    u.mcoef = t.mcoef ∧ (start = 0 → stop = 64 → t.mcoef.data = s.coef.data)

/-! ## IDCT (spec/43_inverse.md) -/

/-- IDCT completes when the tables are built and every element of its source is valid; it writes PIX_OUT and W, computed by
dequantization, the two passes with their fast paths and the output stage, and nothing else but PEND, BUSY and DONE
(R187, R191, R193, R197). -/
def Obligations.IdctResult : Prop :=
  ∀ (src : CoefSource) (s : State) (buf : Buffer Word),
    (src = .mcoef → buf = s.mcoef) → (src = .coef → buf = s.coef) →
    buf.allValid = true → s.status.tv = true →
    ∃ (p w y : Vector Int 64) (out : Vector Byte 64),
      exec (.idct src) s = .next { s with
        pixOut := ⟨out, Vector.replicate 64 true⟩, w := w, pend := .idle,
        status := { s.status with busy := false, done := true } } ∧
      (∀ k : Fin 64, p[k] = (buf.data[k]).toInt * ((s.qt[k]).toNat : Int)) ∧
      (∀ i j : Fin 8, w[8 * i.val + j.val] =
        if (∀ n : Fin 8, n ≠ 0 → p[8 * i.val + n.val] = 0) then (5793 * p[8 * i.val] + 896) / 1024
        else (idctRow (Vector.ofFn fun (n : Fin 8) => p[8 * i.val + n.val]))[j]) ∧
      (∀ c j : Fin 8, y[8 * j.val + c.val] =
        if (∀ n : Fin 8, n ≠ 0 → w[8 * n.val + c.val] = 0) then (5793 * w[c.val] + 14336) / 16384
        else (idctCol (Vector.ofFn fun (n : Fin 8) => w[8 * n.val + c.val]))[j]) ∧
      (∀ k : Fin 64, ((out[k]).toNat : Int) = clampInt (128 + (y[k] + 8) / 16) 0 255)

/-- With the Equal constants the fast path gives what the butterfly gives, in both passes (R195, R192). -/
def Obligations.FastPathEqualsButterfly : Prop :=
  ∀ x : Vector Int 8, (∀ n : Fin 8, n ≠ 0 → x[n] = 0) → ∀ j : Fin 8,
    (idctRow x)[j] = (5793 * x[(0 : Fin 8)] + 896) / 1024 ∧
    (idctCol x)[j] = (5793 * x[(0 : Fin 8)] + 14336) / 16384 ∧
    rowDc .equal x[(0 : Fin 8)] = (5793 * x[(0 : Fin 8)] + 896) / 1024 ∧
    colDc .equal x[(0 : Fin 8)] = (5793 * x[(0 : Fin 8)] + 14336) / 16384

/-- Nothing observable depends on detecting the fast path: the whole inverse transform is the two butterflies (R194). -/
def Obligations.FastPathIsUnobservable : Prop :=
  ∀ (cf : Vector Word 64) (qt : Vector Byte 64) (w : Vector Int 64),
    inverseRows .equal cf qt = mapRows idctRow (dequantize cf qt) ∧
    ∀ k : Fin 64, (inverseOut .equal w)[k] = outStage (mapCols idctCol w)[k]

/-- Under Reference the fast path differs from the general path by at most 1, and by one exactly where R2·p0 mod 1024 is in
[128,511] (R196). -/
def Obligations.ReferenceRoundingDiffersByOne : Prop :=
  (∀ a : Int, rowDc .equal a - rowDc .reference a = if 128 ≤ 5793 * a % 1024 ∧ 5793 * a % 1024 ≤ 511 then 1 else 0) ∧
  (∀ a : Int, 0 ≤ colDc .equal a - colDc .reference a ∧ colDc .equal a - colDc .reference a ≤ 1) ∧
  rowDc .equal 2 = 12 ∧ rowDc .reference 2 = 11 ∧ colDc .equal 12 = 5 ∧ colDc .reference 11 = 4

/-- The datapath bounds, for every 32-bit coefficient and every step size: dequantized values stay below 2^39, every value and
pre-shift sum of the row pass below 2^56, W below 2^45, every value and pre-shift sum of the column pass below 2^58, and
column outputs below 2^47 in magnitude, so a 64-bit two's-complement word holds each of them exactly (R206). `rowNodes` and
`colNodes` list those values from the pseudocode of R188, R190 and R192; their last eight are the pass's outputs. -/
def Obligations.InverseDatapathFitsIn64Bits : Prop :=
  (∀ (cf : Vector Word 64) (qt : Vector Byte 64) (k : Fin 64),
    |(dequantize cf qt)[k]| < 2 ^ 39 ∧ |(inverseRows .equal cf qt)[k]| < 2 ^ 45 ∧
      |(mapCols (inverseCol .equal) (inverseRows .equal cf qt))[k]| < 2 ^ 47) ∧
  (∀ (cf : Vector Word 64) (qt : Vector Byte 64) (i : Fin 8),
    (∀ n ∈ rowNodes (rowOf (dequantize cf qt) i), |n| < 2 ^ 56 ∧ (BitVec.ofInt 64 n).toInt = n) ∧
    ∀ n ∈ colNodes (colOf (inverseRows .equal cf qt) i), |n| < 2 ^ 58 ∧ (BitVec.ofInt 64 n).toInt = n) ∧
  ∀ x : Vector Int 8,
    (∃ rest, rowNodes x = rest ++ (idctRow x).toList ∧ rowDc .equal x[0] ∈ rest) ∧
    ∃ rest, colNodes x = rest ++ (idctCol x).toList ∧ colDc .equal x[0] ∈ rest

/-- A block with only a DC coefficient reconstructs to a uniform block of the value R201 gives. -/
def Obligations.DcOnlyBlockIsUniform : Prop :=
  ∀ (src : CoefSource) (s : State), ready (.idct src) s = true →
    (∀ k : Fin 64, k ≠ 0 → (sourceBuffer src s).data[k] = 0#32) →
    ∃ t, exec (.idct src) s = .next t ∧ ∀ k : Fin 64,
      t.pixOut.data[k] = outStage (colDc .equal (rowDc .equal
        (((sourceBuffer src s).data[(0 : Fin 64)]).toInt * ((s.qt[(0 : Fin 64)]).toNat : Int))))

/-- The source's clamping property: DC = 10000 gives all 255 and DC = -10000 all 0, for every step size (R202). -/
def Obligations.LargeDcIsClamped : Prop :=
  (∀ step : Int, 1 ≤ step → step ≤ 255 →
    10000 ≤ 10000 * step ∧ 56572 ≤ rowDc .equal (10000 * step) ∧ 20003 ≤ colDc .equal (rowDc .equal (10000 * step))) ∧
  ∀ (src : CoefSource) (s : State), ready (.idct src) s = true → s.qt[(0 : Fin 64)] ≠ 0#8 →
    (∀ k : Fin 64, k ≠ 0 → (sourceBuffer src s).data[k] = 0#32) →
    ∃ t, exec (.idct src) s = .next t ∧
      (((sourceBuffer src s).data[(0 : Fin 64)]).toInt = 10000 → ∀ k : Fin 64, t.pixOut.data[k] = 255#8) ∧
      (((sourceBuffer src s).data[(0 : Fin 64)]).toInt = -10000 → ∀ k : Fin 64, t.pixOut.data[k] = 0#8)

/-- The thresholds of the output stage (R198). -/
def Obligations.OutputStageThresholds : Prop :=
  ∀ y : Int, (y ≤ -2041 → outStage y = 0#8) ∧ (y = -2040 → outStage y = 1#8) ∧
    (-8 ≤ y → y ≤ 7 → outStage y = 128#8) ∧ (y = 2023 → outStage y = 254#8) ∧ (2024 ≤ y → outStage y = 255#8)

/-- The flat round trip: with tables of quality q, every flat block of raw pixels comes back exactly from FDCT and
IDCT.COEF if and only if q is in [74,100] (R207, 90 C3). -/
def Obligations.FlatRoundTripExactFrom74 : Prop :=
  ∀ s : State, TablesBuilt s → s.status.tv = true →
    (74 ≤ s.quality.toNat ↔ ∀ v : Byte, ∃ t u : State,
      exec (.fdct .raw) { s with pixIn := Buffer.full fun _ => v } = .next t ∧ exec (.idct .coef) t = .next u ∧
      ∀ k : Fin 64, u.pixOut.data[k] = v)

/-! ## The window (spec/20_memory.md) -/

/-- The map gives every location its offset of R62 and back, every offset inside 0x100..0xB3F is mapped, and exactly
0x020..0x0FF and 0xB40..0xFFF are not (R62). -/
def Obligations.AddressMapIsR62 : Prop :=
  (∀ l : Loc, locate l.offset = some l ∧ misaligned l.offset = false) ∧
  (∀ (a : Addr) (l : Loc), misaligned a = false → locate a = some l → l.offset = a) ∧
  (∀ a : Addr, locate a = none ↔ (0x020 ≤ a.toNat ∧ a.toNat < 0x100) ∨ 0xB40 ≤ a.toNat)

/-- The access checks: the first failing check of misaligned, unmapped, read-only, busy is recorded with the offset, the
response is ERROR (a read's data 0), and nothing else changes; an access that passes them all gets OKAY (R64). -/
def Obligations.AccessChecksInOrder : Prop :=
  ∀ (s : State) (a : Addr) (d : Word),
    (∀ code, writeCheck a.toNat s.status.busy = some code →
      hostWrite a d s = { withError code (a.zeroExtend 32) s with reply := some (.write .error) }) ∧
    (writeCheck a.toNat s.status.busy = none → (hostWrite a d s).reply = some (.write .okay)) ∧
    (∀ code, readCheck a.toNat = some code →
      hostRead a s = .next { withError code (a.zeroExtend 32) s with reply := some (.read 0#32 .error) }) ∧
    (readCheck a.toNat = none → ∀ t, hostRead a s = .next t → ∃ v, t.reply = some (.read v .okay))

/-- What a host read of an idle unit returns, location by location but for CTRL and STATUS: ID, 0 for CMD, the read-only
registers, 8-bit and 6-bit elements zero-extended, 32-bit elements whole, binary64 elements low word first (R62, R65 to R67);
and nothing but `reply` changes. -/
def Obligations.HostReadsReturnTheElements : Prop :=
  ∀ (s : State) (k : Fin 64) (i : Fin 8), s.status.busy = false →
    hostRead 0x000#12 s = .next { s with reply := some (.read 0x44435407#32 .okay) } ∧
    hostRead 0x00C#12 s = .next { s with reply := some (.read 0#32 .okay) } ∧
    hostRead 0x010#12 s = .next { s with reply := some (.read s.errinfo .okay) } ∧
    hostRead 0x014#12 s = .next { s with reply := some (.read (s.quality.zeroExtend 32) .okay) } ∧
    hostRead 0x018#12 s = .next { s with reply := some (.read (s.sf.zeroExtend 32) .okay) } ∧
    hostRead 0x01C#12 s = .next { s with
      reply := some (.read (BitVec.ofNat 32 (s.phase.stop.toNat * 256 + s.phase.start.toNat)) .okay) } ∧
    (s.pixIn.valid[k] = true → hostRead (BitVec.ofNat 12 (0x100 + 4 * k.val)) s =
      .next { s with reply := some (.read ((s.pixIn.data[k]).zeroExtend 32) .okay) }) ∧
    (s.coef.valid[k] = true → hostRead (BitVec.ofNat 12 (0x200 + 4 * k.val)) s =
      .next { s with reply := some (.read s.coef.data[k] .okay) }) ∧
    (s.mcoef.valid[k] = true → hostRead (BitVec.ofNat 12 (0x300 + 4 * k.val)) s =
      .next { s with reply := some (.read s.mcoef.data[k] .okay) }) ∧
    (s.pixOut.valid[k] = true → hostRead (BitVec.ofNat 12 (0x400 + 4 * k.val)) s =
      .next { s with reply := some (.read ((s.pixOut.data[k]).zeroExtend 32) .okay) }) ∧
    (s.status.tv = true →
      hostRead (BitVec.ofNat 12 (0x500 + 4 * k.val)) s =
        .next { s with reply := some (.read ((s.qt[k]).zeroExtend 32) .okay) } ∧
      ∃ lo hi : Word, hi ++ lo = s.ft[k] ∧
        hostRead (BitVec.ofNat 12 (0x600 + 8 * k.val)) s = .next { s with reply := some (.read lo .okay) } ∧
        hostRead (BitVec.ofNat 12 (0x604 + 8 * k.val)) s = .next { s with reply := some (.read hi .okay) }) ∧
    hostRead (BitVec.ofNat 12 (0x800 + 4 * k.val)) s =
      .next { s with reply := some (.read (BitVec.ofNat 32 (zzToNat k).val) .okay) } ∧
    hostRead (BitVec.ofNat 12 (0x900 + 4 * k.val)) s =
      .next { s with reply := some (.read (BitVec.ofNat 32 (natToZz k).val) .okay) } ∧
    hostRead (BitVec.ofNat 12 (0xA00 + 4 * k.val)) s =
      .next { s with reply := some (.read ((baseZz k).zeroExtend 32) .okay) } ∧
    ∃ lo hi : Word, hi ++ lo = aan i ∧
      hostRead (BitVec.ofNat 12 (0xB00 + 8 * i.val)) s = .next { s with reply := some (.read lo .okay) } ∧
      hostRead (BitVec.ofNat 12 (0xB04 + 8 * i.val)) s = .next { s with reply := some (.read hi .okay) }

/-- A host write of a buffer element stores its packed value, sets its validity bit, and leaves every other element and
everything else alone; a read of the same offset then returns it (R65, R66, R70). -/
def Obligations.HostWritesStoreTheElement : Prop :=
  ∀ (s : State) (k : Fin 64) (d : Word), s.status.busy = false →
    (∃ b : Buffer Byte, hostWrite (BitVec.ofNat 12 (0x100 + 4 * k.val)) d s =
        { s with pixIn := b, reply := some (.write .okay) } ∧
      b.data[k] = d.extractLsb' 0 8 ∧ b.valid[k] = true ∧
      ∀ j : Fin 64, j ≠ k → b.data[j] = s.pixIn.data[j] ∧ b.valid[j] = s.pixIn.valid[j]) ∧
    hostRead (BitVec.ofNat 12 (0x100 + 4 * k.val)) (hostWrite (BitVec.ofNat 12 (0x100 + 4 * k.val)) d s) =
      .next { hostWrite (BitVec.ofNat 12 (0x100 + 4 * k.val)) d s with reply := some (.read ((d.extractLsb' 0 8).zeroExtend 32) .okay) } ∧
    (∃ b : Buffer Word, hostWrite (BitVec.ofNat 12 (0x200 + 4 * k.val)) d s =
        { s with coef := b, reply := some (.write .okay) } ∧
      b.data[k] = d ∧ b.valid[k] = true ∧
      ∀ j : Fin 64, j ≠ k → b.data[j] = s.coef.data[j] ∧ b.valid[j] = s.coef.valid[j]) ∧
    hostRead (BitVec.ofNat 12 (0x200 + 4 * k.val)) (hostWrite (BitVec.ofNat 12 (0x200 + 4 * k.val)) d s) =
      .next { hostWrite (BitVec.ofNat 12 (0x200 + 4 * k.val)) d s with reply := some (.read d .okay) } ∧
    (∃ b : Buffer Word, hostWrite (BitVec.ofNat 12 (0x300 + 4 * k.val)) d s =
        { s with mcoef := b, reply := some (.write .okay) } ∧
      b.data[k] = d ∧ b.valid[k] = true ∧
      ∀ j : Fin 64, j ≠ k → b.data[j] = s.mcoef.data[j] ∧ b.valid[j] = s.mcoef.valid[j]) ∧
    hostRead (BitVec.ofNat 12 (0x300 + 4 * k.val)) (hostWrite (BitVec.ofNat 12 (0x300 + 4 * k.val)) d s) =
      .next { hostWrite (BitVec.ofNat 12 (0x300 + 4 * k.val)) d s with reply := some (.read d .okay) }

/-- A read that answers OKAY has no side effect on the machine (only the model's `reply` and `draws` move), and two reads of
an idle unit agree (R69). -/
def Obligations.ReadsHaveNoSideEffect : Prop :=
  ∀ (a : Addr) (s t : State) (v : Word), hostRead a s = .next t → t.reply = some (.read v .okay) →
    t = { s with reply := t.reply, draws := t.draws } ∧
    (s.status.busy = false → t.draws = s.draws ∧ hostRead a t = .next t)

/-- While BUSY = 1 a read of 0x100..0x7FF returns a freely drawn word, a new draw for each read (R72); that the draw is
`Config.busyRead` of a counter which then advances is the model's form of R72's unspecified value (log 4, DESIGN CHOICE).
Registers and ROMs read as usual, and STATUS reads BUSY = 1; writes to PIX_IN, COEF, MCOEF and CMD are rejected; CTRL and
STATUS writes take effect (R72). -/
def Obligations.AccessesWhileBusy : Prop :=
  ∀ (s : State) (a : Addr), s.status.busy = true → a.toNat % 4 = 0 →
    (0x100 ≤ a.toNat → a.toNat < 0x800 → hostRead a s =
      .next { s with reply := some (.read (Config.busyRead s.draws) .okay), draws := s.draws + 1 }) ∧
    (∀ l, locate a = some l → (a.toNat < 0x020 ∨ 0x800 ≤ a.toNat) → ∃ v, readLoc l s = some v ∧
      readLoc l { s with status := { s.status with busy := false } } =
        some (if l = .status then v - 1#32 else v) ∧
      hostRead a s = .next { s with reply := some (.read v .okay) } ∧ (l = .status → v.getLsbD 0 = true)) ∧
    (∀ d : Word, a.toNat = 0x00C ∨ (0x100 ≤ a.toNat ∧ a.toNat < 0x400) →
      (hostWrite a d s).reply = some (.write .error) ∧ SameData s (hostWrite a d s) ∧ (hostWrite a d s).pend = s.pend) ∧
    (∀ d : Word, d.getLsbD 31 = false → (hostWrite 0x004#12 d s).ctrl = ⟨d.getLsbD 0, d.getLsbD 1⟩) ∧
    (∀ d : Word, d.getLsbD 31 = true →
      hostWrite 0x004#12 d s = { resetState s with reply := some (.write .okay) }) ∧
    (∀ d : Word, hostWrite 0x008#12 d s = { s with status := s.status.clear d, reply := some (.write .okay) })

/-- A host read of an idle unit faults UninitRead on a buffer element that is not valid, and on QT and both words of FT
while TV = 0 (R71, R252). -/
def Obligations.UndefinedElementsFaultOnRead : Prop :=
  ∀ (s : State) (k : Fin 64), s.status.busy = false →
    (s.pixIn.valid[k] = false → hostRead (Loc.pixIn k).offset s = .fault .uninitRead) ∧
    (s.coef.valid[k] = false → hostRead (Loc.coef k).offset s = .fault .uninitRead) ∧
    (s.mcoef.valid[k] = false → hostRead (Loc.mcoef k).offset s = .fault .uninitRead) ∧
    (s.pixOut.valid[k] = false → hostRead (Loc.pixOut k).offset s = .fault .uninitRead) ∧
    (s.status.tv = false → hostRead (Loc.qt k).offset s = .fault .uninitRead ∧
      hostRead (Loc.ftLow k).offset s = .fault .uninitRead ∧ hostRead (Loc.ftHigh k).offset s = .fault .uninitRead)

/-! ## STATUS, CTRL, errors, interrupt (spec/10_state.md, spec/60_exceptions.md) -/

/-- STATUS: the field at each bit when read, ERRCODE by R240's numbers, reserved bits 0, and the write that clears DONE, ERR
with ERRCODE, and EOVF, and changes nothing else (R38, R240, R248). -/
def Obligations.StatusReadAndClear : Prop :=
  ∀ (s : State) (v : Word),
    (∃ w : Word, hostRead 0x008#12 s = .next { s with reply := some (.read w .okay) } ∧
      w.getLsbD 0 = s.status.busy ∧ w.getLsbD 1 = s.status.done ∧ w.getLsbD 2 = s.status.err ∧
      w.getLsbD 3 = s.status.eovf ∧ w.getLsbD 4 = s.status.tv ∧ w.extractLsb' 16 4 = s.status.lastop ∧
      w &&& 0xFFF0F0E0#32 = 0#32 ∧
      (s.status.errcode = .none → w.extractLsb' 8 4 = 0#4) ∧
      (s.status.errcode = .cmdIllegalOpc → w.extractLsb' 8 4 = 1#4) ∧
      (s.status.errcode = .cmdRsvdBits → w.extractLsb' 8 4 = 2#4) ∧
      (s.status.errcode = .cmdNoTable → w.extractLsb' 8 4 = 3#4) ∧
      (s.status.errcode = .busBusy → w.extractLsb' 8 4 = 4#4) ∧
      (s.status.errcode = .busUnmapped → w.extractLsb' 8 4 = 5#4) ∧
      (s.status.errcode = .busMisaligned → w.extractLsb' 8 4 = 6#4) ∧
      (s.status.errcode = .busReadonly → w.extractLsb' 8 4 = 7#4)) ∧
    hostWrite 0x008#12 v s = { s with
      status := { s.status with
        done := if v.getLsbD 1 then false else s.status.done
        err := if v.getLsbD 2 then false else s.status.err
        errcode := if v.getLsbD 2 then .none else s.status.errcode
        eovf := if v.getLsbD 3 then false else s.status.eovf }
      reply := some (.write .okay) }

/-- CTRL: what is read, and a write with bit 31 = 0, which stores bits 1:0 and nothing else (R36). -/
def Obligations.CtrlReadAndWrite : Prop :=
  ∀ (s : State) (v : Word),
    (∃ w : Word, hostRead 0x004#12 s = .next { s with reply := some (.read w .okay) } ∧
      w.getLsbD 0 = s.ctrl.doneIe ∧ w.getLsbD 1 = s.ctrl.errIe ∧ w &&& 0xFFFFFFFC#32 = 0#32) ∧
    (v.getLsbD 31 = false → hostWrite 0x004#12 v s =
      { s with ctrl := { doneIe := v.getLsbD 0, errIe := v.getLsbD 1 }, reply := some (.write .okay) })

/-- RecordError: the first error is recorded whole, a later one sets only EOVF, and nothing else changes (R243). -/
def Obligations.RecordErrorKeepsTheFirst : Prop :=
  ∀ (code : ErrCode) (info : Word) (s : State),
    (s.status.err = false → recordError code info s =
      { s with status := { s.status with err := true, errcode := code }, errinfo := info }) ∧
    (s.status.err = true → recordError code info s = { s with status := { s.status with eovf := true } })

/-- Errors belong to host accesses (R244). The engine's turn leaves the error record as it is; a reset turn clears it (R270);
any other change of the record is made by a host access: a read or write that fails a bus check, or a CMD write (an error), a
STATUS write (a clear) or a soft reset. ERR and EOVF rise only by an access that fails a bus check or by a CMD write. -/
def Obligations.ErrorsBelongToHostAccesses : Prop :=
  ∀ s t : State, step s = .next t →
    ((s.schedule = [] ∨ ∃ rest, s.schedule = .engine :: rest) →
      t.status.err = s.status.err ∧ t.status.errcode = s.status.errcode ∧ t.status.eovf = s.status.eovf ∧
        t.errinfo = s.errinfo) ∧
    ((∃ rest, s.schedule = .reset :: rest) →
      t.status.err = false ∧ t.status.errcode = .none ∧ t.status.eovf = false ∧ t.errinfo = 0#32) ∧
    (¬ (t.status.err = s.status.err ∧ t.status.errcode = s.status.errcode ∧ t.status.eovf = s.status.eovf ∧
        t.errinfo = s.errinfo) →
      (∃ rest, s.schedule = .reset :: rest) ∨
      (∃ a rest, s.schedule = .read a :: rest ∧ readCheck a.toNat ≠ none) ∨
      (∃ a d rest, s.schedule = .write a d :: rest ∧ (writeCheck a.toNat s.status.busy ≠ none ∨ a = 0x00C#12 ∨
        a = 0x008#12 ∨ (a = 0x004#12 ∧ d.getLsbD 31 = true)))) ∧
    ((s.status.err = false ∧ t.status.err = true) ∨ (s.status.eovf = false ∧ t.status.eovf = true) →
      (∃ a rest, s.schedule = .read a :: rest ∧ readCheck a.toNat ≠ none) ∨
      (∃ a d rest, s.schedule = .write a d :: rest ∧ (writeCheck a.toNat s.status.busy ≠ none ∨ a = 0x00C#12)))

/-- ERR blocks nothing: two states that differ only in the error record step alike, up to the error record, and what the host
is told is the same too, except for a read of STATUS (0x008) or ERRINFO (0x010), which returns the state's own record
(R245). -/
def Obligations.ErrorRecordBlocksNothing : Prop :=
  ∀ (s s' t : State),
    s' = { s with status := { s.status with err := s'.status.err, errcode := s'.status.errcode,
                                            eovf := s'.status.eovf }, errinfo := s'.errinfo } →
    step s = .next t →
    ∃ t', step s' = .next t' ∧
      t' = { t with status := { t.status with err := t'.status.err, errcode := t'.status.errcode,
                                              eovf := t'.status.eovf }, errinfo := t'.errinfo, reply := t'.reply } ∧
      ((∀ rest, s.schedule ≠ .read 0x008#12 :: rest) → (∀ rest, s.schedule ≠ .read 0x010#12 :: rest) →
        t'.reply = t.reply) ∧
      ((∃ rest, s.schedule = .read 0x008#12 :: rest) → t'.reply = some (.read s'.status.word .okay)) ∧
      ((∃ rest, s.schedule = .read 0x010#12 :: rest) → t'.reply = some (.read s'.errinfo .okay))

/-- The interrupt line (R250). It is DONE with DONE_IE or ERR with ERR_IE, so it is 0 while the enables are 0. Raised: by a
completion with DONE_IE, and with ERR_IE by a failed write, a failed read, a rejected command word and a missing table.
Dropped: by a STATUS write that clears the source, by clearing the enables, and, for DONE, by acceptance of the next command;
0 after a reset. A step that changes none of DONE, ERR and CTRL leaves it. -/
def Obligations.InterruptIsRaisedAndCleared : Prop :=
  (∀ s : State, (s.irq = true ↔ (s.status.done = true ∧ s.ctrl.doneIe = true) ∨
      (s.status.err = true ∧ s.ctrl.errIe = true)) ∧
    (s.ctrl.doneIe = false → s.ctrl.errIe = false → s.irq = false)) ∧
  (∀ (i : Instr) (s t : State), exec i s = .next t → s.ctrl.doneIe = true → t.irq = true) ∧
  (∀ (s : State) (a : Addr) (d : Word) (code : ErrCode), s.ctrl.errIe = true →
    (writeCheck a.toNat s.status.busy = some code → (hostWrite a d s).irq = true) ∧
    (readCheck a.toNat = some code → ∃ t, hostRead a s = .next t ∧ t.irq = true)) ∧
  (∀ (s : State) (w : Word), s.ctrl.errIe = true → s.status.busy = false →
    (∀ r, decode w = .reject r → (hostWrite 0x00C#12 w s).irq = true) ∧
    (∀ i, decode w = .command i → ((∃ m, i = .fdct m) ∨ (∃ c, i = .idct c)) → s.status.tv = false →
      (hostWrite 0x00C#12 w s).irq = true)) ∧
  (∀ (s : State) (w : Word) (i : Instr), s.status.busy = false → decode w = .command i →
    (((∃ m, i = .fdct m) ∨ (∃ c, i = .idct c)) → s.status.tv = true) →
    (hostWrite 0x00C#12 w s).irq = (s.status.err && s.ctrl.errIe)) ∧
  (∀ (s : State) (d : Word), (hostWrite 0x008#12 d s).irq =
    ((s.status.done && !d.getLsbD 1 && s.ctrl.doneIe) || (s.status.err && !d.getLsbD 2 && s.ctrl.errIe))) ∧
  (∀ (s : State) (d : Word), d.getLsbD 31 = false → d.getLsbD 0 = false → d.getLsbD 1 = false →
    (hostWrite 0x004#12 d s).irq = false) ∧
  (∀ s : State, (resetState s).irq = false) ∧
  (∀ s t : State, step s = .next t → t.status.done = s.status.done → t.status.err = s.status.err → t.ctrl = s.ctrl →
    t.irq = s.irq)

/-! ## Reset (spec/70_reset_and_hazards.md) -/

/-- The reset turn's state, and the soft reset, which in every state, busy or not, is that state with OKAY answered and none of
the write's other bits stored: R46's reset values, PEND Idle, every validity bit 0, IRQ 0, and an engine that does nothing
until the host writes CMD (R270 to R272). -/
def Obligations.ResetLeavesTheResetState : Prop :=
  (∀ (s : State) (v : Word), v.getLsbD 31 = true →
    hostWrite 0x004#12 v s = { resetState s with reply := some (.write .okay) }) ∧
  ∀ s t : State, t = resetState s →
    t.ctrl.word = 0#32 ∧ t.status.word = 0#32 ∧ t.errinfo = 0#32 ∧ qualityWord t.quality = 0#32 ∧
    sfWord t.sf = 0#32 ∧ t.phase.word = 0#32 ∧ t.pend = .idle ∧ t.irq = false ∧ t.schedule = s.schedule ∧
    step { t with schedule := [] } = .next { t with schedule := [] } ∧
    ∀ k : Fin 64, t.pixIn.valid[k] = false ∧ t.coef.valid[k] = false ∧ t.mcoef.valid[k] = false ∧
      t.pixOut.valid[k] = false

/-! ## The invariant -/

/-- The invariant holds at reset (R41, R46). -/
def Obligations.InvariantAtReset : Prop := Inv State.reset

/-- Every step keeps the invariant: BUSY with PEND, PEND an accepted word, the error fields, LASTOP, PHASE, and the tables
of one quality when TV = 1 (R32, R33, R34, R38, R41, R221, R240). -/
def Obligations.InvariantIsKeptByEveryStep : Prop :=
  ∀ s t : State, Inv s → step s = .next t → Inv t

/-- From a state of the invariant a step never meets an unaccepted word in PEND and never refuses: the only fault is the
spec's own UninitRead (R221, R252). -/
def Obligations.OnlyUninitReadCanStopTheMachine : Prop :=
  ∀ s : State, Inv s → (∃ t, step s = .next t) ∨ step s = .fault .uninitRead
end

