-- ==== Sys2Proof/Laws/Binary64.lean ====
section
/-! SUPPORT. Binary64: fields and values of patterns, and rounding: the nearest value, ties to even (R11). -/

namespace Sys2Proof.Machine

/-! ### Fields -/

theorem fPack_toNat (s : Bool) (bits : Nat) (h : bits < 2 ^ 63) :
    (fPack s bits).toNat = s.toNat * 2 ^ 63 + bits := by
  unfold fPack
  rw [BitVec.toNat_append, BitVec.toNat_ofNat, Nat.mod_eq_of_lt h, Nat.shiftLeft_eq]
  cases s
  · simp
  · have e := Nat.two_pow_add_eq_or_of_lt (i := 63) h 1
    simp only [Nat.mul_one] at e
    simp [e]

@[simp] theorem fSign_fPack (s : Bool) (bits : Nat) (h : bits < 2 ^ 63) : fSign (fPack s bits) = s := by
  unfold fSign
  rw [BitVec.msb_eq_decide, fPack_toNat s bits h]
  cases s <;> (simp <;> omega)

@[simp] theorem fExp_fPack (s : Bool) (bits : Nat) (h : bits < 2 ^ 63) : fExp (fPack s bits) = bits / 2 ^ 52 := by
  unfold fExp
  rw [BitVec.extractLsb'_toNat, fPack_toNat s bits h, Nat.shiftRight_eq_div_pow]
  cases s <;> (simp <;> omega)

@[simp] theorem fFrac_fPack (s : Bool) (bits : Nat) (h : bits < 2 ^ 63) : fFrac (fPack s bits) = bits % 2 ^ 52 := by
  unfold fFrac
  rw [BitVec.extractLsb'_toNat, fPack_toNat s bits h]
  cases s <;> (simp <;> omega)

theorem fExp_lt (x : F64) : fExp x < 2048 := (x.extractLsb' 52 11).isLt

theorem fFrac_lt (x : F64) : fFrac x < 2 ^ 52 := (x.extractLsb' 0 52).isLt

theorem fMant_lt (x : F64) : fMant x < 2 ^ 53 := by
  have := fFrac_lt x
  unfold fMant
  split <;> omega

theorem fScale_ge (x : F64) : -1074 ≤ fScale x := by
  unfold fScale
  split <;> omega

/-- A finite value by its sign and magnitude. -/
theorem fValue_eq (x : F64) : fValue x = (if fSign x then -1 else 1) * ((fMant x : ℚ) * 2 ^ fScale x) := by
  unfold fValue fSignedMant
  split <;> push_cast <;> ring

/-- The pattern of sign `s`, exponent count `E` and significand `m`, a carry out of the significand included. -/
theorem fValue_fPack (s : Bool) (E m : Nat) (hm : m ≤ 2 ^ 53) (hE : E = 0 ∨ 2 ^ 52 ≤ m)
    (hb : E * 2 ^ 52 + m < 2047 * 2 ^ 52) :
    fIsFinite (fPack s (E * 2 ^ 52 + m)) = true ∧ fSign (fPack s (E * 2 ^ 52 + m)) = s ∧
    fFrac (fPack s (E * 2 ^ 52 + m)) % 2 = m % 2 ∧
    fValue (fPack s (E * 2 ^ 52 + m)) = (if s then -1 else 1) * ((m : ℚ) * 2 ^ ((E : Int) - 1074)) := by
  have h63 : E * 2 ^ 52 + m < 2 ^ 63 := by omega
  have hexp := fExp_fPack s (E * 2 ^ 52 + m) h63
  have hfrac := fFrac_fPack s (E * 2 ^ 52 + m) h63
  have hsign := fSign_fPack s (E * 2 ^ 52 + m) h63
  refine ⟨?_, hsign, ?_, ?_⟩
  · unfold fIsFinite; rw [hexp]; simp; omega
  · rw [hfrac]; omega
  · rw [fValue_eq, hsign]
    congr 1
    unfold fMant fScale
    rw [hexp, hfrac]
    by_cases h1 : m < 2 ^ 52
    · have hE0 : E = 0 := by omega
      subst hE0
      have e1 : (0 * 2 ^ 52 + m) / 2 ^ 52 = 0 := by omega
      have e2 : (0 * 2 ^ 52 + m) % 2 ^ 52 = m := by omega
      rw [e1, e2]
      simp
    · by_cases h2 : m < 2 ^ 53
      · have e1 : (E * 2 ^ 52 + m) / 2 ^ 52 = E + 1 := by omega
        have e2 : (E * 2 ^ 52 + m) % 2 ^ 52 = m - 2 ^ 52 := by omega
        rw [e1, e2, if_neg (by omega), if_neg (by omega), show 2 ^ 52 + (m - 2 ^ 52) = m by omega]
        congr 2
        push_cast
        ring
      · have e0 : m = 2 ^ 53 := by omega
        subst e0
        have e1 : (E * 2 ^ 52 + 2 ^ 53) / 2 ^ 52 = E + 2 := by omega
        have e2 : (E * 2 ^ 52 + 2 ^ 53) % 2 ^ 52 = 0 := by omega
        rw [e1, e2, if_neg (by omega), if_neg (by omega)]
        have e3 : ((E + 2 : Nat) : Int) - 1075 = ((E : Int) - 1074) + 1 := by push_cast; ring
        rw [e3, zpow_add₀ (by norm_num)]
        push_cast
        ring

/-! ### Rounding to an integer -/

/-- `roundHalfEven` on integers: no multiple of d is nearer to n, and at a tie the chosen one is even. -/
theorem roundHalfEven_int (n d : Nat) (hd : 0 < d) (z : Int) :
    |(roundHalfEven n d : Int) * d - n| ≤ |z * d - n| ∧
    (|(roundHalfEven n d : Int) * d - n| = |z * d - n| → z = roundHalfEven n d ∨ roundHalfEven n d % 2 = 0) := by
  have hr : (d : Int) * ((n / d : Nat) : Int) + ((n % d : Nat) : Int) = n := by exact_mod_cast Nat.div_add_mod n d
  have hlt : n % d < d := Nat.mod_lt n hd
  unfold roundHalfEven
  generalize hq : n / d = q at *
  generalize hp : n % d = p at *
  obtain ⟨t, rfl⟩ : ∃ t : Int, z = q + t := ⟨z - q, by ring⟩
  have ez : ((q : Int) + t) * d - n = t * d - p := by rw [← hr]; ring
  have e0 : (q : Int) * d - n = -p := by rw [← hr]; ring
  have e1 : ((q + 1 : Nat) : Int) * d - n = d - p := by rw [← hr]; push_cast; ring
  have hcase : t ≤ -1 ∧ t * d ≤ -d ∨ t = 0 ∨ t = 1 ∨ 2 ≤ t ∧ 2 * d ≤ t * d := by
    rcases Int.lt_trichotomy t 0 with h | h | h
    · exact .inl ⟨by omega, by nlinarith⟩
    · exact .inr (.inl h)
    · by_cases h1 : t = 1
      · exact .inr (.inr (.inl h1))
      · exact .inr (.inr (.inr ⟨by omega, by nlinarith [show 2 ≤ t by omega]⟩))
  have a0 : |-(p : Int)| = p := by rw [abs_neg, abs_of_nonneg (by omega)]
  have a1 : |(d : Int) - p| = d - p := abs_of_nonneg (by omega)
  have at_ : t ≤ -1 ∧ |t * d - p| = p - t * d ∨ t = 0 ∧ |t * d - p| = p ∨ t = 1 ∧ |t * d - p| = d - p ∨
      2 ≤ t ∧ |t * d - p| = t * d - p := by
    rcases hcase with ⟨h1, h2⟩ | rfl | rfl | ⟨h1, h2⟩
    · exact .inl ⟨h1, by rw [abs_of_nonpos (by omega)]; ring⟩
    · exact .inr (.inl ⟨rfl, by rw [zero_mul, zero_sub, a0]⟩)
    · exact .inr (.inr (.inl ⟨rfl, by rw [one_mul, a1]⟩))
    · exact .inr (.inr (.inr ⟨h1, abs_of_nonneg (by omega)⟩))
  rw [ez]
  clear ez hr
  split
  · rw [e1, a1]
    clear e0 e1 a0 a1
    generalize |t * (d : Int) - p| = z at *
    generalize t * (d : Int) = y at *
    constructor <;> omega
  · rw [e0, a0]
    clear e0 e1 a0 a1
    generalize |t * (d : Int) - p| = z at *
    generalize t * (d : Int) = y at *
    constructor <;> omega

/-- `roundHalfEven` is a nearest integer to n/d, and at a tie the even one. -/
theorem roundHalfEven_spec (n d : Nat) (hd : 0 < d) (z : Int) :
    |(roundHalfEven n d : ℚ) - (n : ℚ) / d| ≤ |(z : ℚ) - (n : ℚ) / d| ∧
    (|(roundHalfEven n d : ℚ) - (n : ℚ) / d| = |(z : ℚ) - (n : ℚ) / d| →
      z = roundHalfEven n d ∨ roundHalfEven n d % 2 = 0) := by
  have hdq : (0 : ℚ) < d := by exact_mod_cast hd
  have key : ∀ k : Int, |(k : ℚ) - (n : ℚ) / d| = ((|k * d - n| : Int) : ℚ) / d := by
    intro k
    rw [show (k : ℚ) - (n : ℚ) / d = ((k * d - n : Int) : ℚ) / d by push_cast; field_simp]
    rw [abs_div, abs_of_pos hdq, Int.cast_abs]
  have h := roundHalfEven_int n d hd z
  rw [show ((roundHalfEven n d : Nat) : ℚ) = (((roundHalfEven n d : Nat) : Int) : ℚ) from (Int.cast_natCast _).symm]
  rw [key, key]
  refine ⟨?_, fun e => h.2 ?_⟩
  · exact div_le_div_of_nonneg_right (Int.cast_le.2 h.1) hdq.le
  · rw [div_left_inj' hdq.ne'] at e
    exact Int.cast_injective e

/-- Bounds of `roundHalfEven`. -/
theorem roundHalfEven_ge (n d k : Nat) (hd : 0 < d) (h : k * d ≤ n) : k ≤ roundHalfEven n d := by
  have : k ≤ n / d := (Nat.le_div_iff_mul_le hd).2 h
  unfold roundHalfEven
  split <;> omega

theorem roundHalfEven_le (n d k : Nat) (hd : 0 < d) (h : n ≤ k * d) : roundHalfEven n d ≤ k := by
  have h1 : n / d ≤ k := Nat.div_le_of_le_mul (by rw [Nat.mul_comm]; exact h)
  unfold roundHalfEven
  split
  · rename_i hc
    by_contra hk
    have e : n / d = k := by omega
    have := Nat.div_add_mod n d
    rw [e, Nat.mul_comm] at this
    have : n % d = 0 := by omega
    omega
  · exact h1

/-! ### The exponent -/

/-- `ratioLog2` is the exponent of num/den: 2^L ≤ num/den < 2^(L+1). -/
theorem ratioLog2_spec (num den : Nat) (hn : num ≠ 0) (hd : den ≠ 0) :
    (2 : ℚ) ^ ratioLog2 num den ≤ (num : ℚ) / den ∧ (num : ℚ) / den < 2 ^ (ratioLog2 num den + 1) := by
  have hn1 : (2 : ℚ) ^ (num.log2 : Int) ≤ num := by rw [zpow_natCast]; exact_mod_cast Nat.log2_self_le hn
  have hn2 : (num : ℚ) < 2 ^ ((num.log2 : Int) + 1) := by
    rw [show ((num.log2 : Int) + 1) = ((num.log2 + 1 : Nat) : Int) by push_cast; rfl, zpow_natCast]
    exact_mod_cast Nat.lt_log2_self
  have hd1 : (2 : ℚ) ^ (den.log2 : Int) ≤ den := by rw [zpow_natCast]; exact_mod_cast Nat.log2_self_le hd
  have hd2 : (den : ℚ) < 2 ^ ((den.log2 : Int) + 1) := by
    rw [show ((den.log2 : Int) + 1) = ((den.log2 + 1 : Nat) : Int) by push_cast; rfl, zpow_natCast]
    exact_mod_cast Nat.lt_log2_self
  have hdq : (0 : ℚ) < den := by exact_mod_cast Nat.pos_of_ne_zero hd
  have p2 : ∀ k : Int, (0 : ℚ) < 2 ^ k := fun k => zpow_pos (by norm_num) k
  have mulk : ∀ l : Int, ((num * 2 ^ (-l).toNat < den * 2 ^ l.toNat) ↔ (num : ℚ) / den < 2 ^ l) := by
    intro l
    rw [div_lt_iff₀ hdq]
    rcases le_total 0 l with h | h
    · rw [show (-l).toNat = 0 by omega]
      rw [show (2 : ℚ) ^ l = 2 ^ l.toNat by rw [← zpow_natCast, Int.toNat_of_nonneg h]]
      rw [pow_zero, mul_one, mul_comm]
      exact_mod_cast Iff.rfl
    · rw [show l.toNat = 0 by omega]
      have e : (2 : ℚ) ^ l = (2 ^ (-l).toNat)⁻¹ := by
        rw [← zpow_natCast, Int.toNat_of_nonneg (by omega), zpow_neg, inv_inv]
      rw [e, pow_zero, mul_one]
      have hp : (0 : ℚ) < 2 ^ (-l).toNat := by positivity
      rw [inv_mul_eq_div, lt_div_iff₀ hp]
      exact_mod_cast Iff.rfl
  unfold ratioLog2
  simp only
  have up : (num : ℚ) / den < 2 ^ ((num.log2 : Int) - den.log2 + 1) := by
    rw [div_lt_iff₀ hdq]
    calc (num : ℚ) < 2 ^ ((num.log2 : Int) + 1) := hn2
      _ = 2 ^ ((num.log2 : Int) - den.log2 + 1) * 2 ^ (den.log2 : Int) := by
        rw [← zpow_add₀ (by norm_num)]; congr 1; ring
      _ ≤ _ := by gcongr
  have lo : (2 : ℚ) ^ ((num.log2 : Int) - den.log2 - 1) ≤ (num : ℚ) / den := by
    rw [le_div_iff₀ hdq]
    calc (2 : ℚ) ^ ((num.log2 : Int) - den.log2 - 1) * den
        ≤ 2 ^ ((num.log2 : Int) - den.log2 - 1) * 2 ^ ((den.log2 : Int) + 1) := by gcongr
      _ = 2 ^ (num.log2 : Int) := by rw [← zpow_add₀ (by norm_num)]; congr 1; ring
      _ ≤ num := hn1
  split
  · rename_i h
    exact ⟨lo, by rw [sub_add_cancel]; exact (mulk _).1 h⟩
  · rename_i h
    exact ⟨not_lt.1 (fun h' => h ((mulk _).2 h')), up⟩

/-! ### fRound -/

/-- The magnitude of a finite pattern. -/
theorem abs_fValue (z : F64) : |fValue z| = (fMant z : ℚ) * 2 ^ fScale z := by
  have h : (0 : ℚ) ≤ (fMant z : ℚ) * 2 ^ fScale z := by positivity
  rw [fValue_eq]
  split
  · rw [neg_one_mul, abs_neg, abs_of_nonneg h]
  · rw [one_mul, abs_of_nonneg h]

/-- The scaled ratio that `fRound` rounds to an integer is the exact magnitude in units of 2^u. -/
theorem scaled_ratio (num den : Nat) (e u : Int) (hd : den ≠ 0) :
    ((num * 2 ^ (e - u).toNat : Nat) : ℚ) / ((den * 2 ^ (u - e).toNat : Nat) : ℚ) * 2 ^ u = (num : ℚ) / den * 2 ^ e := by
  have hdq : (den : ℚ) ≠ 0 := by exact_mod_cast hd
  have p2 : ∀ k : Nat, (2 : ℚ) ^ k ≠ 0 := fun k => by positivity
  push_cast
  rw [div_mul_eq_mul_div, div_mul_eq_mul_div, div_eq_div_iff (mul_ne_zero hdq (p2 _)) hdq]
  rw [← zpow_natCast, ← zpow_natCast]
  have key : (2 : ℚ) ^ (((e - u).toNat : Nat) : Int) * 2 ^ u = 2 ^ e * 2 ^ (((u - e).toNat : Nat) : Int) := by
    rw [← zpow_add₀ (by norm_num), ← zpow_add₀ (by norm_num)]
    congr 1
    omega
  linear_combination (num : ℚ) * den * key

/-- An odd K is passed exactly from half a unit above it on. -/
theorem roundHalfEven_le_odd (n d K : Nat) (hd : 0 < d) (hK : K % 2 = 1) :
    roundHalfEven n d ≤ K ↔ 2 * n < (2 * K + 1) * d := by
  have hr := Nat.div_add_mod n d
  have hlt := Nat.mod_lt n hd
  have e : (2 * K + 1) * d = 2 * (d * K) + d := by ring
  rw [e]
  unfold roundHalfEven
  generalize n / d = q at *
  generalize n % d = p at *
  rcases Nat.lt_trichotomy q K with h | h | h
  · have h1 : d * (q + 1) ≤ d * K := Nat.mul_le_mul_left _ (by omega)
    rw [Nat.mul_add, Nat.mul_one] at h1
    generalize d * q = y at *
    generalize d * K = z at *
    constructor
    · intro _; omega
    · intro _; split <;> omega
  · subst h
    generalize d * q = y at *
    constructor
    · intro h; split at h <;> omega
    · intro h; split <;> omega
  · have h1 : d * (K + 1) ≤ d * q := Nat.mul_le_mul_left _ (by omega)
    rw [Nat.mul_add, Nat.mul_one] at h1
    generalize d * q = y at *
    generalize d * K = z at *
    constructor
    · intro h; split at h <;> omega
    · intro h; omega
/-- The overflow threshold against powers of two. -/
theorem threshold_eq : (2 : ℚ) ^ 1024 - 2 ^ 970 = (2 ^ 53 - 1 / 2) * 2 ^ (971 : Int) := by
  have e0 : (2 : ℚ) ^ (971 : Int) = 2 * 2 ^ 970 := by
    rw [show (971 : Int) = ((970 + 1 : Nat) : Int) from rfl, zpow_natCast, pow_succ, mul_comm]
  have e1 : (2 : ℚ) ^ 1024 = 2 ^ 54 * 2 ^ 970 := by rw [← pow_add]
  rw [e0, e1]
  generalize (2 : ℚ) ^ 970 = X
  norm_num
  ring

theorem threshold_ge : (2 : ℚ) ^ (53 : Int) * 2 ^ (970 : Int) ≤ 2 ^ 1024 - 2 ^ 970 := by
  rw [threshold_eq, show (971 : Int) = 1 + 970 from rfl, zpow_add₀ (by norm_num)]
  have h : (0 : ℚ) < 2 ^ (970 : Int) := zpow_pos (by norm_num) _
  generalize (2 : ℚ) ^ (970 : Int) = X at *
  norm_num
  linarith

theorem threshold_le : (2 : ℚ) ^ 1024 - 2 ^ 970 ≤ 2 ^ (52 : Int) * 2 ^ (972 : Int) := by
  rw [threshold_eq, show (972 : Int) = 1 + 971 from rfl, zpow_add₀ (by norm_num)]
  have h : (0 : ℚ) < 2 ^ (971 : Int) := zpow_pos (by norm_num) _
  generalize (2 : ℚ) ^ (971 : Int) = X at *
  norm_num
  linarith
/-- `fRound` of a non-zero magnitude: the nearest pattern of that sign, ties to even, or the infinity (R11). -/
theorem fRound_spec (s : Bool) (num den : Nat) (e : Int) (hn : num ≠ 0) (hd : den ≠ 0) :
    ((num : ℚ) / den * 2 ^ e < 2 ^ 1024 - 2 ^ 970 →
      fIsFinite (fRound s num den e) = true ∧ fSign (fRound s num den e) = s ∧
      ∀ z : F64, fIsFinite z = true →
        |(|fValue (fRound s num den e)|) - (num : ℚ) / den * 2 ^ e| ≤ |(|fValue z|) - (num : ℚ) / den * 2 ^ e| ∧
        (|(|fValue (fRound s num den e)|) - (num : ℚ) / den * 2 ^ e| = |(|fValue z|) - (num : ℚ) / den * 2 ^ e| →
          |fValue z| = |fValue (fRound s num den e)| ∨ fFrac (fRound s num den e) % 2 = 0)) ∧
    (¬ (num : ℚ) / den * 2 ^ e < 2 ^ 1024 - 2 ^ 970 → fRound s num den e = fInf s) := by
  set u := ulpExp num den e with hu
  have hu1 : -1074 ≤ u := by rw [hu]; unfold ulpExp; omega
  set n' := num * 2 ^ (e - u).toNat with hn'
  set d' := den * 2 ^ (u - e).toNat with hd'
  set m := roundHalfEven n' d' with hm
  have hd'0 : 0 < d' := by rw [hd']; positivity
  have hd'q : (0 : ℚ) < d' := by exact_mod_cast hd'0
  have p2 : ∀ k : Int, (0 : ℚ) < 2 ^ k := fun k => zpow_pos (by norm_num) k
  have hx := scaled_ratio num den e u hd
  rw [← hn', ← hd'] at hx
  set x : ℚ := (n' : ℚ) / d' with hxd
  set v : ℚ := (num : ℚ) / den * 2 ^ e with hv
  obtain ⟨hl, hr⟩ := ratioLog2_spec num den hn hd
  have hvu : v < 2 ^ (ratioLog2 num den + e + 1) := by
    rw [hv, show ratioLog2 num den + e + 1 = (ratioLog2 num den + 1) + e by ring, zpow_add₀ (by norm_num)]
    exact mul_lt_mul_of_pos_right hr (p2 e)
  have hvl : 2 ^ (ratioLog2 num den + e) ≤ v := by
    rw [hv, zpow_add₀ (by norm_num)]
    exact mul_le_mul_of_nonneg_right hl (p2 e).le
  -- x is below 2^53, and at least 2^52 unless u is the least exponent
  have hx53 : x < 2 ^ (53 : Int) := by
    have : v < 2 ^ (53 : Int) * 2 ^ u := by
      refine hvu.trans_le ?_
      rw [← zpow_add₀ (by norm_num)]
      apply zpow_le_zpow_right₀ (by norm_num)
      rw [hu]; unfold ulpExp; omega
    rw [← hx] at this
    exact lt_of_mul_lt_mul_right this (p2 u).le
  have hx52 : u ≠ -1074 → 2 ^ (52 : Int) ≤ x := by
    intro h
    have : 2 ^ (52 : Int) * 2 ^ u ≤ v := by
      refine le_trans ?_ hvl
      rw [← zpow_add₀ (by norm_num)]
      apply zpow_le_zpow_right₀ (by norm_num)
      rw [hu] at h ⊢; unfold ulpExp at h ⊢; omega
    rw [← hx] at this
    exact le_of_mul_le_mul_right this (p2 u)
  have hm53 : m ≤ 2 ^ 53 := by
    apply roundHalfEven_le _ _ _ hd'0
    have : (n' : ℚ) ≤ 2 ^ 53 * d' := by
      rw [hxd, div_lt_iff₀ hd'q] at hx53
      exact_mod_cast hx53.le
    exact_mod_cast this
  have hm52 : u ≠ -1074 → 2 ^ 52 ≤ m := by
    intro h
    apply roundHalfEven_ge _ _ _ hd'0
    have h := hx52 h
    rw [hxd, le_div_iff₀ hd'q] at h
    exact_mod_cast h
  set E := (u + 1074).toNat with hE
  have hEu : (E : Int) - 1074 = u := by omega
  have hE0 : E = 0 ∨ 2 ^ 52 ≤ m := by
    by_cases h : u = -1074
    · left; omega
    · right; exact hm52 h
  have hdef : fRound s num den e = if E * 2 ^ 52 + m < 2047 * 2 ^ 52 then fPack s (E * 2 ^ 52 + m) else fInf s := by
    unfold fRound
    rw [if_neg hn]
  -- the threshold
  have hthr : E * 2 ^ 52 + m < 2047 * 2 ^ 52 ↔ v < 2 ^ 1024 - 2 ^ 970 := by
    rcases lt_trichotomy u 971 with h | h | h
    · have h1 : v < 2 ^ 1024 - 2 ^ 970 := by
        rw [← hx]
        calc x * 2 ^ u < 2 ^ (53 : Int) * 2 ^ u := mul_lt_mul_of_pos_right hx53 (p2 u)
          _ ≤ 2 ^ (53 : Int) * 2 ^ (970 : Int) := by
            apply mul_le_mul_of_nonneg_left _ (p2 53).le
            exact zpow_le_zpow_right₀ (by norm_num) (by omega)
          _ ≤ 2 ^ 1024 - 2 ^ 970 := threshold_ge
      exact ⟨fun _ => h1, fun _ => by omega⟩
    · have hE1 : E = 2045 := by omega
      have e1 : E * 2 ^ 52 + m < 2047 * 2 ^ 52 ↔ m ≤ 2 ^ 53 - 1 := by omega
      have e2 : (n' : ℚ) < (2 ^ 53 - 1 / 2) * d' ↔ ((2 * n' : Nat) : ℚ) < (((2 * (2 ^ 53 - 1) + 1) * d' : Nat) : ℚ) := by
        rw [show (2 * (2 ^ 53 - 1) + 1 : Nat) = 18014398509481983 by norm_num]
        push_cast
        norm_num
        constructor <;> intro h <;> linarith
      rw [e1, hm, roundHalfEven_le_odd n' d' (2 ^ 53 - 1) hd'0 (by norm_num), ← hx, h, threshold_eq,
        mul_lt_mul_iff_left₀ (p2 971), hxd, div_lt_iff₀ hd'q, e2, Nat.cast_lt]
    · have hm1 := hm52 (by omega)
      have h1 : ¬ v < 2 ^ 1024 - 2 ^ 970 := by
        rw [not_lt, ← hx]
        calc (2 : ℚ) ^ 1024 - 2 ^ 970 ≤ 2 ^ (52 : Int) * 2 ^ (972 : Int) := threshold_le
          _ ≤ 2 ^ (52 : Int) * 2 ^ u := by
            apply mul_le_mul_of_nonneg_left _ (p2 52).le
            exact zpow_le_zpow_right₀ (by norm_num) (by omega)
          _ ≤ x * 2 ^ u := mul_le_mul_of_nonneg_right (hx52 (by omega)) (p2 u).le
      exact ⟨fun h2 => by omega, fun h2 => absurd h2 h1⟩
  rw [hdef]
  constructor
  · intro hlt
    rw [if_pos (hthr.2 hlt)]
    obtain ⟨hfin, hsg, hpar, hval⟩ := fValue_fPack s E m hm53 hE0 (hthr.2 hlt)
    refine ⟨hfin, hsg, fun z hz => ?_⟩
    have hmag : |fValue (fPack s (E * 2 ^ 52 + m))| = (m : ℚ) * 2 ^ u := by
      rw [hval, hEu]
      have : (0 : ℚ) ≤ (m : ℚ) * 2 ^ u := by positivity
      split
      · rw [neg_one_mul, abs_neg, abs_of_nonneg this]
      · rw [one_mul, abs_of_nonneg this]
    rw [hmag, hpar, abs_fValue z, ← hx]
    have scale : ∀ y : ℚ, |y * 2 ^ u - x * 2 ^ u| = |y - x| * 2 ^ u := by
      intro y
      rw [← sub_mul, abs_mul, abs_of_pos (p2 u)]
    by_cases hk : u ≤ fScale z
    · -- z is a multiple of 2^u
      obtain ⟨j, hj⟩ : ∃ j : Nat, fScale z = u + j := ⟨(fScale z - u).toNat, by omega⟩
      have hz' : (fMant z : ℚ) * 2 ^ fScale z = (((fMant z * 2 ^ j : Nat) : Int) : ℚ) * 2 ^ u := by
        rw [hj, zpow_add₀ (by norm_num), zpow_natCast]
        push_cast
        ring
      rw [hz', scale, scale]
      obtain ⟨h1, h2⟩ := roundHalfEven_spec n' d' hd'0 ((fMant z * 2 ^ j : Nat) : Int)
      refine ⟨mul_le_mul_of_nonneg_right h1 (p2 u).le, fun h => ?_⟩
      rcases h2 (mul_right_cancel₀ (p2 u).ne' h) with h | h
      · left
        rw [h]
        norm_cast
      · exact .inr h
    · -- z is below 2^52 units
      have hne : u ≠ -1074 := by
        have := fScale_ge z
        omega
      have hzlt : (fMant z : ℚ) * 2 ^ fScale z < 2 ^ (52 : Int) * 2 ^ u := by
        have h1 : (fMant z : ℚ) < 2 ^ (53 : Int) := by exact_mod_cast fMant_lt z
        calc (fMant z : ℚ) * 2 ^ fScale z < 2 ^ (53 : Int) * 2 ^ fScale z := mul_lt_mul_of_pos_right h1 (p2 _)
          _ ≤ 2 ^ (52 : Int) * 2 ^ u := by
            rw [← zpow_add₀ (by norm_num), ← zpow_add₀ (by norm_num)]
            exact zpow_le_zpow_right₀ (by norm_num) (by omega)
      have h52 := hx52 hne
      have h1 : |(m : ℚ) - x| ≤ |(((2 ^ 52 : Nat) : Int) : ℚ) - x| := (roundHalfEven_spec n' d' hd'0 _).1
      have e52 : (((2 ^ 52 : Nat) : Int) : ℚ) = 2 ^ (52 : Int) := by norm_num
      rw [e52, abs_of_nonpos (sub_nonpos.2 h52), neg_sub] at h1
      have h3 : |(m : ℚ) * 2 ^ u - x * 2 ^ u| < |(fMant z : ℚ) * 2 ^ fScale z - x * 2 ^ u| := by
        rw [scale]
        have h4 := mul_le_mul_of_nonneg_right h1 (p2 u).le
        rw [sub_mul] at h4
        have h5 := neg_abs_le ((fMant z : ℚ) * 2 ^ fScale z - x * 2 ^ u)
        linarith
      exact ⟨h3.le, fun h => absurd h h3.ne⟩
  · intro hge
    rw [if_neg (fun h => hge (hthr.1 h))]

/-- The sign of a value is the sign bit. -/
theorem fValue_sign (x : F64) : fValue x = (if fSign x then -1 else 1) * |fValue x| := by
  rw [abs_fValue, fValue_eq]

theorem fInf_isInf (s : Bool) : fIsInf (fInf s) = true ∧ fSign (fInf s) = s := by cases s <;> decide

theorem fZero_value (s : Bool) : fValue (fZero s) = 0 ∧ fIsFinite (fZero s) = true := by
  constructor
  · have h : fMant (fZero s) = 0 := by cases s <;> decide
    rw [fValue_eq, h]; simp
  · cases s <;> decide

/-- A zero is the correctly rounded zero. -/
theorem correctlyRounded_zero (s : Bool) : CorrectlyRounded (fZero s) 0 := by
  obtain ⟨hv, hf⟩ := fZero_value s
  unfold CorrectlyRounded
  rw [if_pos]
  · refine ⟨hf, fun z _ => ?_⟩
    rw [hv, sub_zero, sub_zero, abs_zero]
    exact ⟨abs_nonneg _, fun h => .inl (abs_eq_zero.1 h.symm)⟩
  · rw [abs_zero]
    have := threshold_ge
    have h : (0 : ℚ) < 2 ^ (53 : Int) * 2 ^ (970 : Int) := by positivity
    exact h.trans_le this

/-- `fRound` rounds ±num/den·2^e correctly (R11). -/
theorem correctlyRounded_fRound (s : Bool) (num den : Nat) (e : Int) (hd : den ≠ 0) :
    CorrectlyRounded (fRound s num den e) ((if s then -1 else 1) * ((num : ℚ) / den * 2 ^ e)) := by
  by_cases hn : num = 0
  · subst hn
    have : fRound s 0 den e = fZero s := rfl
    rw [this]
    simpa using correctlyRounded_zero s
  · obtain ⟨hfin, hinf⟩ := fRound_spec s num den e hn hd
    generalize fRound s num den e = r at *
    have hv : (0 : ℚ) < (num : ℚ) / den * 2 ^ e := by
      have h1 : (0 : ℚ) < num := by exact_mod_cast Nat.pos_of_ne_zero hn
      have h2 : (0 : ℚ) < den := by exact_mod_cast Nat.pos_of_ne_zero hd
      positivity
    generalize (num : ℚ) / den * 2 ^ e = v at *
    have habs : |(if s then (-1 : ℚ) else 1) * v| = v := by
      cases s
      · simp [abs_of_pos hv]
      · simp [abs_of_pos hv]
    unfold CorrectlyRounded
    rw [habs]
    split
    · rename_i h
      obtain ⟨hf, hs, hz⟩ := hfin h
      refine ⟨hf, fun z hzf => ?_⟩
      obtain ⟨h1, h2⟩ := hz z hzf
      have er : |fValue r - (if s then -1 else 1) * v| = |(|fValue r|) - v| := by
        rw [fValue_sign r, hs, ← mul_sub, abs_mul, abs_mul, abs_abs]
        cases s <;> simp
      have ez : |(|fValue z|) - v| ≤ |fValue z - (if s then -1 else 1) * v| ∧
          (|(|fValue z|) - v| = |fValue z - (if s then -1 else 1) * v| → fValue z = (if s then -1 else 1) * |fValue z|) := by
        cases s
        · simp only [Bool.false_eq_true, if_false, one_mul]
          refine ⟨?_, fun h => ?_⟩
          · have := abs_abs_sub_abs_le (fValue z) v
            rwa [abs_of_pos hv] at this
          · rcases le_total 0 (fValue z) with h0 | h0
            · exact (abs_of_nonneg h0).symm
            · rw [abs_of_nonpos h0] at h ⊢
              rw [abs_of_nonpos (by linarith : fValue z - v ≤ 0)] at h
              rcases abs_cases (-fValue z - v) with ⟨h', _⟩ | ⟨h', _⟩ <;> rw [h'] at h <;> linarith
        · simp only [if_true, neg_one_mul, sub_neg_eq_add]
          refine ⟨?_, fun h => ?_⟩
          · have := abs_abs_sub_abs_le (fValue z) (-v)
            rwa [abs_neg, abs_of_pos hv, sub_neg_eq_add] at this
          · rcases le_total 0 (fValue z) with h0 | h0
            · rw [abs_of_nonneg h0] at h ⊢
              rw [abs_of_nonneg (by linarith : 0 ≤ fValue z + v)] at h
              rcases abs_cases (fValue z - v) with ⟨h', _⟩ | ⟨h', _⟩ <;> rw [h'] at h <;> linarith
            · rw [abs_of_nonpos h0, neg_neg]
      rw [er]
      refine ⟨h1.trans ez.1, fun h => ?_⟩
      have hzz : |(|fValue z|) - v| = |fValue z - (if s then -1 else 1) * v| := le_antisymm ez.1 (h ▸ h1)
      rcases h2 (h.trans hzz.symm) with h3 | h3
      · left
        rw [ez.2 hzz, fValue_sign r, hs, h3]
      · exact .inr h3
    · rename_i h
      rw [hinf h]
      obtain ⟨h1, h2⟩ := fInf_isInf s
      refine ⟨h1, ?_⟩
      rw [h2]
      cases s
      · simp [hv.le]
      · simp [hv]

/-- Changing the sign. -/
theorem fNeg_spec (y : F64) : fValue (fNeg y) = - fValue y ∧ fIsFinite (fNeg y) = fIsFinite y := by
  have hs : fSign (fNeg y) = !fSign y := by
    unfold fSign fNeg; rw [BitVec.msb_xor, show (0x8000000000000000#64).msb = true by decide, Bool.xor_true]
  have he : fExp (fNeg y) = fExp y := by
    unfold fExp fNeg
    congr 1
    apply BitVec.eq_of_getLsbD_eq
    intro i hi
    have h : ∀ i : Fin 11, (0x8000000000000000#64).getLsbD (52 + i.val) = false := by decide
    simp only [BitVec.getLsbD_extractLsb', BitVec.getLsbD_xor, h ⟨i, hi⟩, Bool.xor_false]
  have hf : fFrac (fNeg y) = fFrac y := by
    unfold fFrac fNeg
    congr 1
    apply BitVec.eq_of_getLsbD_eq
    intro i hi
    have h : ∀ i : Fin 52, (0x8000000000000000#64).getLsbD (0 + i.val) = false := by decide
    simp only [BitVec.getLsbD_extractLsb', BitVec.getLsbD_xor, h ⟨i, hi⟩, Bool.xor_false]
  constructor
  · rw [fValue_eq, fValue_eq]
    have e1 : fMant (fNeg y) = fMant y := by unfold fMant; rw [he, hf]
    have e2 : fScale (fNeg y) = fScale y := by unfold fScale; rw [he]
    rw [hs, e1, e2]
    cases fSign y <;> simp
  · unfold fIsFinite; rw [he]

theorem isFinite_not (z : F64) (h : fIsFinite z = true) : fIsNaN z = false ∧ fIsInf z = false := by
  unfold fIsFinite at h
  unfold fIsNaN fIsInf
  simp at h
  simp [h]

theorem fIsZero_of_value (y : F64) (h : fValue y ≠ 0) : fIsZero y = false ∧ fMant y ≠ 0 := by
  have hm : fMant y ≠ 0 := by
    intro e
    apply h
    rw [fValue_eq, e]
    simp
  refine ⟨?_, hm⟩
  unfold fIsZero
  unfold fMant at hm
  by_contra hc
  simp at hc
  simp [hc] at hm

/-- The operations on finite operands. -/
theorem fAdd_finite (x y : F64) (hx : fIsFinite x = true) (hy : fIsFinite y = true) : fAdd x y = fAddFinite x y := by
  unfold fAdd; simp [hx, hy]

theorem fMul_finite (x y : F64) (hx : fIsFinite x = true) (hy : fIsFinite y = true) :
    fMul x y = fRound (fSign x ^^ fSign y) (fMant x * fMant y) 1 (fScale x + fScale y) := by
  unfold fMul; simp [hx, hy]

theorem fDiv_finite (x y : F64) (hx : fIsFinite x = true) (hy : fIsFinite y = true) (h : fValue y ≠ 0) :
    fDiv x y = fRound (fSign x ^^ fSign y) (fMant x) (fMant y) (fScale x - fScale y) := by
  unfold fDiv
  simp [isFinite_not x hx, isFinite_not y hy, fIsZero_of_value y h]

/-- A correctly rounded value is no larger in magnitude than a finite pattern that bounds the exact one. -/
theorem correctlyRounded_abs_le {r : F64} {v : ℚ} (h : CorrectlyRounded r v) (z : F64) (hz : fIsFinite z = true)
    (hv : |v| ≤ |fValue z|) (ht : |fValue z| < 2 ^ 1024 - 2 ^ 970) :
    fIsFinite r = true ∧ |fValue r| ≤ |fValue z| := by
  unfold CorrectlyRounded at h
  rw [if_pos (hv.trans_lt ht)] at h
  obtain ⟨hf, hn⟩ := h
  refine ⟨hf, ?_⟩
  have h1 := (hn z hz).1
  have h2 := (hn (fNeg z) (by rw [(fNeg_spec z).2]; exact hz)).1
  rw [(fNeg_spec z).1] at h2
  have hle := abs_le.1 hv
  rcases le_total 0 (fValue z) with h0 | h0
  · rw [abs_of_nonneg h0] at hle ⊢
    rw [abs_of_nonneg (by linarith : 0 ≤ fValue z - v)] at h1
    rw [abs_of_nonpos (by linarith : -fValue z - v ≤ 0)] at h2
    have a1 := abs_le.1 h1
    have a2 := abs_le.1 h2
    exact abs_le.2 ⟨by linarith, by linarith⟩
  · rw [abs_of_nonpos h0] at hle ⊢
    rw [abs_of_nonpos (by linarith : fValue z - v ≤ 0)] at h1
    rw [abs_of_nonneg (by linarith : 0 ≤ -fValue z - v)] at h2
    have a1 := abs_le.1 h1
    have a2 := abs_le.1 h2
    exact abs_le.2 ⟨by linarith, by linarith⟩

end Sys2Proof.Machine
end

