-- ==== Sys2Proof/Laws/Block.lean ====
section
/-! SUPPORT. Buffers and block passes: one lemma for each way to read what an operation wrote. -/

namespace Sys2Proof.Machine

variable {α β : Type}

/-! ### Buffers (R45, R275) -/

@[simp] theorem Buffer.full_data_getElem (f : Fin 64 → α) (k : Nat) (h : k < 64) :
    (Buffer.full f).data[k] = f ⟨k, h⟩ := by
  simp [Buffer.full]

theorem Buffer.full_data_get (f : Fin 64 → α) (k : Fin 64) : (Buffer.full f).data[k] = f k := by
  simp

@[simp] theorem Buffer.full_valid (f : Fin 64 → α) : (Buffer.full f).valid = Vector.replicate 64 true := rfl

@[simp] theorem Buffer.full_allValid (f : Fin 64 → α) : (Buffer.full f).allValid = true := by
  simp [Buffer.allValid, Buffer.full]

theorem Buffer.allValid_iff (b : Buffer α) : b.allValid = true ↔ ∀ k : Fin 64, b.valid[k] = true := by
  simp only [Buffer.allValid, Vector.all_eq_true, id]
  exact ⟨fun h k => h k.val k.isLt, fun h i hi => h ⟨i, hi⟩⟩

theorem Buffer.get?_of_valid (b : Buffer α) (k : Fin 64) (h : b.valid[k] = true) : b.get? k = some b.data[k] := by
  unfold Buffer.get?; rw [if_pos h]

theorem Buffer.get?_of_invalid (b : Buffer α) (k : Fin 64) (h : b.valid[k] = false) : b.get? k = none := by
  unfold Buffer.get?; rw [if_neg (by simp [h])]

@[simp] theorem Buffer.put_data_same (b : Buffer α) (k : Fin 64) (v : α) : (b.put k v).data[k.val] = v := by
  simp [Buffer.put]

@[simp] theorem Buffer.put_valid_same (b : Buffer α) (k : Fin 64) (v : α) : (b.put k v).valid[k.val] = true := by
  simp [Buffer.put]

theorem Buffer.put_data_other (b : Buffer α) (k j : Fin 64) (v : α) (h : j ≠ k) :
    (b.put k v).data[j] = b.data[j] := by
  have hv : ¬ k.val = j.val := fun e => h (Fin.ext e.symm)
  simp [Buffer.put, hv]

theorem Buffer.put_valid_other (b : Buffer α) (k j : Fin 64) (v : α) (h : j ≠ k) :
    (b.put k v).valid[j] = b.valid[j] := by
  have hv : ¬ k.val = j.val := fun e => h (Fin.ext e.symm)
  simp [Buffer.put, hv]

/-- A write never makes another element invalid (R275). -/
theorem Buffer.put_valid_mono (b : Buffer α) (k j : Fin 64) (v : α) (h : b.valid[j] = true) :
    (b.put k v).valid[j] = true := by
  by_cases e : j = k
  · subst e; exact b.put_valid_same j v
  · rw [b.put_valid_other k j v e]; exact h

/-! ### Rows, columns and passes (R145, R146) -/

@[simp] theorem rowOf_get (b : Vector α 64) (i j : Fin 8) : (rowOf b i)[j] = b[8 * i.val + j.val] := by
  simp [rowOf]

@[simp] theorem colOf_get (b : Vector α 64) (i j : Fin 8) : (colOf b i)[j] = b[8 * j.val + i.val] := by
  simp [colOf]

/-- Output j of row i is at index 8i + j. -/
theorem mapRows_get (f : Vector α 8 → Vector β 8) (b : Vector α 64) (i j : Fin 8) :
    (mapRows f b)[8 * i.val + j.val] = (f (rowOf b i))[j] := by
  have h1 : (8 * i.val + j.val) / 8 = i.val := by omega
  have h2 : (8 * i.val + j.val) % 8 = j.val := by omega
  simp [mapRows, h1, h2]

/-- Output j of column c is at index 8j + c. -/
theorem mapCols_get (f : Vector α 8 → Vector β 8) (b : Vector α 64) (i j : Fin 8) :
    (mapCols f b)[8 * j.val + i.val] = (f (colOf b i))[j] := by
  have h1 : (8 * j.val + i.val) / 8 = j.val := by omega
  have h2 : (8 * j.val + i.val) % 8 = i.val := by omega
  simp [mapCols, h1, h2]

/-- Every natural index is 8i + j for its row i and column j (R13). -/
theorem index_split (k : Fin 64) : ∃ i j : Fin 8, k.val = 8 * i.val + j.val :=
  ⟨⟨k.val / 8, by omega⟩, ⟨k.val % 8, by omega⟩, by simp only; omega⟩

/-- Two blocks that agree at every row and column are equal. -/
theorem block_ext (u v : Vector α 64)
    (h : ∀ i j : Fin 8, u[8 * i.val + j.val] = v[8 * i.val + j.val]) : u = v := by
  ext k hk
  obtain ⟨i, j, e⟩ := index_split ⟨k, hk⟩
  simp only at e
  subst e
  exact h i j

theorem mapRows_congr (f g : Vector α 8 → Vector β 8) (b : Vector α 64) (h : ∀ x, f x = g x) :
    mapRows f b = mapRows g b := by
  have e : f = g := funext h
  rw [e]

theorem mapCols_congr (f g : Vector α 8 → Vector β 8) (b : Vector α 64) (h : ∀ x, f x = g x) :
    mapCols f b = mapCols g b := by
  have e : f = g := funext h
  rw [e]

/-! ### Packing (R67) -/

/-- The two words of a binary64 pattern hold it whole. -/
theorem highWord_append_lowWord (x : F64) : highWord x ++ lowWord x = x := by
  unfold highWord lowWord
  apply BitVec.eq_of_getLsbD_eq
  intro i hi
  rw [BitVec.getLsbD_append]
  by_cases h : i < 32
  · simp [h]
  · simp [h, show i - 32 < 32 by omega, show 32 + (i - 32) = i by omega]

end Sys2Proof.Machine
end

