-- ==== Sys2Proof/Laws/Decode.lean ====
section
/-! SUPPORT. Decoding and encoding: the inversion of `decode`, and the range of what it decodes (R92, R93, R98). -/

namespace Sys2Proof

theorem clampInt_low (x lo hi : Int) (h : lo ≤ hi) : lo ≤ clampInt x lo hi := by
  unfold clampInt; split
  · exact le_refl _
  · split <;> omega

theorem clampInt_high (x lo hi : Int) (h : lo ≤ hi) : clampInt x lo hi ≤ hi := by
  unfold clampInt; split
  · exact h
  · split <;> omega

theorem clampInt_of_mem (x lo hi : Int) (h : lo ≤ x) (h' : x ≤ hi) : clampInt x lo hi = x := by
  unfold clampInt; rw [if_neg (by omega), if_neg (by omega)]

theorem clampInt_mono (x y lo hi : Int) (hl : lo ≤ hi) (h : x ≤ y) : clampInt x lo hi ≤ clampInt y lo hi := by
  unfold clampInt; split <;> split <;> (try split) <;> omega

/-- A command comes from a word with a legal opcode and no reserved bit (R97, R98). -/
theorem decode_eq_command (w : Word) (i : Instr) :
    decode w = .command i ↔ ∃ m, rmask (opcField w).toNat = some m ∧ w &&& m = 0#32 ∧ decodeLegal w = i := by
  unfold decode
  split <;> rename_i h
  · simp [h]
  · split <;> rename_i h' <;> simp [h, h']

/-- Legal opcodes are 0 to 4 (R96). -/
theorem rmask_some (n : Nat) (m : Word) (h : rmask n = some m) : n ≤ 4 := by
  unfold rmask at h
  split at h <;> simp_all

theorem decode_opc_legal (w : Word) (i : Instr) (h : decode w = .command i) : (opcField w).toNat ≤ 4 := by
  obtain ⟨m, hm, _⟩ := (decode_eq_command w i).1 h
  exact rmask_some _ m hm

/-- What decoding leaves is well formed: the clamps put the operands in their ranges (R92, R93). -/
theorem decode_wellFormed (w : Word) (i : Instr) (h : decode w = .command i) : i.WellFormed := by
  obtain ⟨m, _, _, rfl⟩ := (decode_eq_command w i).1 h
  have hq := clampInt_low (qualityField w) 1 100 (by decide)
  have hq' := clampInt_high (qualityField w) 1 100 (by decide)
  have hs := clampInt_high (startField w) 0 64 (by decide)
  have he := clampInt_high (stopField w) 0 64 (by decide)
  unfold decodeLegal
  split <;> simp [Instr.WellFormed, Instr.wellFormed] <;> omega

/-- The five forms a command word decodes to, by opcode (R91, R98). -/
theorem decode_cases (w : Word) (i : Instr) (h : decode w = .command i) :
    i = .nop ∨ (∃ q, i = .buildqt q ∧ 1 ≤ q ∧ q ≤ 100) ∨ (∃ m, i = .fdct m) ∨
      (∃ a b, i = .mask a b ∧ a ≤ 64 ∧ b ≤ 64) ∨ (∃ c, i = .idct c) := by
  have hw := decode_wellFormed w i h
  cases i with
  | nop => exact .inl rfl
  | buildqt q =>
    simp only [Instr.WellFormed, Instr.wellFormed, Bool.and_eq_true, decide_eq_true_eq] at hw
    exact .inr (.inl ⟨q, rfl, hw⟩)
  | fdct m => exact .inr (.inr (.inl ⟨m, rfl⟩))
  | mask a b =>
    simp only [Instr.WellFormed, Instr.wellFormed, Bool.and_eq_true, decide_eq_true_eq] at hw
    exact .inr (.inr (.inr (.inl ⟨a, b, rfl, hw⟩)))
  | idct c => exact .inr (.inr (.inr (.inr ⟨c, rfl⟩)))

/-- A word is its four byte lanes (R68). -/
theorem wordOfLanes_laneByte (w : Word) :
    wordOfLanes (laneByte w 0) (laneByte w 1) (laneByte w 2) (laneByte w 3) = w := by
  unfold wordOfLanes laneByte
  ext i hi
  simp only [BitVec.getElem_append, BitVec.getElem_extractLsb', Fin.isValue]
  split
  · simp [BitVec.getLsbD_eq_getElem hi]
  · split
    · rename_i h1 h2
      simp only [Fin.val_one]
      rw [show 8 * 1 + (i - 8) = i by omega, BitVec.getLsbD_eq_getElem hi]
    · split
      · rename_i h1 h2 h3
        simp only [Fin.val_two]
        rw [show 8 * 2 + (i - 8 - 8) = i by omega, BitVec.getLsbD_eq_getElem hi]
      · rename_i h1 h2 h3
        rw [show 8 * ((3 : Fin 4) : Nat) + (i - 8 - 8 - 8) = i by simp; omega, BitVec.getLsbD_eq_getElem hi]

/-- The decoder of an opcode-table row is `decode` of its word. -/
theorem decodeTableWord_eq (n w : Nat) (hn : n ≤ 32) (i : Instr) (h : decode (tableWord n w) = .command i) :
    decodeTableWord n w = some i := by
  unfold decodeTableWord
  simp only [hn, if_true, wordOfLanes_laneByte, h]

end Sys2Proof
end

