-- ==== Sys2Proof/Laws/Flags.lean ====
section
/-! SUPPORT. The register words: which bit of STATUS and of CTRL is which field (R36, R38). -/

namespace Sys2Proof.Machine

/-- Bits 4:0 of STATUS. -/
theorem Status.word_flags (t : Status) :
    t.word.getLsbD 0 = t.busy ∧ t.word.getLsbD 1 = t.done ∧ t.word.getLsbD 2 = t.err ∧ t.word.getLsbD 3 = t.eovf ∧
    t.word.getLsbD 4 = t.tv := by
  unfold Status.word
  refine ⟨?_, ?_, ?_, ?_, ?_⟩ <;> simp only [BitVec.getLsbD_append] <;> simp

/-- Bits 11:8 of STATUS. -/
theorem Status.word_errcode (t : Status) : t.word.extractLsb' 8 4 = t.errcode.code := by
  unfold Status.word
  apply BitVec.eq_of_getLsbD_eq; intro i hi
  simp only [BitVec.getLsbD_extractLsb', BitVec.getLsbD_append, BitVec.getLsbD_ofBool]
  simp [hi]

/-- Bits 19:16 of STATUS. -/
theorem Status.word_lastop (t : Status) : t.word.extractLsb' 16 4 = t.lastop := by
  unfold Status.word
  apply BitVec.eq_of_getLsbD_eq; intro i hi
  simp only [BitVec.getLsbD_extractLsb', BitVec.getLsbD_append]
  have h : ¬ 11 + i < 3 := by omega
  have h1 : 11 + i - 3 = 8 + i := by omega
  have h2 : 8 + i - 4 = 4 + i := by omega
  have h3 : ¬ 8 + i < 4 := by omega
  simp [hi, h, h1, h2, h3]

/-- The reserved bits of STATUS read 0. -/
theorem Status.word_reserved (t : Status) : t.word &&& 0xFFF0F0E0#32 = 0#32 := by
  unfold Status.word
  apply BitVec.eq_of_getLsbD_eq; intro i hi
  rw [BitVec.getLsbD_and]
  interval_cases i <;> simp only [BitVec.getLsbD_append] <;> simp

/-- CTRL's two bits, and every other bit 0. -/
theorem Ctrl.word_spec (c : Ctrl) :
    c.word.getLsbD 0 = c.doneIe ∧ c.word.getLsbD 1 = c.errIe ∧ c.word &&& 0xFFFFFFFC#32 = 0#32 := by
  rcases c with ⟨a, b⟩
  cases a <;> cases b <;> decide

end Sys2Proof.Machine
end

