-- ==== Sys2Proof/Laws/State.lean ====
section
/-! SUPPORT. One lemma per field per update of the state: what each named operation does to each field, so that no
later proof unfolds a record update. -/

namespace Sys2Proof.Machine


/-! ### recordError: only STATUS and ERRINFO (R243) -/

@[simp] theorem recordError_pixIn (e : ErrCode) (i : Word) (s : State) : (recordError e i s).pixIn = s.pixIn := by
  unfold recordError; split <;> rfl

@[simp] theorem recordError_coef (e : ErrCode) (i : Word) (s : State) : (recordError e i s).coef = s.coef := by
  unfold recordError; split <;> rfl

@[simp] theorem recordError_mcoef (e : ErrCode) (i : Word) (s : State) : (recordError e i s).mcoef = s.mcoef := by
  unfold recordError; split <;> rfl

@[simp] theorem recordError_pixOut (e : ErrCode) (i : Word) (s : State) : (recordError e i s).pixOut = s.pixOut := by
  unfold recordError; split <;> rfl

@[simp] theorem recordError_qt (e : ErrCode) (i : Word) (s : State) : (recordError e i s).qt = s.qt := by
  unfold recordError; split <;> rfl

@[simp] theorem recordError_ft (e : ErrCode) (i : Word) (s : State) : (recordError e i s).ft = s.ft := by
  unfold recordError; split <;> rfl

@[simp] theorem recordError_w (e : ErrCode) (i : Word) (s : State) : (recordError e i s).w = s.w := by
  unfold recordError; split <;> rfl

@[simp] theorem recordError_quality (e : ErrCode) (i : Word) (s : State) : (recordError e i s).quality = s.quality := by
  unfold recordError; split <;> rfl

@[simp] theorem recordError_sf (e : ErrCode) (i : Word) (s : State) : (recordError e i s).sf = s.sf := by
  unfold recordError; split <;> rfl

@[simp] theorem recordError_phase (e : ErrCode) (i : Word) (s : State) : (recordError e i s).phase = s.phase := by
  unfold recordError; split <;> rfl

@[simp] theorem recordError_ctrl (e : ErrCode) (i : Word) (s : State) : (recordError e i s).ctrl = s.ctrl := by
  unfold recordError; split <;> rfl

@[simp] theorem recordError_pend (e : ErrCode) (i : Word) (s : State) : (recordError e i s).pend = s.pend := by
  unfold recordError; split <;> rfl

@[simp] theorem recordError_schedule (e : ErrCode) (i : Word) (s : State) : (recordError e i s).schedule = s.schedule := by
  unfold recordError; split <;> rfl

@[simp] theorem recordError_reply (e : ErrCode) (i : Word) (s : State) : (recordError e i s).reply = s.reply := by
  unfold recordError; split <;> rfl

@[simp] theorem recordError_draws (e : ErrCode) (i : Word) (s : State) : (recordError e i s).draws = s.draws := by
  unfold recordError; split <;> rfl

@[simp] theorem recordError_busy (e : ErrCode) (i : Word) (s : State) :
    (recordError e i s).status.busy = s.status.busy := by
  unfold recordError; split <;> rfl

@[simp] theorem recordError_done (e : ErrCode) (i : Word) (s : State) :
    (recordError e i s).status.done = s.status.done := by
  unfold recordError; split <;> rfl

@[simp] theorem recordError_tv (e : ErrCode) (i : Word) (s : State) :
    (recordError e i s).status.tv = s.status.tv := by
  unfold recordError; split <;> rfl

@[simp] theorem recordError_lastop (e : ErrCode) (i : Word) (s : State) :
    (recordError e i s).status.lastop = s.status.lastop := by
  unfold recordError; split <;> rfl

@[simp] theorem recordError_err (e : ErrCode) (i : Word) (s : State) : (recordError e i s).status.err = true := by
  unfold recordError; split <;> simp_all


/-! ### answer: only the reply -/

@[simp] theorem answer_pixIn (r : Reply) (s : State) : (answer r s).pixIn = s.pixIn := rfl

@[simp] theorem answer_coef (r : Reply) (s : State) : (answer r s).coef = s.coef := rfl

@[simp] theorem answer_mcoef (r : Reply) (s : State) : (answer r s).mcoef = s.mcoef := rfl

@[simp] theorem answer_pixOut (r : Reply) (s : State) : (answer r s).pixOut = s.pixOut := rfl

@[simp] theorem answer_qt (r : Reply) (s : State) : (answer r s).qt = s.qt := rfl

@[simp] theorem answer_ft (r : Reply) (s : State) : (answer r s).ft = s.ft := rfl

@[simp] theorem answer_w (r : Reply) (s : State) : (answer r s).w = s.w := rfl

@[simp] theorem answer_quality (r : Reply) (s : State) : (answer r s).quality = s.quality := rfl

@[simp] theorem answer_sf (r : Reply) (s : State) : (answer r s).sf = s.sf := rfl

@[simp] theorem answer_phase (r : Reply) (s : State) : (answer r s).phase = s.phase := rfl

@[simp] theorem answer_ctrl (r : Reply) (s : State) : (answer r s).ctrl = s.ctrl := rfl

@[simp] theorem answer_status (r : Reply) (s : State) : (answer r s).status = s.status := rfl

@[simp] theorem answer_errinfo (r : Reply) (s : State) : (answer r s).errinfo = s.errinfo := rfl

@[simp] theorem answer_pend (r : Reply) (s : State) : (answer r s).pend = s.pend := rfl

@[simp] theorem answer_schedule (r : Reply) (s : State) : (answer r s).schedule = s.schedule := rfl

@[simp] theorem answer_reply (r : Reply) (s : State) : (answer r s).reply = some r := rfl

@[simp] theorem answer_draws (r : Reply) (s : State) : (answer r s).draws = s.draws := rfl


/-! ### finish: only PEND, BUSY and DONE (R224) -/

@[simp] theorem finish_pixIn (s : State) : (finish s).pixIn = s.pixIn := rfl

@[simp] theorem finish_coef (s : State) : (finish s).coef = s.coef := rfl

@[simp] theorem finish_mcoef (s : State) : (finish s).mcoef = s.mcoef := rfl

@[simp] theorem finish_pixOut (s : State) : (finish s).pixOut = s.pixOut := rfl

@[simp] theorem finish_qt (s : State) : (finish s).qt = s.qt := rfl

@[simp] theorem finish_ft (s : State) : (finish s).ft = s.ft := rfl

@[simp] theorem finish_w (s : State) : (finish s).w = s.w := rfl

@[simp] theorem finish_quality (s : State) : (finish s).quality = s.quality := rfl

@[simp] theorem finish_sf (s : State) : (finish s).sf = s.sf := rfl

@[simp] theorem finish_phase (s : State) : (finish s).phase = s.phase := rfl

@[simp] theorem finish_ctrl (s : State) : (finish s).ctrl = s.ctrl := rfl

@[simp] theorem finish_errinfo (s : State) : (finish s).errinfo = s.errinfo := rfl

@[simp] theorem finish_schedule (s : State) : (finish s).schedule = s.schedule := rfl

@[simp] theorem finish_reply (s : State) : (finish s).reply = s.reply := rfl

@[simp] theorem finish_draws (s : State) : (finish s).draws = s.draws := rfl

@[simp] theorem finish_pend (s : State) : (finish s).pend = .idle := rfl

@[simp] theorem finish_busy (s : State) : (finish s).status.busy = false := rfl

@[simp] theorem finish_done (s : State) : (finish s).status.done = true := rfl

@[simp] theorem finish_err (s : State) : (finish s).status.err = s.status.err := rfl

@[simp] theorem finish_eovf (s : State) : (finish s).status.eovf = s.status.eovf := rfl

@[simp] theorem finish_tv (s : State) : (finish s).status.tv = s.status.tv := rfl

@[simp] theorem finish_errcode (s : State) : (finish s).status.errcode = s.status.errcode := rfl

@[simp] theorem finish_lastop (s : State) : (finish s).status.lastop = s.status.lastop := rfl


/-! ### resetState: R46, with the schedule kept (R270) -/

@[simp] theorem resetState_quality (s : State) : (resetState s).quality = 0#7 := by simp only [resetState]; rfl

@[simp] theorem resetState_sf (s : State) : (resetState s).sf = 0#13 := by simp only [resetState]; rfl

@[simp] theorem resetState_phase (s : State) : (resetState s).phase = ⟨0#7, 0#7⟩ := by simp only [resetState]; rfl

@[simp] theorem resetState_ctrl (s : State) : (resetState s).ctrl = ⟨false, false⟩ := by simp only [resetState]; rfl

@[simp] theorem resetState_status (s : State) : (resetState s).status = Status.reset := by simp only [resetState]; rfl

@[simp] theorem resetState_errinfo (s : State) : (resetState s).errinfo = 0#32 := by simp only [resetState]; rfl

@[simp] theorem resetState_pend (s : State) : (resetState s).pend = .idle := by simp only [resetState]; rfl

@[simp] theorem resetState_schedule (s : State) : (resetState s).schedule = s.schedule := by simp only [resetState]

@[simp] theorem resetState_reply (s : State) : (resetState s).reply = none := by simp only [resetState]; rfl

@[simp] theorem resetState_draws (s : State) : (resetState s).draws = s.draws + 1 := by simp only [resetState]

@[simp] theorem resetState_pixIn_valid (s : State) : (resetState s).pixIn.valid = Vector.replicate 64 false := rfl

@[simp] theorem resetState_coef_valid (s : State) : (resetState s).coef.valid = Vector.replicate 64 false := rfl

@[simp] theorem resetState_mcoef_valid (s : State) : (resetState s).mcoef.valid = Vector.replicate 64 false := rfl

@[simp] theorem resetState_pixOut_valid (s : State) : (resetState s).pixOut.valid = Vector.replicate 64 false := rfl


/-! ### accept: only the error record, PEND, BUSY, DONE and LASTOP (R221) -/

@[simp] theorem accept_pixIn (v : Word) (s : State) : (accept v s).pixIn = s.pixIn := by
  unfold accept; split
  · simp
  · split <;> simp

@[simp] theorem accept_coef (v : Word) (s : State) : (accept v s).coef = s.coef := by
  unfold accept; split
  · simp
  · split <;> simp

@[simp] theorem accept_mcoef (v : Word) (s : State) : (accept v s).mcoef = s.mcoef := by
  unfold accept; split
  · simp
  · split <;> simp

@[simp] theorem accept_pixOut (v : Word) (s : State) : (accept v s).pixOut = s.pixOut := by
  unfold accept; split
  · simp
  · split <;> simp

@[simp] theorem accept_qt (v : Word) (s : State) : (accept v s).qt = s.qt := by
  unfold accept; split
  · simp
  · split <;> simp

@[simp] theorem accept_ft (v : Word) (s : State) : (accept v s).ft = s.ft := by
  unfold accept; split
  · simp
  · split <;> simp

@[simp] theorem accept_w (v : Word) (s : State) : (accept v s).w = s.w := by
  unfold accept; split
  · simp
  · split <;> simp

@[simp] theorem accept_quality (v : Word) (s : State) : (accept v s).quality = s.quality := by
  unfold accept; split
  · simp
  · split <;> simp

@[simp] theorem accept_sf (v : Word) (s : State) : (accept v s).sf = s.sf := by
  unfold accept; split
  · simp
  · split <;> simp

@[simp] theorem accept_phase (v : Word) (s : State) : (accept v s).phase = s.phase := by
  unfold accept; split
  · simp
  · split <;> simp

@[simp] theorem accept_ctrl (v : Word) (s : State) : (accept v s).ctrl = s.ctrl := by
  unfold accept; split
  · simp
  · split <;> simp

@[simp] theorem accept_schedule (v : Word) (s : State) : (accept v s).schedule = s.schedule := by
  unfold accept; split
  · simp
  · split <;> simp

@[simp] theorem accept_reply (v : Word) (s : State) : (accept v s).reply = s.reply := by
  unfold accept; split
  · simp
  · split <;> simp

@[simp] theorem accept_draws (v : Word) (s : State) : (accept v s).draws = s.draws := by
  unfold accept; split
  · simp
  · split <;> simp

@[simp] theorem accept_tv (v : Word) (s : State) : (accept v s).status.tv = s.status.tv := by
  unfold accept; split
  · simp
  · split <;> simp


end Sys2Proof.Machine
end

