-- ==== Sys2Proof/Laws/Ops.lean ====
section
/-! SUPPORT. The shared operations, each said once: what the address map gives, and everything a host access, an
acceptance or a completion can do. -/

namespace Sys2Proof.Machine

/-! ### The error record (R243) -/

theorem recordError_eq_withError (e : ErrCode) (i : Word) (s : State) : recordError e i s = withError e i s := by
  unfold recordError withError
  cases h : s.status.err
  · simp
  · obtain ⟨_, _, _, _, _, _, _, _, _, _, _, ⟨_, _, er, _, _, _, _⟩, _, _, _, _, _⟩ := s
    simp at h; subst h; simp

/-! ### The address map (R62) -/

theorem locate_offset (l : Loc) : locate l.offset = some l := by
  cases l with
  | pixIn k => revert k; decide +kernel
  | coef k => revert k; decide +kernel
  | mcoef k => revert k; decide +kernel
  | pixOut k => revert k; decide +kernel
  | qt k => revert k; decide +kernel
  | ftLow k => revert k; decide +kernel
  | ftHigh k => revert k; decide +kernel
  | zzToNat k => revert k; decide +kernel
  | natToZz k => revert k; decide +kernel
  | baseZz k => revert k; decide +kernel
  | aanLow k => revert k; decide +kernel
  | aanHigh k => revert k; decide +kernel
  | _ => decide

theorem misaligned_iff (a : Addr) : misaligned a = true ↔ a.toNat % 4 ≠ 0 := by
  unfold misaligned
  have h : (a.extractLsb' 0 2).toNat = a.toNat % 4 := by simp [BitVec.extractLsb'_toNat]
  rw [bne_iff_ne, ne_eq, ← BitVec.toNat_inj, h]; simp

theorem misaligned_offset (l : Loc) : misaligned l.offset = false := by
  cases l with
  | pixIn k => revert k; decide +kernel
  | coef k => revert k; decide +kernel
  | mcoef k => revert k; decide +kernel
  | pixOut k => revert k; decide +kernel
  | qt k => revert k; decide +kernel
  | ftLow k => revert k; decide +kernel
  | ftHigh k => revert k; decide +kernel
  | zzToNat k => revert k; decide +kernel
  | natToZz k => revert k; decide +kernel
  | baseZz k => revert k; decide +kernel
  | aanLow k => revert k; decide +kernel
  | aanHigh k => revert k; decide +kernel
  | _ => decide

/-- Every aligned mapped offset is its location's offset: checked offset by offset. -/
theorem offset_of_locate_all : ∀ i j : Fin 64,
    (misaligned (BitVec.ofNat 12 (64 * i.val + j.val)) ||
      (locate (BitVec.ofNat 12 (64 * i.val + j.val))).all
        fun l => decide (l.offset = BitVec.ofNat 12 (64 * i.val + j.val))) = true := by
  decide +kernel

theorem offset_of_locate (a : Addr) (l : Loc) (ha : misaligned a = false) (h : locate a = some l) :
    l.offset = a := by
  have hlt := a.isLt
  have key := offset_of_locate_all ⟨a.toNat / 64, by omega⟩ ⟨a.toNat % 64, by omega⟩
  have e : BitVec.ofNat 12 (64 * (a.toNat / 64) + a.toNat % 64) = a := by
    rw [Nat.div_add_mod, BitVec.ofNat_toNat, BitVec.setWidth_eq]
  simpa [e, ha, h] using key

/-! ### The access checks (R64): Safety's ranges and the map agree -/

theorem writeCheck_eq (a : Addr) (b : Bool) : writeCheck a.toNat b =
    if misaligned a then some .busMisaligned else
      match locate a with
      | none => some .busUnmapped
      | some l =>
        if l.readOnly then some .busReadonly else if b && l.busyBlocked then some .busBusy else none := by
  have key : ∀ b, ∀ i j : Fin 64, writeCheck (BitVec.ofNat 12 (64 * i.val + j.val)).toNat b =
      if misaligned (BitVec.ofNat 12 (64 * i.val + j.val)) then some ErrCode.busMisaligned else
        match locate (BitVec.ofNat 12 (64 * i.val + j.val)) with
        | none => some .busUnmapped
        | some l =>
          if l.readOnly then some .busReadonly else if b && l.busyBlocked then some .busBusy else none := by
    decide +kernel
  have h := key b ⟨a.toNat / 64, by omega⟩ ⟨a.toNat % 64, by omega⟩
  simp only [Nat.div_add_mod, BitVec.ofNat_toNat, BitVec.setWidth_eq] at h
  exact h

theorem readCheck_eq (a : Addr) : readCheck a.toNat =
    if misaligned a then some .busMisaligned else
      match locate a with
      | none => some .busUnmapped
      | some _ => none := by
  have key : ∀ i j : Fin 64, readCheck (BitVec.ofNat 12 (64 * i.val + j.val)).toNat =
      if misaligned (BitVec.ofNat 12 (64 * i.val + j.val)) then some ErrCode.busMisaligned else
        match locate (BitVec.ofNat 12 (64 * i.val + j.val)) with
        | none => some .busUnmapped
        | some _ => none := by
    decide +kernel
  have h := key ⟨a.toNat / 64, by omega⟩ ⟨a.toNat % 64, by omega⟩
  simp only [Nat.div_add_mod, BitVec.ofNat_toNat, BitVec.setWidth_eq] at h
  exact h

/-- The bus checks name one of the four bus errors (R240), so never NONE. -/
theorem readCheck_ne_none (n : Nat) (e : ErrCode) (h : readCheck n = some e) : e ≠ .none := by
  unfold readCheck at h
  repeat' split at h
  all_goals first | (injection h with h; subst h; decide) | cases h

theorem writeCheck_ne_none (n : Nat) (b : Bool) (e : ErrCode) (h : writeCheck n b = some e) : e ≠ .none := by
  unfold writeCheck at h
  repeat' split at h
  all_goals first | (injection h with h; subst h; decide) | cases h

/-! ### Host reads (R64, R71, R72) -/

/-- A read of a location, by its offset. -/
theorem hostRead_offset (l : Loc) (s : State) : hostRead l.offset s =
    if s.status.busy && l.busyUnspecified then
      .next (answer (.read (Config.busyRead s.draws) .okay) { s with draws := s.draws + 1 })
    else
      match readLoc l s with
      | some d => .next (answer (.read d .okay) s)
      | none => .fault .uninitRead := by
  unfold hostRead
  rw [misaligned_offset, locate_offset]
  rfl

/-- A read of an idle unit's location whose value the rules define (R69). -/
theorem hostRead_value (l : Loc) (s : State) (v : Word) (hb : s.status.busy = false) (h : readLoc l s = some v) :
    hostRead l.offset s = .next { s with reply := some (.read v .okay) } := by
  rw [hostRead_offset, hb, h]; rfl

/-- Everything a host read can do: it fails and records an error; or it draws while busy; or it answers the location's
value; or it faults on a location without a defined value. -/
theorem hostRead_cases (a : Addr) (s : State) :
    (∃ e, readCheck a.toNat = some e ∧ hostRead a s = .next (busError e a (.read 0#32 .error) s)) ∨
    (∃ l, locate a = some l ∧ misaligned a = false ∧
      ((s.status.busy = true ∧ l.busyUnspecified = true ∧
        hostRead a s = .next (answer (.read (Config.busyRead s.draws) .okay) { s with draws := s.draws + 1 })) ∨
       ((s.status.busy = true → l.busyUnspecified = false) ∧
        ((∃ v, readLoc l s = some v ∧ hostRead a s = .next (answer (.read v .okay) s)) ∨
         (readLoc l s = none ∧ hostRead a s = .fault .uninitRead))))) := by
  rw [readCheck_eq]
  unfold hostRead
  cases hm : misaligned a
  · cases hl : locate a with
    | none => exact .inl ⟨.busUnmapped, rfl, rfl⟩
    | some l =>
      refine .inr ⟨l, rfl, rfl, ?_⟩
      cases hb : s.status.busy <;> cases hu : l.busyUnspecified <;> cases hr : readLoc l s <;>
        simp [hr, hu]
  · exact .inl ⟨.busMisaligned, rfl, rfl⟩

/-- A location outside 0x100..0x7FF always has a value (R62). -/
theorem readLoc_of_not_unspecified (l : Loc) (s : State) (h : l.busyUnspecified = false) :
    ∃ v, readLoc l s = some v := by
  cases l <;> first | exact ⟨_, rfl⟩ | (simp [Loc.busyUnspecified] at h)

/-- While BUSY = 1 a host read never faults. -/
theorem hostRead_busy (a : Addr) (s : State) (hb : s.status.busy = true) : ∃ t, hostRead a s = .next t := by
  rcases hostRead_cases a s with ⟨e, _, h⟩ | ⟨l, _, _, ⟨_, _, h⟩ | ⟨hu, ⟨v, _, h⟩ | ⟨hn, _⟩⟩⟩
  · exact ⟨_, h⟩
  · exact ⟨_, h⟩
  · exact ⟨_, h⟩
  · obtain ⟨v, hv⟩ := readLoc_of_not_unspecified l s (hu hb)
    rw [hv] at hn; cases hn

/-! ### Host writes (R62, R64) -/

/-- A write of a location, by its offset. -/
theorem hostWrite_offset (l : Loc) (d : Word) (s : State) : hostWrite l.offset d s =
    if l.readOnly then busError .busReadonly l.offset (.write .error) s
    else if s.status.busy && l.busyBlocked then busError .busBusy l.offset (.write .error) s
    else answer (.write .okay) (writeLoc l d s) := by
  unfold hostWrite
  rw [misaligned_offset, locate_offset]
  rfl

/-- Everything a host write can do: it fails and records an error, or it writes a location that is not read-only and, while
busy, not blocked. -/
theorem hostWrite_cases (a : Addr) (d : Word) (s : State) :
    (∃ e, writeCheck a.toNat s.status.busy = some e ∧ hostWrite a d s = busError e a (.write .error) s) ∨
    (∃ l, locate a = some l ∧ misaligned a = false ∧ l.readOnly = false ∧
      (s.status.busy = true → l.busyBlocked = false) ∧
      hostWrite a d s = answer (.write .okay) (writeLoc l d s)) := by
  rw [writeCheck_eq]
  unfold hostWrite
  cases hm : misaligned a
  · cases hl : locate a with
    | none => exact .inl ⟨.busUnmapped, rfl, rfl⟩
    | some l =>
      cases hr : l.readOnly
      · cases hb : s.status.busy <;> cases hk : l.busyBlocked
        · exact .inr ⟨l, rfl, rfl, hr, by simp, by simp [hr]⟩
        · exact .inr ⟨l, rfl, rfl, hr, by simp, by simp [hr]⟩
        · exact .inr ⟨l, rfl, rfl, hr, fun _ => hk, by simp [hr, hk]⟩
        · exact .inl ⟨.busBusy, by simp [hr, hk], by simp [hr, hk]⟩
      · exact .inl ⟨.busReadonly, by simp [hr], by simp [hr]⟩
  · exact .inl ⟨.busMisaligned, rfl, rfl⟩

/-- The six locations a write can reach, with what it does (R62). -/
theorem writeLoc_cases (l : Loc) (d : Word) (s : State) (h : l.readOnly = false) :
    (l = .ctrl ∧ d.getLsbD 31 = true ∧ writeLoc l d s = resetState s) ∨
    (l = .ctrl ∧ d.getLsbD 31 = false ∧ writeLoc l d s = { s with ctrl := Ctrl.ofWord d }) ∨
    (l = .status ∧ writeLoc l d s = { s with status := s.status.clear d }) ∨
    (l = .cmd ∧ writeLoc l d s = accept d s) ∨
    (∃ k, l = .pixIn k ∧ writeLoc l d s = { s with pixIn := s.pixIn.put k (d.truncate 8) }) ∨
    (∃ k, l = .coef k ∧ writeLoc l d s = { s with coef := s.coef.put k d }) ∨
    (∃ k, l = .mcoef k ∧ writeLoc l d s = { s with mcoef := s.mcoef.put k d }) := by
  cases l with
  | ctrl =>
    cases hd : d.getLsbD 31
    · exact .inr (.inl ⟨rfl, rfl, by simp only [writeLoc, hd]; rfl⟩)
    · exact .inl ⟨rfl, rfl, by simp only [writeLoc, hd]; rfl⟩
  | status => simp [writeLoc]
  | cmd => simp [writeLoc]
  | pixIn k => simp [writeLoc]
  | coef k => simp [writeLoc]
  | mcoef k => simp [writeLoc]
  | _ => simp [Loc.readOnly] at h

/-! ### Acceptance (R221) -/

/-- Everything acceptance can do. -/
theorem accept_cases (w : Word) (s : State) :
    (∃ i, decode w = .command i ∧ (needsTables i = true → s.status.tv = true) ∧
      accept w s = { s with pend := .run w,
                            status := { s.status with busy := true, done := false, lastop := opcField w } }) ∨
    (∃ e, e ≠ .none ∧ accept w s = recordError e w s) := by
  unfold accept
  cases hd : decode w with
  | reject r => exact .inr ⟨rejectCode r, by cases r <;> decide, rfl⟩
  | command i =>
    cases hn : needsTables i
    · exact .inl ⟨i, rfl, by simp [hn], by simp [hn]⟩
    · cases ht : s.status.tv
      · exact .inr ⟨.cmdNoTable, by decide, by simp [hn]⟩
      · exact .inl ⟨i, rfl, fun _ => rfl, by simp⟩

/-! ### Completions (R224, R225) -/

/-- Everything a completion can do: it faults UninitRead, or it ends in `finish` of a state with the command's own
outputs written. -/
theorem exec_cases (i : Instr) (s : State) :
    (ready i s = false ∧ exec i s = .fault .uninitRead) ∨
    (ready i s = true ∧ ∃ u, exec i s = .next (finish u) ∧
      ((i = .nop ∧ u = s) ∨
       (∃ q, i = .buildqt q ∧ u = { s with
          qt := buildQt (scaleFactor q), ft := buildFt (buildQt (scaleFactor q)), quality := BitVec.ofNat 7 q,
          sf := BitVec.ofNat 13 (scaleFactor q), status := { s.status with tv := true } }) ∨
       (∃ m, i = .fdct m ∧ u = { s with coef := Buffer.full fun k => (forwardBlock m s.pixIn.data s.ft)[k] }) ∨
       (∃ a b, i = .mask a b ∧ u = { s with
          mcoef := Buffer.full (maskLane a b s.coef.data), phase := ⟨BitVec.ofNat 7 a, BitVec.ofNat 7 b⟩ }) ∨
       (∃ c, i = .idct c ∧ u = { s with
          pixOut := Buffer.full fun k => (inverseOut .equal (inverseRows .equal (sourceBuffer c s).data s.qt))[k],
          w := inverseRows .equal (sourceBuffer c s).data s.qt }))) := by
  cases i with
  | nop => exact .inr ⟨rfl, s, rfl, .inl ⟨rfl, rfl⟩⟩
  | buildqt q => exact .inr ⟨rfl, _, rfl, .inr (.inl ⟨q, rfl, rfl⟩)⟩
  | fdct m =>
    cases h : (s.pixIn.allValid && s.status.tv)
    · exact .inl ⟨h, by simp [exec, execFdct, h]⟩
    · exact .inr ⟨h, _, by simp only [exec, execFdct, h, if_true], .inr (.inr (.inl ⟨m, rfl, rfl⟩))⟩
  | mask a b =>
    cases h : s.coef.allValid
    · exact .inl ⟨h, by simp [exec, execMask, h]⟩
    · exact .inr ⟨h, _, by simp only [exec, execMask, h, if_true], .inr (.inr (.inr (.inl ⟨a, b, rfl, rfl⟩)))⟩
  | idct c =>
    have hr : ready (.idct c) s = ((sourceBuffer c s).allValid && s.status.tv) := by cases c <;> rfl
    cases h : ((sourceBuffer c s).allValid && s.status.tv)
    · exact .inl ⟨hr.trans h, by simp [exec, execIdct, h]⟩
    · exact .inr ⟨hr.trans h, _, by simp only [exec, execIdct, h, if_true]; rfl,
        .inr (.inr (.inr (.inr ⟨c, rfl, rfl⟩)))⟩

/-- Everything a completion that has a next state can do. -/
theorem exec_next_cases (i : Instr) (s t : State) (h : exec i s = .next t) :
    ready i s = true ∧
      ((i = .nop ∧ t = finish s) ∨
       (∃ q, i = .buildqt q ∧ t = finish { s with
          qt := buildQt (scaleFactor q), ft := buildFt (buildQt (scaleFactor q)), quality := BitVec.ofNat 7 q,
          sf := BitVec.ofNat 13 (scaleFactor q), status := { s.status with tv := true } }) ∨
       (∃ m, i = .fdct m ∧
          t = finish { s with coef := Buffer.full fun k => (forwardBlock m s.pixIn.data s.ft)[k] }) ∨
       (∃ a b, i = .mask a b ∧ t = finish { s with
          mcoef := Buffer.full (maskLane a b s.coef.data), phase := ⟨BitVec.ofNat 7 a, BitVec.ofNat 7 b⟩ }) ∨
       (∃ c, i = .idct c ∧ t = finish { s with
          pixOut := Buffer.full fun k => (inverseOut .equal (inverseRows .equal (sourceBuffer c s).data s.qt))[k],
          w := inverseRows .equal (sourceBuffer c s).data s.qt })) := by
  rcases exec_cases i s with ⟨_, e⟩ | ⟨hr, u, e, hc⟩
  · rw [e] at h; cases h
  · rw [e] at h; cases h
    refine ⟨hr, ?_⟩
    rcases hc with ⟨rfl, rfl⟩ | ⟨q, rfl, rfl⟩ | ⟨m, rfl, rfl⟩ | ⟨a, b, rfl, rfl⟩ | ⟨c, rfl, rfl⟩
    · exact .inl ⟨rfl, rfl⟩
    · exact .inr (.inl ⟨q, rfl, rfl⟩)
    · exact .inr (.inr (.inl ⟨m, rfl, rfl⟩))
    · exact .inr (.inr (.inr (.inl ⟨a, b, rfl, rfl⟩)))
    · exact .inr (.inr (.inr (.inr ⟨c, rfl, rfl⟩)))

/-- A command whose precondition holds completes (R275). -/
theorem exec_of_ready (i : Instr) (s : State) (h : ready i s = true) : ∃ t, exec i s = .next t := by
  rcases exec_cases i s with ⟨h', _⟩ | ⟨_, u, e, _⟩
  · rw [h] at h'; cases h'
  · exact ⟨_, e⟩

end Sys2Proof.Machine
end

