-- ==== Sys2Proof/Laws/Commands.lean ====
section
/-! SUPPORT. What each command writes, element by element: one lemma per function of a meaning. -/

namespace Sys2Proof.Machine

/-! ### BUILDQT (R120 to R124) -/

theorem zzToNat_natToZz : ∀ k : Fin 64, zzToNat (natToZz k) = k := by decide +kernel

theorem natToZz_zzToNat : ∀ r : Fin 64, natToZz (zzToNat r) = r := by decide +kernel

theorem baseZz_natToZz : ∀ k : Fin 64, baseZz (natToZz k) = k1 k := by decide +kernel

theorem natToZz_eq_iff (k r : Fin 64) : natToZz k = r ↔ k = zzToNat r :=
  ⟨fun h => by rw [← h, zzToNat_natToZz], fun h => by rw [h, natToZz_zzToNat]⟩

/-- A step size as an integer (R122). -/
theorem stepSize_toNat (base sf : Nat) :
    ((stepSize base sf).toNat : Int) = clampInt (((base * sf + 50) / 100 : Nat) : Int) 1 255 := by
  unfold stepSize
  have h1 := clampInt_low (((base * sf + 50) / 100 : Nat) : Int) 1 255 (by decide)
  have h2 := clampInt_high (((base * sf + 50) / 100 : Nat) : Int) 1 255 (by decide)
  rw [BitVec.toNat_ofNat, Nat.mod_eq_of_lt (by omega)]
  omega

theorem buildQt_get (sf : Nat) (k : Nat) (h : k < 64) :
    (buildQt sf)[k] = stepSize (baseZz (natToZz ⟨k, h⟩)).toNat sf := by
  simp [buildQt]

theorem buildFt_get (qt : Vector Byte 64) (row col : Fin 8) :
    (buildFt qt)[8 * row.val + col.val] = forwardEntry qt[8 * row.val + col.val] row col := by
  have e1 : Fin.ofNat 8 ((8 * row.val + col.val) / 8) = row := by ext; simp; omega
  have e2 : Fin.ofNat 8 ((8 * row.val + col.val) % 8) = col := by ext; simp
  simp only [buildFt, Vector.getElem_ofFn, e1, e2]
  rfl

theorem scaleFactor_le (q : Nat) : scaleFactor q ≤ 5000 := by
  unfold scaleFactor
  split
  · exact Nat.div_le_self _ _
  · omega

/-! ### FDCT (R140 to R147) -/

theorem samples_get (m : PixelMode) (pix : Vector Byte 64) (k : Nat) (h : k < 64) :
    (samples m pix)[k] = fOfInt (levelShift pix[k] m) := by
  simp [samples]

/-- The row pass and the column pass, by their outputs (R145, R146). -/
theorem fdctBlock_get (d : Vector F64 64) (c j : Fin 8) :
    (fdctBlock d)[8 * j.val + c.val] = (fdct8 (colOf (mapRows fdct8 d) c))[j] := by
  unfold fdctBlock
  exact mapCols_get fdct8 (mapRows fdct8 d) c j

theorem forwardBlock_eq (m : PixelMode) (pix : Vector Byte 64) (ft : Vector F64 64) :
    forwardBlock m pix ft = Vector.ofFn fun k : Fin 64 => quantize (fdctBlock (samples m pix))[k] ft[k] := rfl

theorem forwardBlock_get (m : PixelMode) (pix : Vector Byte 64) (ft : Vector F64 64) (k : Nat) (h : k < 64) :
    (forwardBlock m pix ft)[k] = quantize (fdctBlock (samples m pix))[k] ft[k] := by
  rw [forwardBlock_eq, Vector.getElem_ofFn]
  rfl

/-- A buffer filled from a vector is that vector, all valid. -/
theorem Buffer.full_of_vector {α : Type} (v : Vector α 64) :
    (Buffer.full fun (k : Fin 64) => v[k]) = ⟨v, Vector.replicate 64 true⟩ := by
  have e : (Vector.ofFn fun (k : Fin 64) => v[k]) = v := by ext i hi; simp
  unfold Buffer.full
  rw [e]

/-! ### MASK (R170) -/

theorem maskLane_eq (a b : Nat) (cf : Vector Word 64) (k : Fin 64) :
    maskLane a b cf k = if a ≤ (natToZz k).val ∧ (natToZz k).val < b then cf[k] else 0#32 := by
  simp [maskLane, keeps]

/-- MCOEF after MASK (R170). -/
theorem exec_mask_mcoef (a b : Nat) (s t : State) (h : exec (.mask a b) s = .next t) :
    t.mcoef = Buffer.full (maskLane a b s.coef.data) := by
  rcases (exec_next_cases _ _ _ h).2 with ⟨e, _⟩ | ⟨_, e, _⟩ | ⟨_, e, _⟩ | ⟨a', b', e, ht⟩ | ⟨_, e, _⟩
  · cases e
  · cases e
  · cases e
  · rw [Instr.mask.injEq] at e
    rw [ht, e.1, e.2]
    rfl
  · cases e

/-! ### IDCT (R185 to R197) -/

theorem dequantize_get (cf : Vector Word 64) (qt : Vector Byte 64) (k : Nat) (h : k < 64) :
    (dequantize cf qt)[k] = cf[k].toInt * (qt[k].toNat : Int) := by
  simp [dequantize]

/-- Fast-path detection (R191, R193). -/
theorem acZero_iff (x : Vector Int 8) : acZero x = true ↔ ∀ n : Fin 8, n ≠ 0 → x[n] = 0 := by
  simp only [acZero, Bool.and_eq_true, beq_iff_eq]
  constructor
  · rintro ⟨⟨⟨⟨⟨⟨a, b⟩, c⟩, d⟩, e⟩, f⟩, g⟩ n hn
    match n, hn with
    | 1, _ => exact a
    | 2, _ => exact b
    | 3, _ => exact c
    | 4, _ => exact d
    | 5, _ => exact e
    | 6, _ => exact f
    | 7, _ => exact g
  · intro h
    exact ⟨⟨⟨⟨⟨⟨h 1 (by decide), h 2 (by decide)⟩, h 3 (by decide)⟩, h 4 (by decide)⟩, h 5 (by decide)⟩,
      h 6 (by decide)⟩, h 7 (by decide)⟩

theorem inverseRow_fast (r : DcRounding) (p : Vector Int 8) (h : ∀ n : Fin 8, n ≠ 0 → p[n] = 0) :
    inverseRow r p = Vector.replicate 8 (rowDc r p[0]) := by
  unfold inverseRow; rw [if_pos ((acZero_iff p).2 h)]

theorem inverseRow_general (r : DcRounding) (p : Vector Int 8) (h : ¬ ∀ n : Fin 8, n ≠ 0 → p[n] = 0) :
    inverseRow r p = idctRow p := by
  unfold inverseRow; rw [if_neg (fun e => h ((acZero_iff p).1 e))]

theorem inverseCol_fast (r : DcRounding) (x : Vector Int 8) (h : ∀ n : Fin 8, n ≠ 0 → x[n] = 0) :
    inverseCol r x = Vector.replicate 8 (colDc r x[0]) := by
  unfold inverseCol; rw [if_pos ((acZero_iff x).2 h)]

theorem inverseCol_general (r : DcRounding) (x : Vector Int 8) (h : ¬ ∀ n : Fin 8, n ≠ 0 → x[n] = 0) :
    inverseCol r x = idctCol x := by
  unfold inverseCol; rw [if_neg (fun e => h ((acZero_iff x).1 e))]

/-- The output stage as an integer (R197). -/
theorem outStage_toNat (y : Int) : ((outStage y).toNat : Int) = clampInt (128 + (y + 8) / 16) 0 255 := by
  have e : asr (y + 8) 4 = (y + 8) / 16 := rfl
  unfold outStage
  rw [e]
  have h1 := clampInt_low (128 + (y + 8) / 16) 0 255 (by decide)
  have h2 := clampInt_high (128 + (y + 8) / 16) 0 255 (by decide)
  generalize clampInt (128 + (y + 8) / 16) 0 255 = z at h1 h2
  rw [BitVec.toNat_ofInt]
  omega

theorem inverseOut_get (r : DcRounding) (w : Vector Int 64) (k : Nat) (h : k < 64) :
    (inverseOut r w)[k] = outStage (mapCols (inverseCol r) w)[k] := by
  simp [inverseOut]

end Sys2Proof.Machine
end

