-- ==== Sys2Proof/Laws/Inverse.lean ====
section
/-! SUPPORT. The bounds of the inverse datapath's nodes (R206), one lemma per node list of Safety. -/

namespace Sys2Proof.Machine

/-- A shifted value is bounded by the shifted bound (R10). -/
theorem asr_bound (a : Int) (n : Nat) (B : Int) (h : |a| ≤ B * 2 ^ n) : |asr a n| ≤ B := by
  have h0 : (0:Int) < 2 ^ n := by positivity
  rw [abs_le] at *
  unfold asr
  exact ⟨(Int.le_ediv_iff_mul_le h0).2 (by linarith), Int.ediv_le_of_le_mul h0 h.2⟩

/-- A shifted value is no larger in magnitude. -/
theorem asr_le_self (a : Int) (n : Nat) (B : Int) (h : |a| ≤ B) : |asr a n| ≤ B := by
  apply asr_bound
  have : (1:Int) ≤ 2 ^ n := one_le_pow₀ (by norm_num)
  have hB : 0 ≤ B := le_trans (abs_nonneg a) h
  nlinarith

/-- Every node of a halving pair. -/
theorem halvingNodes_bound (a b A B C : Int) (ha : |a| ≤ A) (hb : |b| ≤ B) (h : A + B + 1 ≤ C) :
    ∀ n ∈ halvingNodes a b, |n| ≤ C := by
  have h1 : |a + b + 1| ≤ C := by rw [abs_le] at *; omega
  have h2 : |a - b + 1| ≤ C := by rw [abs_le] at *; omega
  simp only [halvingNodes, List.forall_mem_cons, List.not_mem_nil, false_implies, implies_true, and_true]
  exact ⟨by rw [abs_le] at *; omega, h1, asr_le_self _ _ _ h1, by rw [abs_le] at *; omega, h2, asr_le_self _ _ _ h2⟩

/-- Every node of a rotation. -/
theorem rotationNodes_bound (a b p q r A B C : Int) (n : Nat) (ha : |a| ≤ A) (hb : |b| ≤ B) (hp : 0 ≤ p) (hq : 0 ≤ q)
    (hr : 0 ≤ r) (h : A * p + B * q + r ≤ C) (h' : A * q + B * p + r ≤ C) :
    ∀ m ∈ rotationNodes a b p q r n, |m| ≤ C := by
  have ap : |a * p| ≤ A * p := by rw [abs_mul, abs_of_nonneg hp]; exact mul_le_mul_of_nonneg_right ha hp
  have aq : |a * q| ≤ A * q := by rw [abs_mul, abs_of_nonneg hq]; exact mul_le_mul_of_nonneg_right ha hq
  have bp : |b * p| ≤ B * p := by rw [abs_mul, abs_of_nonneg hp]; exact mul_le_mul_of_nonneg_right hb hp
  have bq : |b * q| ≤ B * q := by rw [abs_mul, abs_of_nonneg hq]; exact mul_le_mul_of_nonneg_right hb hq
  have h1 : |a * p + b * q + r| ≤ C := by rw [abs_le] at *; constructor <;> linarith
  have h2 : |a * q - b * p + r| ≤ C := by rw [abs_le] at *; constructor <;> linarith
  simp only [rotationNodes, List.forall_mem_cons, List.not_mem_nil, false_implies, implies_true, and_true]
  refine ⟨?_, ?_, ?_, h1, asr_le_self _ _ _ h1, ?_, ?_, ?_, h2, asr_le_self _ _ _ h2⟩ <;>
    (rw [abs_le] at *; constructor <;> linarith)

/-- Every node of a scaling. -/
theorem scalingNodes_bound (m a r A C : Int) (n : Nat) (ha : |a| ≤ A) (hm : 0 ≤ m) (hr : 0 ≤ r) (h : m * A + r ≤ C) :
    ∀ k ∈ scalingNodes m a r n, |k| ≤ C := by
  have ma : |m * a| ≤ m * A := by rw [abs_mul, abs_of_nonneg hm]; exact mul_le_mul_of_nonneg_left ha hm
  have h1 : |m * a + r| ≤ C := by rw [abs_le] at *; constructor <;> linarith
  simp only [scalingNodes, List.forall_mem_cons, List.not_mem_nil, false_implies, implies_true, and_true]
  exact ⟨by rw [abs_le] at *; constructor <;> linarith, h1, asr_le_self _ _ _ h1⟩

/-- Every node of stages 2 and 1, from one bound `A` on v0..v7: the widest is a rotation sum, 2276 + 3406 times `A`. -/
theorem tailNodes_bound (v0 v1 v2 v3 v4 v5 v6 v7 A C : Int) (h0 : |v0| ≤ A) (h1 : |v1| ≤ A) (h2 : |v2| ≤ A)
    (h3 : |v3| ≤ A) (h4 : |v4| ≤ A) (h5 : |v5| ≤ A) (h6 : |v6| ≤ A) (h7 : |v7| ≤ A) (h : 5682 * A + 2048 ≤ C) :
    ∀ n ∈ tailNodes v0 v1 v2 v3 v4 v5 v6 v7, |n| ≤ C := by
  have hA : 0 ≤ A := le_trans (abs_nonneg _) h0
  have w0 : |asr (v0 + v3 + 1) 1| ≤ A + 1 := asr_bound _ _ _ (by rw [abs_le] at *; omega)
  have w3 : |asr (v0 - v3 + 1) 1| ≤ A + 1 := asr_bound _ _ _ (by rw [abs_le] at *; omega)
  have w1 : |asr (v1 + v2 + 1) 1| ≤ A + 1 := asr_bound _ _ _ (by rw [abs_le] at *; omega)
  have w2 : |asr (v1 - v2 + 1) 1| ≤ A + 1 := asr_bound _ _ _ (by rw [abs_le] at *; omega)
  have w7 : |asr (v4 * 2276 + v7 * 3406 + 2048) 12| ≤ 2 * A + 1 := asr_bound _ _ _ (by rw [abs_le] at *; omega)
  have w4 : |asr (v4 * 3406 - v7 * 2276 + 2048) 12| ≤ 2 * A + 1 := asr_bound _ _ _ (by rw [abs_le] at *; omega)
  have w6 : |asr (v5 * 799 + v6 * 4017 + 2048) 12| ≤ 2 * A + 1 := asr_bound _ _ _ (by rw [abs_le] at *; omega)
  have w5 : |asr (v5 * 4017 - v6 * 799 + 2048) 12| ≤ 2 * A + 1 := asr_bound _ _ _ (by rw [abs_le] at *; omega)
  simp only [tailNodes, List.forall_mem_append]
  refine ⟨⟨⟨⟨?_, ?_⟩, ?_⟩, ?_⟩, ?_⟩
  · exact halvingNodes_bound _ _ _ _ _ h0 h3 (by omega)
  · exact halvingNodes_bound _ _ _ _ _ h1 h2 (by omega)
  · exact rotationNodes_bound _ _ _ _ _ _ _ _ _ h4 h7 (by norm_num) (by norm_num) (by norm_num) (by omega) (by omega)
  · exact rotationNodes_bound _ _ _ _ _ _ _ _ _ h5 h6 (by norm_num) (by norm_num) (by norm_num) (by omega) (by omega)
  · generalize asr (v0 + v3 + 1) 1 = u0 at *
    generalize asr (v0 - v3 + 1) 1 = u3 at *
    generalize asr (v1 + v2 + 1) 1 = u1 at *
    generalize asr (v1 - v2 + 1) 1 = u2 at *
    generalize asr (v4 * 2276 + v7 * 3406 + 2048) 12 = u7 at *
    generalize asr (v4 * 3406 - v7 * 2276 + 2048) 12 = u4 at *
    generalize asr (v5 * 799 + v6 * 4017 + 2048) 12 = u6 at *
    generalize asr (v5 * 4017 - v6 * 799 + 2048) 12 = u5 at *
    simp only [List.forall_mem_cons, List.not_mem_nil, false_implies, implies_true, and_true]
    clear h1 h2 h3 h4 h5 h6 h7
    refine ⟨?_, ?_, ?_, ?_, ?_, ?_, ?_, ?_⟩ <;> (rw [abs_le] at *; omega)

/-- Every node of a butterfly, from a bound `X` on the inputs, `S` on the stage-4 values, `V` on the pre-shifted v5 and v6,
and `A` on the values after stage 3. -/
theorem butterflyNodes_bound (x : Vector Int 8) (v5 v6 r X V S A C : Int) (n : Nat) (hx : ∀ j : Fin 8, |x[j]| ≤ X)
    (h5 : |v5| ≤ V) (h6 : |v6| ≤ V) (hr : 0 ≤ r) (hS : 5793 * X + r ≤ S * 2 ^ n)
    (hV : S + V + 1 ≤ 2 * A) (hSA : 2 * S + 1 ≤ 2 * A) (hV0 : V ≤ C) (h : 5682 * A + 2048 ≤ C) (hn : 5793 * X + r ≤ C) :
    ∀ m ∈ butterflyNodes x v5 v6 r n, |m| ≤ C := by
  have hX : 0 ≤ X := le_trans (abs_nonneg _) (hx 0)
  have hx0 : |x[0]| ≤ X := hx 0
  have hx1 : |x[1]| ≤ X := hx 1
  have hx2 : |x[2]| ≤ X := hx 2
  have hx4 : |x[4]| ≤ X := hx 4
  have hx6 : |x[6]| ≤ X := hx 6
  have hx7 : |x[7]| ≤ X := hx 7
  have hV' : 0 ≤ V := le_trans (abs_nonneg _) h5
  have hS0 : 0 ≤ S := by
    have : (0:Int) < 2 ^ n := by positivity
    nlinarith
  have s17 : |x[1] - x[7]| ≤ 2 * X := by rw [abs_le] at *; omega
  have a17 : |x[1] + x[7]| ≤ 2 * X := by rw [abs_le] at *; omega
  have b0 : |asr (5793 * x[0] + r) n| ≤ S := asr_bound _ _ _ (le_trans (by rw [abs_le] at *; omega) hS)
  have b1 : |asr (5793 * x[4] + r) n| ≤ S := asr_bound _ _ _ (le_trans (by rw [abs_le] at *; omega) hS)
  have b4 : |asr (2896 * (x[1] - x[7]) + r) n| ≤ S := asr_bound _ _ _ (le_trans (by rw [abs_le] at *; omega) hS)
  have b7 : |asr (2896 * (x[1] + x[7]) + r) n| ≤ S := asr_bound _ _ _ (le_trans (by rw [abs_le] at *; omega) hS)
  have c2 : |asr (x[2] * 1567 - x[6] * 3784 + r) n| ≤ S := asr_bound _ _ _ (le_trans (by rw [abs_le] at *; omega) hS)
  have c3 : |asr (x[2] * 3784 + x[6] * 1567 + r) n| ≤ S := asr_bound _ _ _ (le_trans (by rw [abs_le] at *; omega) hS)
  simp only [butterflyNodes, List.forall_mem_append]
  refine ⟨⟨⟨⟨⟨⟨⟨⟨⟨⟨?_, ?_⟩, ?_⟩, ?_⟩, ?_⟩, ?_⟩, ?_⟩, ?_⟩, ?_⟩, ?_⟩, ?_⟩
  · intro m hm
    rw [Vector.mem_toList_iff, Vector.mem_iff_getElem] at hm
    obtain ⟨i, hi, rfl⟩ := hm
    exact le_trans (hx ⟨i, hi⟩) (by omega)
  · simp only [List.forall_mem_cons, List.not_mem_nil, false_implies, implies_true, and_true]
    exact ⟨by omega, by omega, by omega, by omega⟩
  · exact scalingNodes_bound _ _ _ _ _ _ hx0 (by norm_num) hr (by omega)
  · exact scalingNodes_bound _ _ _ _ _ _ hx4 (by norm_num) hr (by omega)
  · exact scalingNodes_bound _ _ _ _ _ _ s17 (by norm_num) hr (by omega)
  · exact scalingNodes_bound _ _ _ _ _ _ a17 (by norm_num) hr (by omega)
  · exact halvingNodes_bound _ _ _ _ _ b0 b1 (by omega)
  · exact rotationNodes_bound _ _ _ _ _ _ _ _ _ hx2 hx6 (by norm_num) (by norm_num) hr (by omega) (by omega)
  · exact halvingNodes_bound _ _ _ _ _ b4 h6 (by omega)
  · exact halvingNodes_bound _ _ _ _ _ b7 h5 (by omega)
  · generalize asr (5793 * x[0] + r) n = u0 at *
    generalize asr (5793 * x[4] + r) n = u1 at *
    generalize asr (2896 * (x[1] - x[7]) + r) n = u4 at *
    generalize asr (2896 * (x[1] + x[7]) + r) n = u7 at *
    exact tailNodes_bound _ _ _ _ _ _ _ _ A C
      (asr_bound _ _ _ (by rw [abs_le] at *; omega)) (asr_bound _ _ _ (by rw [abs_le] at *; omega))
      (by omega) (by omega) (asr_bound _ _ _ (by rw [abs_le] at *; omega)) (asr_bound _ _ _ (by rw [abs_le] at *; omega))
      (asr_bound _ _ _ (by rw [abs_le] at *; omega)) (asr_bound _ _ _ (by rw [abs_le] at *; omega)) h

end Sys2Proof.Machine
end

