-- ==== Sys2Proof/Laws/PerInstr.lean ====
section
/-! SUPPORT. The family EncodeFields: the fields of each command's canonical word, one lemma per constructor (R91, R97). -/

namespace Sys2Proof.Laws.EncodeFields

/-- The OPC of a command's mnemonic (R96). -/
def opcode : Instr → BitVec 4
  | .nop => 0x0#4
  | .buildqt _ => 0x1#4
  | .fdct _ => 0x2#4
  | .mask _ _ => 0x3#4
  | .idct _ => 0x4#4

/-- The operand fields hold the operands (R92 to R95). -/
def operandFields : Instr → Prop
  | .nop => encode .nop = 0#32
  | .buildqt q => qualityField (encode (.buildqt q)) = (q : Int)
  | .fdct m => (encode (.fdct m)).getLsbD 8 = decide (m = .pre)
  | .mask a b => startField (encode (.mask a b)) = (a : Int) ∧ stopField (encode (.mask a b)) = (b : Int)
  | .idct c => (encode (.idct c)).getLsbD 8 = decide (c = .coef)

/-- The canonical word of a well-formed command: its OPC, its reserved bits all 0, and its operands in their fields. -/
def Statement (i : Instr) : Prop :=
  i.WellFormed → opcField (encode i) = opcode i ∧
    (∃ m, rmask (opcode i).toNat = some m ∧ encode i &&& m = 0#32) ∧ operandFields i

theorem nop : Statement .nop := fun _ => ⟨by decide, ⟨_, rfl, by decide⟩, rfl⟩

theorem buildqt (q : Nat) : Statement (.buildqt q) := by
  intro h
  simp only [Instr.WellFormed, Instr.wellFormed, Bool.and_eq_true, decide_eq_true_eq] at h
  have key : ∀ q : Fin 101, opcField (encode (.buildqt q.val)) = 0x1#4 ∧
      encode (.buildqt q.val) &&& 0x0000FFF0#32 = 0#32 ∧ qualityField (encode (.buildqt q.val)) = (q.val : Int) := by
    decide +kernel
  obtain ⟨a, b, c⟩ := key ⟨q, by omega⟩
  exact ⟨a, ⟨_, rfl, b⟩, c⟩

theorem fdct (m : PixelMode) : Statement (.fdct m) := by
  cases m <;> exact fun _ => ⟨by decide, ⟨_, rfl, by decide⟩, by simp only [operandFields]; decide⟩

theorem mask (a b : Nat) : Statement (.mask a b) := by
  intro h
  simp only [Instr.WellFormed, Instr.wellFormed, Bool.and_eq_true, decide_eq_true_eq] at h
  have key : ∀ a b : Fin 65, opcField (encode (.mask a.val b.val)) = 0x3#4 ∧
      encode (.mask a.val b.val) &&& 0xFF0000F0#32 = 0#32 ∧ startField (encode (.mask a.val b.val)) = (a.val : Int) ∧
      stopField (encode (.mask a.val b.val)) = (b.val : Int) := by
    decide +kernel
  obtain ⟨p, q, r⟩ := key ⟨a, by omega⟩ ⟨b, by omega⟩
  exact ⟨p, ⟨_, rfl, q⟩, r⟩

theorem idct (c : CoefSource) : Statement (.idct c) := by
  cases c <;> exact fun _ => ⟨by decide, ⟨_, rfl, by decide⟩, by simp only [operandFields]; decide⟩

end Sys2Proof.Laws.EncodeFields
end

