-- ==== Sys2Proof/Laws/Step.lean ====
section
/-! SUPPORT. The step: which event it is, by the schedule (R223, R232). -/

namespace Sys2Proof.Machine

theorem step_nil (s : State) (h : s.schedule = []) : step s = engineTurn s := by
  unfold step; rw [h]

theorem step_cons (s : State) (t : Turn) (rest : List Turn) (h : s.schedule = t :: rest) :
    step s = takeTurn t { s with schedule := rest } := by
  unfold step; rw [h]

theorem engineTurn_idle (s : State) (h : s.pend = .idle) : engineTurn s = .next s := by
  unfold engineTurn; rw [h]

theorem engineTurn_run (s : State) (w : Word) (i : Instr) (h : s.pend = .run w) (hd : decode w = .command i) :
    engineTurn s = exec i s := by
  unfold engineTurn; rw [h]; simp only [hd]

/-- Everything the engine's turn can do. -/
theorem engineTurn_cases (s : State) :
    (s.pend = .idle ∧ engineTurn s = .next s) ∨
    (∃ w i, s.pend = .run w ∧ decode w = .command i ∧ engineTurn s = exec i s) ∨
    (∃ w r, s.pend = .run w ∧ decode w = .reject r ∧ engineTurn s = .fault .pendNotLegal) := by
  cases hp : s.pend with
  | idle => exact .inl ⟨rfl, engineTurn_idle s hp⟩
  | run w =>
    cases hd : decode w with
    | command i => exact .inr (.inl ⟨w, i, rfl, hd, engineTurn_run s w i hp hd⟩)
    | reject r => exact .inr (.inr ⟨w, r, rfl, hd, by unfold engineTurn; rw [hp]; simp only [hd]⟩)

/-- Everything a step can be: the engine's turn (scheduled or not), a host read, a host write, or a reset. -/
theorem step_cases (s : State) :
    (s.schedule = [] ∧ step s = engineTurn s) ∨
    (∃ rest, s.schedule = .engine :: rest ∧ step s = engineTurn { s with schedule := rest }) ∨
    (∃ a rest, s.schedule = .read a :: rest ∧ step s = hostRead a { s with schedule := rest }) ∨
    (∃ a d rest, s.schedule = .write a d :: rest ∧ step s = .next (hostWrite a d { s with schedule := rest })) ∨
    (∃ rest, s.schedule = .reset :: rest ∧ step s = .next (resetState { s with schedule := rest })) := by
  cases h : s.schedule with
  | nil => exact .inl ⟨rfl, step_nil s h⟩
  | cons t rest =>
    have e := step_cons s t rest h
    cases t with
    | engine => exact .inr (.inl ⟨rest, rfl, e⟩)
    | read a => exact .inr (.inr (.inl ⟨a, rest, rfl, e⟩))
    | write a d => exact .inr (.inr (.inr (.inl ⟨a, d, rest, rfl, e⟩)))
    | reset => exact .inr (.inr (.inr (.inr ⟨rest, rfl, e⟩)))

/-- What one turn leads to when it has a next state: every event of R232 with everything it does. -/
theorem takeTurn_next_cases (x : Turn) (u t : State) (h : takeTurn x u = .next t) :
    (x = .engine ∧ u.pend = .idle ∧ t = u) ∨
    (∃ w i, x = .engine ∧ u.pend = .run w ∧ decode w = .command i ∧ exec i u = .next t) ∨
    (∃ e a r, ((x = .read a ∧ readCheck a.toNat = some e) ∨
      ∃ d, x = .write a d ∧ writeCheck a.toNat u.status.busy = some e) ∧ e ≠ .none ∧ t = busError e a r u) ∨
    (∃ a, x = .read a ∧ u.status.busy = true ∧
      t = answer (.read (Config.busyRead u.draws) .okay) { u with draws := u.draws + 1 }) ∨
    (∃ a v, x = .read a ∧ t = answer (.read v .okay) u) ∨
    (∃ d, x = .write 0x004#12 d ∧ d.getLsbD 31 = true ∧ t = answer (.write .okay) (resetState u)) ∨
    (∃ d, x = .write 0x004#12 d ∧ d.getLsbD 31 = false ∧
      t = answer (.write .okay) { u with ctrl := Ctrl.ofWord d }) ∨
    (∃ d, x = .write 0x008#12 d ∧ t = answer (.write .okay) { u with status := u.status.clear d }) ∨
    (∃ w i, x = .write 0x00C#12 w ∧ u.status.busy = false ∧ decode w = .command i ∧
      (needsTables i = true → u.status.tv = true) ∧
      t = answer (.write .okay) { u with
        pend := .run w
        status := { u.status with busy := true, done := false, lastop := opcField w } }) ∨
    (∃ w e, x = .write 0x00C#12 w ∧ u.status.busy = false ∧ e ≠ .none ∧
      t = answer (.write .okay) (recordError e w u)) ∨
    (∃ k d, x = .write (Loc.pixIn k).offset d ∧ u.status.busy = false ∧
      t = answer (.write .okay) { u with pixIn := u.pixIn.put k (d.truncate 8) }) ∨
    (∃ k d, x = .write (Loc.coef k).offset d ∧ u.status.busy = false ∧
      t = answer (.write .okay) { u with coef := u.coef.put k d }) ∨
    (∃ k d, x = .write (Loc.mcoef k).offset d ∧ u.status.busy = false ∧
      t = answer (.write .okay) { u with mcoef := u.mcoef.put k d }) ∨
    (x = .reset ∧ t = resetState u) := by
  cases x with
  | engine =>
    rcases engineTurn_cases u with ⟨hp, e⟩ | ⟨w, i, hp, hd, e⟩ | ⟨_, _, _, _, e⟩
    · have h := e.symm.trans h; cases h; exact .inl ⟨rfl, hp, rfl⟩
    · exact .inr (.inl ⟨w, i, rfl, hp, hd, e.symm.trans h⟩)
    · have h := e.symm.trans h; cases h
  | read a =>
    rcases hostRead_cases a u with ⟨e, he, e'⟩ | ⟨l, _, _, ⟨hb, _, e'⟩ | ⟨_, ⟨v, _, e'⟩ | ⟨_, e'⟩⟩⟩ <;>
      have h := e'.symm.trans h <;> cases h
    · exact .inr (.inr (.inl ⟨e, a, _, .inl ⟨rfl, he⟩, readCheck_ne_none _ _ he, rfl⟩))
    · exact .inr (.inr (.inr (.inl ⟨a, rfl, hb, rfl⟩)))
    · exact .inr (.inr (.inr (.inr (.inl ⟨a, v, rfl, rfl⟩))))
  | write a d =>
    have h : hostWrite a d u = t := by simpa [takeTurn] using h
    subst h
    rcases hostWrite_cases a d u with ⟨e, he, e'⟩ | ⟨l, hl, hm, hro, hb, e'⟩
    · rw [e']; exact .inr (.inr (.inl ⟨e, a, _, .inr ⟨d, rfl, he⟩, writeCheck_ne_none _ _ _ he, rfl⟩))
    · have ha := offset_of_locate a l hm hl
      subst ha
      have hb' : l.busyBlocked = true → u.status.busy = false := by
        intro h
        cases hs : u.status.busy
        · rfl
        · rw [hb hs] at h; cases h
      rw [e']
      rcases writeLoc_cases l d u hro with ⟨rfl, hd, e⟩ | ⟨rfl, hd, e⟩ | ⟨rfl, e⟩ | ⟨rfl, e⟩ | ⟨k, rfl, e⟩ | ⟨k, rfl, e⟩ |
        ⟨k, rfl, e⟩ <;> rw [e]
      · exact .inr (.inr (.inr (.inr (.inr (.inl ⟨d, rfl, hd, rfl⟩)))))
      · exact .inr (.inr (.inr (.inr (.inr (.inr (.inl ⟨d, rfl, hd, rfl⟩))))))
      · exact .inr (.inr (.inr (.inr (.inr (.inr (.inr (.inl ⟨d, rfl, rfl⟩)))))))
      · rcases accept_cases d u with ⟨i, hd, ht, e⟩ | ⟨e', he, e⟩ <;> rw [e]
        · exact .inr (.inr (.inr (.inr (.inr (.inr (.inr (.inr (.inl ⟨d, i, rfl, hb' rfl, hd, ht, rfl⟩))))))))
        · exact .inr (.inr (.inr (.inr (.inr (.inr (.inr (.inr (.inr (.inl ⟨d, e', rfl, hb' rfl, he, rfl⟩)))))))))
      · exact .inr (.inr (.inr (.inr (.inr (.inr (.inr (.inr (.inr (.inr (.inl ⟨k, d, rfl, hb' rfl, rfl⟩))))))))))
      · exact .inr (.inr (.inr (.inr (.inr (.inr (.inr (.inr (.inr (.inr (.inr (.inl ⟨k, d, rfl, hb' rfl, rfl⟩)))))))))))
      · exact .inr (.inr (.inr (.inr (.inr (.inr (.inr (.inr (.inr (.inr (.inr (.inr (.inl
          ⟨k, d, rfl, hb' rfl, rfl⟩))))))))))))
  | reset =>
    have h : resetState u = t := by simpa [takeTurn] using h
    exact .inr (.inr (.inr (.inr (.inr (.inr (.inr (.inr (.inr (.inr (.inr (.inr (.inr ⟨rfl, h.symm⟩))))))))))))

/-- A step is one turn: the next of the schedule, or the engine's. -/
theorem step_turn (s : State) : ∃ x rest,
    ((s.schedule = [] ∧ rest = [] ∧ x = .engine) ∨ s.schedule = x :: rest) ∧
    step s = takeTurn x { s with schedule := rest } := by
  cases h : s.schedule with
  | nil =>
    refine ⟨.engine, [], .inl ⟨rfl, rfl, rfl⟩, ?_⟩
    rw [step_nil s h]
    cases s; simp at h; subst h; rfl
  | cons t rest => exact ⟨t, rest, .inr rfl, step_cons s t rest h⟩

end Sys2Proof.Machine
end

