-- ==== Sys2Proof/Tests/Slice0.lean ====
section
/-! SUPPORT. The model's own tests. Expected values come from spec/95_test_vectors.md and from the encodings of
spec/30_encoding.md; the witnesses show states and operands that meet the hypotheses of the statements. -/

namespace Sys2Proof.Tests

open Sys2Proof Sys2Proof.Machine

/-! ## Helpers -/

/-- `s` after BUILDQT q. -/
def tabled (q : Nat) (s : State) : State :=
  { s with
    qt := buildQt (scaleFactor q)
    ft := buildFt (buildQt (scaleFactor q))
    quality := BitVec.ofNat 7 q
    sf := BitVec.ofNat 13 (scaleFactor q)
    status := { s.status with tv := true } }

/-- The ramp block of 95_test_vectors.md: 32·(k & 7). -/
def ramp : Buffer Byte := Buffer.full fun k => BitVec.ofNat 8 (32 * (k.val % 8))

/-- A coefficient block with one element. -/
def single (k : Fin 64) (v : Int) : Buffer Word := Buffer.full fun j => if j = k then BitVec.ofInt 32 v else 0#32

/-- An idle unit with every buffer valid and the tables of quality 50. -/
def ready50 : State :=
  tabled 50 { State.reset with
    pixIn := ramp, coef := single 0 16, mcoef := single 1 16, pixOut := Buffer.full fun _ => 0#8 }

/-- The same with the tables of quality 100. -/
def ready100 : State := tabled 100 ready50

/-- `s` with `w` running. -/
def running (w : Word) (s : State) : State :=
  { s with pend := .run w, status := { s.status with busy := true } }

/-- `s` with `turns` scheduled. -/
def scheduled (turns : List Turn) (s : State) : State := { s with schedule := turns }

/-- A view of the next state, if there is one. -/
def view {α : Type} (f : State → α) (o : Host.Outcome State Fault Refusal) : Option α :=
  match o with
  | .next t => some (f t)
  | .fault _ => none
  | .refused _ => none

/-! ## WellFormed: an ill-formed term for each check, refused -/

theorem test_wellFormed_quality_low : (Instr.buildqt 0).wellFormed = false := by decide
theorem test_wellFormed_quality_high : (Instr.buildqt 101).wellFormed = false := by decide
theorem test_wellFormed_start_high : (Instr.mask 65 0).wellFormed = false := by decide
theorem test_wellFormed_stop_high : (Instr.mask 0 65).wellFormed = false := by decide
theorem test_wellFormed_accepts : (Instr.buildqt 1).wellFormed && (Instr.buildqt 100).wellFormed &&
    (Instr.mask 64 64).wellFormed && (Instr.mask 0 0).wellFormed = true := by decide

/-! ## Decoding: words written out bit by bit from R91's patterns -/

theorem test_decode_nop : decode 0b0000_0000_0000_0000_0000_0000_0000_0000#32 = .command .nop := by decide
theorem test_decode_buildqt : decode 0b0000_0000_0011_0010_0000_0000_0000_0001#32 = .command (.buildqt 50) := by decide
theorem test_decode_buildqt_negative :
    decode 0b1000_0000_0000_0000_0000_0000_0000_0001#32 = .command (.buildqt 1) := by decide
theorem test_decode_fdct : decode 0b0000_0000_0000_0000_0000_0000_0000_0010#32 = .command (.fdct .raw) := by decide
theorem test_decode_fdct_pre : decode 0b0000_0000_0000_0000_0000_0001_0000_0010#32 = .command (.fdct .pre) := by decide
theorem test_decode_mask : decode 0b0000_0000_0000_0110_0000_0101_0000_0011#32 = .command (.mask 5 6) := by decide
theorem test_decode_mask_clamped :
    decode 0b0000_0000_0111_1111_1000_0000_0000_0011#32 = .command (.mask 0 64) := by decide
theorem test_decode_idct : decode 0b0000_0000_0000_0000_0000_0000_0000_0100#32 = .command (.idct .mcoef) := by decide
theorem test_decode_idct_coef : decode 0b0000_0000_0000_0000_0000_0001_0000_0100#32 = .command (.idct .coef) := by decide
theorem test_decode_rejects : decode 0x0000000F#32 = .reject .illegalOpc ∧ decode 0x01000003#32 = .reject .rsvdBits ∧
    decode 0x00010000#32 = .reject .rsvdBits ∧ decode 0x00000200#32 = .reject .rsvdBits ∧
    decode 0x00000204#32 = .reject .rsvdBits ∧ decode 0x00000101#32 = .reject .rsvdBits ∧
    decode 0x00000015#32 = .reject .illegalOpc := by decide
theorem test_decodeTableWord : decodeTableWord 32 0x00320001 = some (.buildqt 50) ∧
    decodeTableWord 32 0x00000012 = none ∧ decodeTableWord 40 0 = none := by decide

/-- The word that withFetchWord places is the one the next step runs. -/
theorem test_withFetchWord_runs :
    step (State.reset.withFetchWord 32 0x00320001) = exec (.buildqt 50) (State.reset.withFetchWord 32 0x00320001) := rfl

/-! ## One step of each command, from 95_test_vectors.md -/

/-- R230's example: after reset, NOP gives STATUS = 0x0000_0002. -/
theorem test_nop_status :
    view (fun t => t.status.word) (step (State.reset.withFetchWord 32 0)) = some 0x00000002#32 := by decide

/-- Section 2.1: BUILDQT 74 gives SF = 52 and QT[0] = 8. -/
theorem test_buildqt_74 :
    view (fun t => (t.sf, t.qt[0], t.quality)) (exec (.buildqt 74) State.reset) = some (52#13, 8#8, 74#7) := by
  decide +kernel

/-- Section 2.3: FT@50[1], and 90 C1: FT@50[2] pairs with QT@50[2]. -/
theorem test_buildqt_ft :
    view (fun t => (t.ft[1], t.ft[2])) (exec (.buildqt 50) State.reset) =
      some (0x3F80C758F82DD2F2#64, 0x3F8397E885509128#64) := by decide +kernel

/-- Section 3.2: the ramp at quality 50 has COEF[1] = -53. -/
theorem test_fdct_ramp :
    view (fun t => (t.coef.data[1]).toInt) (exec (.fdct .raw) ready50) = some (-53) := by decide +kernel

/-- Section 3.1, read with PRE = 1: a flat block of samples 127 at quality 50 has COEF[0] = 64. -/
theorem test_fdct_pre_flat :
    view (fun t => (t.coef.data[0]).toInt)
      (exec (.fdct .pre) { ready50 with pixIn := Buffer.full fun _ => 0x7F#8 }) = some 64 := by decide +kernel

/-- Section 4: MASK 5, 6 keeps natural index 2 only, and PHASE reads 0x0000_0605. -/
theorem test_mask_5_6 :
    view (fun t => (t.mcoef.data[2], t.mcoef.data[5], t.phase.word))
      (exec (.mask 5 6) { ready50 with coef := Buffer.full fun k => BitVec.ofInt 32 (-21 - k.val) }) =
    some (BitVec.ofInt 32 (-23), 0#32, 0x00000605#32) := by decide +kernel

/-- Section 4: MASK 10, 5 keeps nothing. -/
theorem test_mask_empty :
    view (fun t => t.mcoef.data[0]) (exec (.mask 10 5) ready50) = some 0#32 := by decide +kernel

/-- Section 5.1: C[1] = 16 at QT = 1, from MCOEF: W row 0 ends in -126, and PIX_OUT row 0 starts 131, 130. -/
theorem test_idct_general_path :
    view (fun t => (t.w[7], t.pixOut.data[0], t.pixOut.data[1], t.pixOut.data[7])) (exec (.idct .mcoef) ready100) =
      some (-126, 131#8, 130#8, 125#8) := by decide +kernel

/-- Section 5.3: C[0] = 10000 at QT@50, from COEF: W row 0 is 905157 and PIX_OUT is 255. -/
theorem test_idct_clamps :
    view (fun t => (t.w[0], t.pixOut.data[63])) (exec (.idct .coef) { ready50 with coef := single 0 10000 }) =
      some (905157, 255#8) := by decide +kernel

/-- Section 3.6: RoundHalfAway one step below the artefact, and at 1023.5 and -1025.5. -/
theorem test_roundHalfAway : roundHalfAway 0x3FDFFFFFFFFFFFFE#64 = 0 ∧ roundHalfAway 0x408FFC0000000000#64 = 1024 ∧
    roundHalfAway 0xC090060000000000#64 = -1026 := by decide +kernel

/-- Section 2.4: AAN[3]'s two words through the window. -/
theorem test_read_aan :
    view (fun t => t.reply) (hostRead 0xB18#12 State.reset) = some (some (.read 0xEF6C11AA#32 .okay)) ∧
    view (fun t => t.reply) (hostRead 0xB1C#12 State.reset) = some (some (.read 0x3FF2D062#32 .okay)) := by
  decide +kernel

/-- R246's examples: busy beats the illegal opcode, reserved bits beat the missing table, misaligned beats read-only. -/
theorem test_error_priority :
    (hostWrite 0x00C#12 5#32 (running 0#32 State.reset)).status.errcode = .busBusy ∧
    (hostWrite 0x00C#12 0x12#32 State.reset).status.errcode = .cmdRsvdBits ∧
    (hostWrite 0x402#12 0#32 State.reset).status.errcode = .busMisaligned := by decide +kernel

/-- R102: `RECON -3, 100` is two commands with their polls, and ACKERR clears the record. -/
theorem test_script : reconTurns 0 (-3) 100 = some
      [.write 0x00C#12 0x0064FD03#32, .engine, .read 0x008#12, .write 0x00C#12 4#32, .engine, .read 0x008#12] ∧
    ackerrTurn = .write 0x008#12 0xC#32 := by decide

/-! ## Witnesses: states and operands that meet the hypotheses -/

theorem allValid_ready50 : ready50.pixIn.allValid = true ∧ ready50.coef.allValid = true ∧
    ready50.mcoef.allValid = true ∧ ready50.pixOut.allValid = true ∧ ready50.status.tv = true := by
  refine ⟨?_, ?_, ?_, ?_, rfl⟩ <;> simp [ready50, tabled, ramp, single]

theorem ready_ready50 (i : Instr) : ready i ready50 = true := by
  obtain ⟨a, b, c, _, e⟩ := allValid_ready50
  cases i with
  | nop => rfl
  | buildqt q => rfl
  | fdct m => simp [ready, a, e]
  | mask x y => simp [ready, b]
  | idct c' => cases c' <;> simp [ready, b, c, e]

/-- Every command completes from the one ready state. -/
theorem witness_completions (i : Instr) : ∃ t, exec i ready50 = .next t := exec_of_ready i ready50 (ready_ready50 i)

theorem witness_DecodeEncodeRoundTrip : (Instr.buildqt 1).WellFormed ∧ (Instr.buildqt 100).WellFormed ∧
    (Instr.mask 0 64).WellFormed ∧ (Instr.mask 64 0).WellFormed ∧ Instr.nop.WellFormed ∧ (Instr.fdct .pre).WellFormed ∧
    (Instr.idct .coef).WellFormed := by decide

theorem witness_ReservedBitsDecideLegality :
    ((0xFFFF0001#32 : Word) &&& 0xF#32 = 1#32 ∧ (0xFFFF0001#32 : Word) &&& 0x0000FFF0#32 = 0#32) ∧
    ((0x00000010#32 : Word) &&& 0xF#32 = 0#32 ∧ (0x00000010#32 : Word) &&& 0xFFFFFFF0#32 ≠ 0#32) ∧
    ((0x00000202#32 : Word) &&& 0xF#32 = 2#32 ∧ (0x00000202#32 : Word) &&& 0xFFFFFEF0#32 ≠ 0#32) ∧
    ((0x00FFFF03#32 : Word) &&& 0xF#32 = 3#32 ∧ (0x00FFFF03#32 : Word) &&& 0xFF0000F0#32 = 0#32) ∧
    ((0x00000104#32 : Word) &&& 0xF#32 = 4#32 ∧ (0x00000104#32 : Word) &&& 0xFFFFFEF0#32 = 0#32) ∧
    5 ≤ ((0x00000005#32 : Word) &&& 0xF#32).toNat ∧ 5 ≤ ((0xFFFFFFFF#32 : Word) &&& 0xF#32).toNat := by decide

theorem witness_AssembledOperandsAreNotWrapped :
    assemble (.buildqt (-32769)) = none ∧ assemble (.buildqt (-32768)) = some 0x80000001#32 ∧
    assemble (.buildqt 32767) = some 0x7FFF0001#32 ∧ assemble (.buildqt 32768) = none ∧
    assemble (.mask (-129) 0) = none ∧ assemble (.mask 0 128) = none ∧
    assemble (.mask (-128) 127) = some 0x007F8003#32 := by decide

theorem witness_StepTakesOneTurn :
    ((running 0#32 State.reset).schedule = [] ∧ (running 0#32 State.reset).pend = .run 0#32 ∧
      decode 0#32 = .command .nop) ∧
    ((scheduled [.engine, .reset] (running 0#32 State.reset)).schedule = .engine :: [.reset]) ∧
    (scheduled [.read 0x008#12] State.reset).schedule = .read 0x008#12 :: [] ∧
    (scheduled [.write 0x008#12 0#32] State.reset).schedule = .write 0x008#12 0#32 :: [] ∧
    (scheduled [.reset] State.reset).schedule = .reset :: [] ∧
    (scheduled [.engine] State.reset).schedule = .engine :: [] ∧ State.reset.pend = .idle := by decide

theorem witness_AcceptanceOfACommandWord :
    State.reset.status.busy = false ∧ decode 0x00320001#32 = .command (.buildqt 50) ∧
    decode 0x00000002#32 = .command (.fdct .raw) ∧ ready50.status.tv = true ∧ ready50.status.busy = false ∧
    State.reset.status.tv = false ∧ decode 0x00000005#32 = .reject .illegalOpc ∧
    decode 0x00000012#32 = .reject .rsvdBits := ⟨rfl, by decide, by decide, rfl, rfl, rfl, by decide, by decide⟩

theorem witness_CommandsCompleteExactlyWhenReady :
    (∀ i, ready i ready50 = true) ∧ ready (.fdct .raw) State.reset = false ∧ ready (.mask 0 64) State.reset = false ∧
    ready (.idct .coef) State.reset = false ∧
    (∃ t, step (running 0#32 ready50) = .next t) ∧ (∀ rest, (running 0#32 ready50).schedule ≠ .reset :: rest) ∧
    (∀ d rest, (running 0#32 ready50).schedule ≠ .write 0x004#12 d :: rest) :=
  ⟨ready_ready50, by decide +kernel, by decide +kernel, by decide +kernel, ⟨_, rfl⟩,
    fun _ h => (by cases h), fun _ _ h => (by cases h)⟩

theorem witness_CompletionFrame (i : Instr) : ∃ t, exec i ready50 = .next t := witness_completions i

theorem witness_CommandsArePureFunctions : ∃ t t', exec (.idct .coef) ready50 = .next t ∧
    exec (.idct .coef) { ready50 with mcoef := single 5 7 } = .next t' ∧
    ready50.coef.data = ({ ready50 with mcoef := single 5 7 } : State).coef.data := by
  obtain ⟨t, h⟩ := witness_completions (.idct .coef)
  obtain ⟨t', h'⟩ := exec_of_ready (.idct .coef) { ready50 with mcoef := single 5 7 } (by
    obtain ⟨_, b, _, _, e⟩ := allValid_ready50
    simp [ready, b, e])
  exact ⟨t, t', h, h', rfl⟩

theorem witness_DoneRisesOnlyByCompletion : ∃ t, step (running 0#32 State.reset) = .next t ∧ t.status.done = true ∧
    (running 0#32 State.reset).status.done = false ∧ (running 0#32 State.reset).schedule = [] ∧
    (scheduled [.engine] (running 0#32 State.reset)).schedule = .engine :: [] := ⟨_, rfl, rfl, rfl, rfl, rfl⟩

theorem witness_OperandsAreFrozenWhileBusy :
    (running 0#32 ready50).status.busy = true ∧ harmless (.write 0x004#12 3#32) = true ∧
    harmless (.read 0x400#12) = true ∧ harmless (.write 0x004#12 0x80000000#32) = false ∧
    ∃ t, step (scheduled [.write 0x100#12 7#32] (running 0#32 ready50)) = .next t :=
  ⟨rfl, by decide, by decide, by decide, _, rfl⟩

theorem witness_ResultIsIndependentOfLatency :
    (running 0x00400003#32 ready50).status.busy = true ∧ (running 0x00400003#32 ready50).pend.isRun = true ∧
    (∀ x ∈ [Turn.read 0x008#12, Turn.read 0x100#12, Turn.write 0x200#12 9#32], harmless x = true) ∧
    ∃ t, step (scheduled [.engine] (running 0x00400003#32 ready50)) = .next t := by
  refine ⟨rfl, rfl, by decide, ?_⟩
  rw [step_cons _ .engine [] rfl]
  obtain ⟨t, h⟩ := exec_of_ready (.mask 0 64) (running 0x00400003#32 ready50) (ready_ready50 (.mask 0 64))
  exact ⟨t, (engineTurn_run (running 0x00400003#32 ready50) 0x00400003#32 (.mask 0 64) rfl (by decide)).trans h⟩

theorem witness_BuildqtResult : (1 ≤ 1 ∧ 1 ≤ 100) ∧ (1 ≤ 100 ∧ 100 ≤ 100) ∧ (49 < 50) ∧
    (∃ t, exec (.buildqt 1) State.reset = .next t) ∧ ∃ t, exec (.buildqt 100) State.reset = .next t :=
  ⟨by decide, by decide, by decide, ⟨_, rfl⟩, _, rfl⟩

theorem witness_ScaleFactorOfQuality : ∃ t t', exec (.buildqt 49) State.reset = .next t ∧
    exec (.buildqt 50) State.reset = .next t' ∧ t.sf.toNat = 102 ∧ t'.sf.toNat = 100 :=
  ⟨_, _, rfl, rfl, by decide, by decide⟩

theorem witness_StepSizesOfQuality : ∃ t t', exec (.buildqt 10) State.reset = .next t ∧
    exec (.buildqt 90) State.reset = .next t' := ⟨_, _, rfl, rfl⟩

theorem witness_ForwardEntriesAreNormal : (1#8 : Byte) ≠ 0#8 ∧ (255#8 : Byte) ≠ 0#8 := by decide

theorem witness_AdditionIsCorrectlyRounded : fIsFinite 0x3FF0000000000000#64 = true ∧
    fIsFinite 0x7FEFFFFFFFFFFFFF#64 = true ∧ fIsFinite 0x0000000000000001#64 = true ∧
    fIsFinite 0x7FF0000000000000#64 = false := by decide

theorem witness_MultiplicationIsCorrectlyRounded : fIsFinite 0x7FEFFFFFFFFFFFFF#64 = true ∧
    fIsFinite 0x0000000000000001#64 = true ∧ fValue 0x0000000000000001#64 ≠ 0 ∧
    fValue 0x3FF0000000000000#64 ≠ 0 := by decide +kernel

theorem witness_IntegerConversionsAreExact : (-1024 : Int).natAbs < 2 ^ 53 ∧ (9007199254740991 : Int).natAbs < 2 ^ 53 ∧
    fIsFinite 0xC004000000000000#64 = true ∧ fIsFinite 0x4004000000000000#64 = true := by decide

theorem witness_FdctResult : ready50.pixIn.allValid = true ∧ ready50.status.tv = true :=
  ⟨allValid_ready50.1, allValid_ready50.2.2.2.2⟩

/-- A flat block of 255 (sample 127), and the same block pre-shifted. -/
def flat255 : State := { ready50 with pixIn := Buffer.full fun _ => 0xFF#8 }
def flat127pre : State := { ready50 with pixIn := Buffer.full fun _ => 0x7F#8 }

theorem witness_PreShiftedInputIsEquivalent : flat255.pixIn.allValid = true ∧ flat127pre.pixIn.allValid = true ∧
    flat255.status.tv = true ∧ flat127pre.status.tv = true ∧ flat127pre.ft = flat255.ft ∧
    ∀ k : Fin 64, flat127pre.pixIn.data[k] = flat255.pixIn.data[k] ^^^ 0x80#8 := by
  refine ⟨by simp [flat255], by simp [flat127pre], rfl, rfl, rfl, fun k => ?_⟩
  simp only [flat255, flat127pre, Buffer.full_data_get]; decide

theorem witness_FlatBlockHasOnlyDc : flat255.pixIn.allValid = true ∧ flat255.status.tv = true ∧
    (∀ k : Fin 64, fIsFinite flat255.ft[k] = true) ∧ ∀ k : Fin 64, levelShift flat255.pixIn.data[k] .raw = 127 := by
  refine ⟨by simp [flat255], rfl, by decide +kernel, fun k => ?_⟩
  simp only [flat255, Buffer.full_data_get]; decide

theorem tablesBuilt_ready50 : TablesBuilt ready50 := ⟨by decide, by decide, rfl, rfl, rfl⟩

theorem tablesBuilt_ready100 : TablesBuilt ready100 := ⟨by decide, by decide, rfl, rfl, rfl⟩

theorem witness_ForwardArithmeticNeverOverflows :
    ready50.pixIn.allValid = true ∧ ready50.status.tv = true ∧ TablesBuilt ready50 :=
  ⟨allValid_ready50.1, rfl, tablesBuilt_ready50⟩

theorem witness_FlatRoundTripExactFrom74 : TablesBuilt ready50 ∧ ready50.status.tv = true ∧
    ¬ 74 ≤ ready50.quality.toNat ∧ TablesBuilt ready100 ∧ ready100.status.tv = true ∧ 74 ≤ ready100.quality.toNat :=
  ⟨tablesBuilt_ready50, rfl, by decide, tablesBuilt_ready100, rfl, by decide⟩

theorem witness_MaskResult : ready50.coef.allValid = true ∧ (0 ≤ 64 ∧ 64 ≤ 64) ∧
    (∃ t, exec (.mask 0 64) ready50 = .next t) ∧ (∃ t, exec (.mask 0 1) ready50 = .next t) ∧
    (∃ t, exec (.mask 63 64) ready50 = .next t) ∧ ∃ t, exec (.mask 64 0) ready50 = .next t :=
  ⟨allValid_ready50.2.1, by decide, witness_completions _, witness_completions _, witness_completions _,
    witness_completions _⟩

theorem witness_MaskKeepsTheRanks : (0 ≤ 64 ∧ 64 ≤ 64) ∧ (∃ t, exec (.mask 0 64) ready50 = .next t) ∧
    (∃ t, exec (.mask 5 6) ready50 = .next t) ∧ ∃ t, exec (.mask 64 0) ready50 = .next t :=
  ⟨by decide, witness_completions _, witness_completions _, witness_completions _⟩

theorem witness_MaskEdgeCases : (∃ t, exec (.mask 0 64) ready50 = .next t) ∧ (∃ t, exec (.mask 0 1) ready50 = .next t) ∧
    (∃ t, exec (.mask (63 : Fin 64).val ((63 : Fin 64).val + 1)) ready50 = .next t) ∧
    (5 ≤ 10 ∧ ∃ t, exec (.mask 10 5) ready50 = .next t) ∧ 7 ≤ 7 ∧ ∃ t, exec (.mask 7 7) ready50 = .next t :=
  ⟨witness_completions _, witness_completions _, witness_completions _, ⟨by decide, witness_completions _⟩, by decide,
    witness_completions _⟩

theorem witness_PhaseAddsOneCoefficient : (∃ t t', exec (.mask 0 (0 : Fin 64).val) ready50 = .next t ∧
      exec (.mask 0 ((0 : Fin 64).val + 1)) ready50 = .next t') ∧
    ∃ t t', exec (.mask 0 (63 : Fin 64).val) ready50 = .next t ∧
      exec (.mask 0 ((63 : Fin 64).val + 1)) ready50 = .next t' := by
  obtain ⟨a, ha⟩ := witness_completions (.mask 0 0)
  obtain ⟨b, hb⟩ := witness_completions (.mask 0 1)
  obtain ⟨c, hc⟩ := witness_completions (.mask 0 63)
  obtain ⟨d, hd⟩ := witness_completions (.mask 0 64)
  exact ⟨⟨a, b, ha, hb⟩, c, d, hc, hd⟩

theorem witness_MaskIsIdempotent : ∃ t u, exec (.mask 5 6) ready50 = .next t ∧
    exec (.mask 5 6) { t with coef := t.mcoef } = .next u := by
  obtain ⟨t, h⟩ := witness_completions (.mask 5 6)
  have hv : t.mcoef.allValid = true := by
    rcases (exec_next_cases _ _ _ h).2 with ⟨hi, _⟩ | ⟨_, hi, _⟩ | ⟨_, hi, _⟩ | ⟨_, _, _, e⟩ | ⟨_, hi, _⟩
    · cases hi
    · cases hi
    · cases hi
    · rw [e]; simp
    · cases hi
  obtain ⟨u, h'⟩ := exec_of_ready (.mask 5 6) { t with coef := t.mcoef } hv
  exact ⟨t, u, h, h'⟩

theorem witness_IdctResult : ready50.mcoef.allValid = true ∧ ready50.coef.allValid = true ∧ ready50.status.tv = true :=
  ⟨allValid_ready50.2.2.1, allValid_ready50.2.1, rfl⟩

theorem witness_FastPathEqualsButterfly : ∀ n : Fin 8, n ≠ 0 → (#v[(-3 : Int), 0, 0, 0, 0, 0, 0, 0])[n] = 0 := by decide

/-- Section 5.1: the row pass of p = (0, 16, 0, …) ends in W[7] = -126, the last node; the lists hold what they bound. -/
theorem witness_InverseDatapathFitsIn64Bits :
    (rowNodes #v[0, 16, 0, 0, 0, 0, 0, 0]).getLast? = some (-126) ∧
    2896 * 16 + 128 ∈ rowNodes #v[0, 16, 0, 0, 0, 0, 0, 0] ∧ 5793 * 3 + 14336 ∈ colNodes #v[3, 0, 0, 0, 0, 0, 0, 0] := by
  decide +kernel

theorem witness_DcOnlyBlockIsUniform : ready (.idct .coef) ready50 = true ∧ ready (.idct .mcoef) ready50 = true ∧
    ∀ k : Fin 64, k ≠ 0 → (sourceBuffer .coef ready50).data[k] = 0#32 := by
  refine ⟨ready_ready50 _, ready_ready50 _, fun k hk => ?_⟩
  show (single 0 16).data[k] = 0#32
  rw [single, Buffer.full_data_get, if_neg hk]

theorem witness_LargeDcIsClamped :
    ready (.idct .coef) { ready50 with coef := single 0 10000 } = true ∧
    ({ ready50 with coef := single 0 10000 } : State).qt[(0 : Fin 64)] ≠ 0#8 ∧
    ((single 0 10000).data[(0 : Fin 64)]).toInt = 10000 ∧ ((single 0 (-10000)).data[(0 : Fin 64)]).toInt = -10000 ∧
    (∀ k : Fin 64, k ≠ 0 → (single 0 10000).data[k] = 0#32) ∧
    ((1 : Int) ≤ 1 ∧ (1 : Int) ≤ 255) ∧ (1 : Int) ≤ 255 ∧ (255 : Int) ≤ 255 := by
  refine ⟨by simp [ready, single, ready50, tabled], by decide +kernel, by decide +kernel, by decide +kernel,
    fun k hk => ?_, by decide, by decide, by decide⟩
  rw [single, Buffer.full_data_get, if_neg hk]

theorem witness_OutputStageThresholds : outStage (-2041) = 0#8 ∧ outStage (-2040) = 1#8 ∧ outStage (-8) = 128#8 ∧
    outStage 7 = 128#8 ∧ outStage 2023 = 254#8 ∧ outStage 2024 = 255#8 ∧ outStage (-9) = 127#8 ∧ outStage 8 = 129#8 := by
  decide

theorem witness_AddressMapIsR62 : misaligned 0x000#12 = false ∧ locate 0x000#12 = some .id ∧
    misaligned 0xB3C#12 = false ∧ locate 0xB3C#12 = some (.aanHigh 7) ∧ locate 0x01C#12 = some .phase ∧
    locate 0x020#12 = none ∧ locate 0x0FC#12 = none ∧ locate 0x100#12 = some (.pixIn 0) ∧ locate 0xB40#12 = none ∧
    locate 0xFFC#12 = none := by decide

theorem witness_AccessChecksInOrder :
    writeCheck 0x402 true = some .busMisaligned ∧ writeCheck 0x0FC true = some .busUnmapped ∧
    writeCheck 0x020 false = some .busUnmapped ∧ writeCheck 0xB40 false = some .busUnmapped ∧
    writeCheck 0x000 true = some .busReadonly ∧ writeCheck 0x010 false = some .busReadonly ∧
    writeCheck 0x01C false = some .busReadonly ∧ writeCheck 0x400 true = some .busReadonly ∧
    writeCheck 0xB3C false = some .busReadonly ∧ writeCheck 0x00C true = some .busBusy ∧
    writeCheck 0x100 true = some .busBusy ∧ writeCheck 0x3FC true = some .busBusy ∧ writeCheck 0x3FC false = none ∧
    writeCheck 0x004 true = none ∧ writeCheck 0x008 true = none ∧ readCheck 0xB41 = some .busMisaligned ∧
    readCheck 0xB40 = some .busUnmapped ∧ readCheck 0x00C = none ∧
    ∃ t, hostRead 0x00C#12 State.reset = .next t := ⟨rfl, rfl, rfl, rfl, rfl, rfl, rfl, rfl, rfl, rfl, rfl, rfl, rfl,
  rfl, rfl, rfl, rfl, rfl, _, rfl⟩

theorem witness_HostReadsReturnTheElements : ready50.status.busy = false ∧ ready50.status.tv = true ∧
    ∀ k : Fin 64, ready50.pixIn.valid[k] = true ∧ ready50.coef.valid[k] = true ∧ ready50.mcoef.valid[k] = true ∧
      ready50.pixOut.valid[k] = true := by
  obtain ⟨a, b, c, d, _⟩ := allValid_ready50
  exact ⟨rfl, rfl, fun k => ⟨(Buffer.allValid_iff _).1 a k, (Buffer.allValid_iff _).1 b k,
    (Buffer.allValid_iff _).1 c k, (Buffer.allValid_iff _).1 d k⟩⟩

/-- The first and the last element; PIX_IN keeps bits 7:0 of the data (R65). -/
theorem witness_HostWritesStoreTheElement : State.reset.status.busy = false ∧
    view (fun t => t.reply) (hostRead 0x100#12 (hostWrite 0x100#12 0xFFFFFF80#32 State.reset)) =
      some (some (.read 0x00000080#32 .okay)) ∧
    view (fun t => t.reply) (hostRead 0x3FC#12 (hostWrite 0x3FC#12 0x80000000#32 State.reset)) =
      some (some (.read 0x80000000#32 .okay)) := by decide +kernel

theorem witness_ReadsHaveNoSideEffect : ∃ t, hostRead 0x008#12 ready50 = .next t ∧
    t.reply = some (.read 0x00000010#32 .okay) ∧ ready50.status.busy = false := ⟨_, rfl, rfl, rfl⟩

theorem witness_AccessesWhileBusy : (running 0#32 ready50).status.busy = true ∧
    locate 0x01C#12 = some .phase ∧ locate 0x800#12 = some (.zzToNat 0) ∧ locate 0xB3C#12 = some (.aanHigh 7) ∧
    (0x100#12 : Addr).toNat % 4 = 0 ∧ (0x7FC#12 : Addr).toNat < 0x800 ∧ (0x3FC#12 : Addr).toNat < 0x400 ∧
    (0x00000003#32 : Word).getLsbD 31 = false ∧ (0x80000003#32 : Word).getLsbD 31 = true :=
  ⟨rfl, by decide, by decide, by decide, by decide, by decide, by decide, by decide, by decide⟩

theorem witness_UndefinedElementsFaultOnRead : State.reset.status.busy = false ∧ State.reset.status.tv = false ∧
    ∀ k : Fin 64, State.reset.pixIn.valid[k] = false ∧ State.reset.coef.valid[k] = false ∧
      State.reset.mcoef.valid[k] = false ∧ State.reset.pixOut.valid[k] = false := by
  refine ⟨rfl, rfl, fun k => ?_⟩
  simp [State.reset, Buffer.invalid]

theorem witness_RecordErrorKeepsTheFirst : State.reset.status.err = false ∧
    (recordError .busUnmapped 0x20#32 State.reset).status.err = true := by decide

/-- ERRCODE 5 and 3, as R240 numbers BUS_UNMAPPED and CMD_NO_TABLE. -/
theorem witness_StatusReadAndClear : (hostWrite 0x020#12 0#32 State.reset).status.errcode = .busUnmapped ∧
    (hostWrite 0x020#12 0#32 State.reset).status.word = 0x00000504#32 ∧
    (hostWrite 0x00C#12 2#32 State.reset).status.errcode = .cmdNoTable ∧
    (hostWrite 0x00C#12 2#32 State.reset).status.word = 0x00000304#32 := by decide +kernel

theorem witness_CtrlReadAndWrite : (0x00000003#32 : Word).getLsbD 31 = false ∧
    (0x7FFFFFFC#32 : Word).getLsbD 31 = false := by decide

/-- The engine's turn, a reset turn on a recorded error, and the accesses that raise one: a failed read, a failed write and
a CMD write; a STATUS write and a soft reset clear it. -/
theorem witness_ErrorsBelongToHostAccesses :
    (∃ t, step (running 0#32 ready50) = .next t ∧ (running 0#32 ready50).schedule = []) ∧
    (∃ t, step (scheduled [.reset] (recordError .busUnmapped 0x20#32 ready50)) = .next t ∧ t.status.err = false) ∧
    (∃ t, step (scheduled [.read 0x020#12] ready50) = .next t ∧ t.status.err = true ∧
      readCheck (0x020#12 : Addr).toNat ≠ none) ∧
    (∃ t, step (scheduled [.write 0x400#12 0#32] ready50) = .next t ∧ t.status.err = true ∧
      writeCheck (0x400#12 : Addr).toNat false ≠ none) ∧
    (∃ t, step (scheduled [.write 0x00C#12 5#32] ready50) = .next t ∧ t.status.err = true) ∧
    (∃ t, step (scheduled [.write 0x008#12 4#32] (recordError .busUnmapped 0x20#32 ready50)) = .next t ∧
      t.status.err = false) ∧
    ∃ t, step (scheduled [.write 0x004#12 0x80000000#32] (recordError .busUnmapped 0x20#32 ready50)) = .next t ∧
      t.status.err = false :=
  ⟨⟨_, rfl, rfl⟩, ⟨_, rfl, rfl⟩, ⟨_, rfl, rfl, by decide⟩, ⟨_, rfl, rfl, by decide⟩, ⟨_, rfl, rfl⟩, ⟨_, rfl, rfl⟩,
    _, rfl, rfl⟩

/-- ready50 with `turns` scheduled and an error recorded differs from the same without one in the record alone, and it
steps on a read of STATUS, of ERRINFO and of another register, and on a command write. -/
theorem witness_ErrorRecordBlocksNothing (turns : List Turn) :
    (recordError .busUnmapped 0x20#32 (scheduled turns ready50)) =
        { scheduled turns ready50 with
          status := { ready50.status with err := true, errcode := .busUnmapped, eovf := false }
          errinfo := 0x20#32 } ∧
    (∃ t, step (scheduled [.read 0x008#12] ready50) = .next t ∧ t.reply = some (.read 0x00000010#32 .okay)) ∧
    (∃ t, step (scheduled [.read 0x010#12] ready50) = .next t ∧ t.reply = some (.read 0#32 .okay)) ∧
    (∃ t, step (scheduled [.read 0x014#12] ready50) = .next t ∧ t.reply = some (.read 50#32 .okay)) ∧
    ∃ t, step (scheduled [.write 0x00C#12 0#32] ready50) = .next t ∧ t.status.busy = true :=
  ⟨rfl, ⟨_, rfl, rfl⟩, ⟨_, rfl, rfl⟩, ⟨_, rfl, rfl⟩, _, rfl, rfl⟩

theorem witness_InterruptIsRaisedAndCleared :
    (∃ t, exec .nop { ready50 with ctrl := ⟨true, false⟩ } = .next t ∧ t.irq = true) ∧
    writeCheck (0x400#12 : Addr).toNat false = some .busReadonly ∧ readCheck (0x020#12 : Addr).toNat = some .busUnmapped ∧
    readCheck (0xFFF#12 : Addr).toNat = some .busMisaligned ∧
    decode 0x00000005#32 = .reject .illegalOpc ∧ decode 0x00000012#32 = .reject .rsvdBits ∧
    decode 0x00000002#32 = .command (.fdct .raw) ∧ State.reset.status.tv = false ∧ State.reset.status.busy = false ∧
    ready50.status.tv = true ∧
    (∃ t, hostRead 0x020#12 { ready50 with ctrl := ⟨false, true⟩ } = .next t ∧ t.irq = true) ∧
    (hostWrite 0x00C#12 5#32 { State.reset with ctrl := ⟨false, true⟩ }).irq = true ∧
    (hostWrite 0x00C#12 5#32 State.reset).irq = false ∧
    (0x00000000#32 : Word).getLsbD 31 = false ∧ (0x00000000#32 : Word).getLsbD 0 = false ∧
    (∃ t, step ready50 = .next t ∧ t.status.done = ready50.status.done ∧ t.ctrl = ready50.ctrl) :=
  ⟨⟨_, rfl, rfl⟩, by decide, by decide, by decide, by decide, by decide, by decide, rfl, rfl, rfl, ⟨_, rfl, rfl⟩,
    by decide +kernel, by decide +kernel, by decide, by decide, _, rfl, rfl, rfl⟩

theorem witness_ResetLeavesTheResetState : (0x80000003#32 : Word).getLsbD 31 = true ∧
    (0x80000000#32 : Word).getLsbD 31 = true := by decide

theorem inv_ready50 : Inv ready50 where
  busyIsRun := rfl
  pendAccepted := fun _ h => by cases h
  errHasCode := by decide
  lastopLegal := by decide
  phaseStart := by decide
  phaseStop := by decide
  tablesWhenTv := fun _ => tablesBuilt_ready50
  nothingWithoutTv := fun h => by cases h

theorem witness_OnlyUninitReadCanStopTheMachine : Inv ready50 := inv_ready50

theorem witness_InvariantIsKeptByEveryStep : ∃ s t, Inv s ∧ step s = .next t ∧ s ≠ t :=
  ⟨scheduled [.write 0x008#12 0#32] ready50, _,
    { inv_ready50 with
      tablesWhenTv := fun _ => { tablesBuilt_ready50 with }
      pendAccepted := fun _ h => by cases h }, rfl, fun h => by cases h⟩

end Sys2Proof.Tests
end

section
/-! SUPPORT. The statements of spec/00_scope.md (R11): the binary64 operations are `fRound` of the exact result, so
each is correctly rounded; a value that has a pattern rounds to itself; `trunc` drops the fraction of the magnitude. -/

namespace Sys2Proof.Machine

/-! ### Addition and subtraction -/

/-- An integer by its sign and magnitude. -/
theorem sign_mul_natAbs (n : Int) : (if decide (n < 0) then (-1 : ℚ) else 1) * (n.natAbs : ℚ) = n := by
  rw [Nat.cast_natAbs]
  by_cases h : n < 0
  · simp [h, abs_of_neg]
  · simp [h, abs_of_nonneg (not_lt.1 h)]

/-- Rounding an integer multiple of a power of two, its sign taken from the integer. -/
theorem correctlyRounded_fRound_int (n : Int) (e : Int) :
    CorrectlyRounded (fRound (decide (n < 0)) n.natAbs 1 e) ((n : ℚ) * 2 ^ e) := by
  have h := correctlyRounded_fRound (decide (n < 0)) n.natAbs 1 e one_ne_zero
  rwa [Nat.cast_one, div_one, ← mul_assoc, sign_mul_natAbs] at h

/-- A value in a unit 2^e no coarser than its own. -/
theorem fSignedMant_rescaled (x : F64) (e : Int) (h : e ≤ fScale x) :
    ((fSignedMant x * 2 ^ (fScale x - e).toNat : Int) : ℚ) * 2 ^ e = fValue x := by
  push_cast
  rw [fValue, mul_assoc, ← zpow_natCast, ← zpow_add₀ two_ne_zero]
  congr 2
  omega

theorem correctlyRounded_fAddFinite (x y : F64) : CorrectlyRounded (fAddFinite x y) (fValue x + fValue y) := by
  rw [← fSignedMant_rescaled x _ (min_le_left (fScale x) (fScale y)),
    ← fSignedMant_rescaled y _ (min_le_right (fScale x) (fScale y)), ← add_mul, ← Int.cast_add]
  unfold fAddFinite
  simp only
  split
  case isTrue hn =>
    rw [hn, Int.cast_zero, zero_mul]
    exact correctlyRounded_zero _
  case isFalse => exact correctlyRounded_fRound_int _ _

theorem correctlyRounded_fAdd (x y : F64) (hx : fIsFinite x = true) (hy : fIsFinite y = true) :
    CorrectlyRounded (fAdd x y) (fValue x + fValue y) := by
  rw [fAdd_finite x y hx hy]
  exact correctlyRounded_fAddFinite x y

/-- Settles O20: the sum of two finite values is `fRound` of an integer in the smaller of their units, and a difference
is the sum with the negated operand. -/
theorem additionIsCorrectlyRounded : Obligations.AdditionIsCorrectlyRounded := by
  intro x y hx hy
  obtain ⟨hneg, hfin⟩ := fNeg_spec y
  refine ⟨correctlyRounded_fAdd x y hx hy, ?_⟩
  rw [fSub, sub_eq_add_neg, ← hneg]
  exact correctlyRounded_fAdd x (fNeg y) hx (hfin.trans hy)

/-! ### Multiplication and division -/

/-- The sign of a product and of a quotient. -/
theorem sign_xor (s t : Bool) :
    (if s ^^ t then (-1 : ℚ) else 1) = (if s then -1 else 1) * (if t then -1 else 1) ∧
    (if s ^^ t then (-1 : ℚ) else 1) = (if s then -1 else 1) / (if t then -1 else 1) := by
  cases s <;> cases t <;> norm_num

theorem correctlyRounded_fMul (x y : F64) (hx : fIsFinite x = true) (hy : fIsFinite y = true) :
    CorrectlyRounded (fMul x y) (fValue x * fValue y) := by
  have hv : fValue x * fValue y = (if fSign x ^^ fSign y then -1 else 1) *
      (((fMant x * fMant y : Nat) : ℚ) / (1 : Nat) * 2 ^ (fScale x + fScale y)) := by
    rw [fValue_eq x, fValue_eq y, (sign_xor _ _).1, zpow_add₀ two_ne_zero]
    push_cast
    ring
  rw [fMul_finite x y hx hy, hv]
  exact correctlyRounded_fRound _ _ _ _ one_ne_zero

theorem correctlyRounded_fDiv (x y : F64) (hx : fIsFinite x = true) (hy : fIsFinite y = true) (h : fValue y ≠ 0) :
    CorrectlyRounded (fDiv x y) (fValue x / fValue y) := by
  have hv : fValue x / fValue y = (if fSign x ^^ fSign y then -1 else 1) *
      ((fMant x : ℚ) / fMant y * 2 ^ (fScale x - fScale y)) := by
    rw [fValue_eq x, fValue_eq y, (sign_xor _ _).2, zpow_sub₀ two_ne_zero, mul_div_mul_comm, mul_div_mul_comm]
  rw [fDiv_finite x y hx hy h, hv]
  exact correctlyRounded_fRound _ _ _ _ (fIsZero_of_value y h).2

/-- Settles O21: a product and a quotient of finite values are `fRound` of the significands' product and ratio. -/
theorem multiplicationIsCorrectlyRounded : Obligations.MultiplicationIsCorrectlyRounded :=
  fun x y hx hy => ⟨correctlyRounded_fMul x y hx hy, correctlyRounded_fDiv x y hx hy⟩

/-! ### Conversions -/

/-- A value below the overflow threshold that some pattern has is rounded to itself. -/
theorem correctlyRounded_exact {r z : F64} (h : CorrectlyRounded r (fValue z)) (hz : fIsFinite z = true)
    (ht : |fValue z| < 2 ^ 1024 - 2 ^ 970) : fIsFinite r = true ∧ fValue r = fValue z := by
  unfold CorrectlyRounded at h
  rw [if_pos ht] at h
  obtain ⟨hfin, hnear⟩ := h
  have h0 := (hnear z hz).1
  rw [sub_self, abs_zero] at h0
  exact ⟨hfin, sub_eq_zero.1 (abs_nonpos_iff.1 h0)⟩

/-- Every integer below 2^53 has a pattern: its magnitude, shifted up to a full significand of 53 bits. -/
theorem exists_fValue_eq_intCast (n : Int) (hn : n.natAbs < 2 ^ 53) :
    ∃ z : F64, fIsFinite z = true ∧ fValue z = n := by
  by_cases h0 : n = 0
  · subst h0
    exact ⟨fZero false, (fZero_value false).2, by simp [(fZero_value false).1]⟩
  · have hpos : n.natAbs ≠ 0 := by omega
    obtain ⟨k, hk⟩ : ∃ k, n.natAbs.log2 + k = 52 :=
      ⟨52 - n.natAbs.log2, by have := (Nat.log2_lt hpos).2 hn; omega⟩
    have hlo : 2 ^ 52 ≤ n.natAbs * 2 ^ k := by
      rw [← hk, pow_add]
      exact Nat.mul_le_mul_right _ (Nat.log2_self_le hpos)
    have hhi : n.natAbs * 2 ^ k < 2 ^ 53 := by
      rw [show 53 = n.natAbs.log2 + 1 + k by omega, pow_add]
      exact Nat.mul_lt_mul_of_pos_right Nat.lt_log2_self (by positivity)
    obtain ⟨hfin, -, -, hval⟩ := fValue_fPack (decide (n < 0)) (1074 - k) (n.natAbs * 2 ^ k) hhi.le (.inr hlo) (by omega)
    refine ⟨_, hfin, ?_⟩
    have hmag : ((n.natAbs * 2 ^ k : Nat) : ℚ) * 2 ^ (((1074 - k : Nat) : Int) - 1074) = n.natAbs := by
      rw [show ((1074 - k : Nat) : Int) - 1074 = -(k : Int) by omega, zpow_neg, zpow_natCast]
      push_cast
      field_simp
    rw [hval, hmag, sign_mul_natAbs]

theorem fOfInt_exact (n : Int) (hn : n.natAbs < 2 ^ 53) : fIsFinite (fOfInt n) = true ∧ fValue (fOfInt n) = n := by
  obtain ⟨z, hz, hv⟩ := exists_fValue_eq_intCast n hn
  have hr : CorrectlyRounded (fOfInt n) (fValue z) := by
    simpa [fOfInt, hv] using correctlyRounded_fRound_int n 0
  have ht : |fValue z| < 2 ^ 1024 - 2 ^ 970 := by
    have hn' : |(n : ℚ)| < 2 ^ (53 : Int) := by
      rw [← Int.cast_abs, ← Nat.cast_natAbs]
      exact_mod_cast hn
    rw [hv]
    calc |(n : ℚ)| < 2 ^ (53 : Int) := hn'
      _ ≤ 2 ^ (53 : Int) * 2 ^ (970 : Int) :=
        le_mul_of_one_le_right (by positivity) (one_le_zpow₀ one_le_two (by norm_num))
      _ ≤ 2 ^ 1024 - 2 ^ 970 := threshold_ge
  rw [← hv]
  exact correctlyRounded_exact hr hz ht

/-- `fTrunc` is the floor of the magnitude under the sign. -/
theorem fTrunc_finite (x : F64) (hx : fIsFinite x = true) :
    fTrunc x = if fSign x then -⌊|fValue x|⌋ else ⌊|fValue x|⌋ := by
  have hm : ((fMant x * 2 ^ (fScale x).toNat / 2 ^ (-fScale x).toNat : Nat) : Int) = ⌊|fValue x|⌋ := by
    have h := scaled_ratio (fMant x) 1 (fScale x) 0 one_ne_zero
    rw [sub_zero, zero_sub, one_mul, zpow_zero, mul_one, Nat.cast_one, div_one, ← abs_fValue] at h
    rw [← h, Rat.floor_natCast_div_natCast, Int.natCast_div]
  unfold fTrunc
  simp only [hx, if_true, hm]

/-- Toward zero is down from a value that is not negative, and up from one that is not positive. -/
theorem fTrunc_toward_zero (x : F64) (hx : fIsFinite x = true) :
    (0 ≤ fValue x → fTrunc x = ⌊fValue x⌋) ∧ (fValue x ≤ 0 → fTrunc x = ⌈fValue x⌉) := by
  have hv := fValue_sign x
  rw [fTrunc_finite x hx]
  cases hs : fSign x
  case false =>
    simp only [hs, Bool.false_eq_true, if_false, one_mul] at hv ⊢
    refine ⟨fun _ => by rw [← hv], fun hle => ?_⟩
    have h0 : fValue x = 0 := le_antisymm hle (hv ▸ abs_nonneg _)
    simp [h0]
  case true =>
    simp only [hs, if_true, neg_one_mul] at hv ⊢
    refine ⟨fun hge => ?_, fun _ => by rw [← Int.ceil_neg, ← hv]⟩
    have h0 : fValue x = 0 := le_antisymm (by linarith [abs_nonneg (fValue x)]) hge
    simp [h0]

/-- Settles O22: an integer below 2^53 has a pattern, so its rounding is exact; `trunc` is the floor of the magnitude
under the sign. -/
theorem integerConversionsAreExact : Obligations.IntegerConversionsAreExact :=
  ⟨fOfInt_exact, fTrunc_toward_zero⟩

end Sys2Proof.Machine
end

section
/-! SUPPORT. The statements of spec/10_state.md: the register words STATUS and CTRL (R36, R38), and the machine's
invariant, at reset and through every step. -/

namespace Sys2Proof.Machine

/-! ### Accesses that BUSY does not touch (R64, R72) -/

/-- A read outside 0x100..0x7FF answers the location's value, busy or not (R72). -/
theorem hostRead_register (l : Loc) (s : State) (v : Word) (hu : l.busyUnspecified = false)
    (hv : readLoc l s = some v) : hostRead l.offset s = .next { s with reply := some (.read v .okay) } := by
  rw [hostRead_offset, hu, hv, Bool.and_false]
  rfl

/-- A write of a location that is not read-only and that BUSY does not block takes effect. -/
theorem hostWrite_unblocked (l : Loc) (d : Word) (s : State) (hr : l.readOnly = false) (hb : l.busyBlocked = false) :
    hostWrite l.offset d s = answer (.write .okay) (writeLoc l d s) := by
  rw [hostWrite_offset, hr, hb, Bool.and_false]
  rfl

/-! ### STATUS and CTRL (R36, R38) -/

/-- Keeping a flag unless a bit is written 1, as a choice. -/
theorem and_not_eq_ite (x b : Bool) : (x && !b) = if b then false else x := by
  cases b <;> simp

/-- Settles O50: a register is read and written busy or not, and the bits of STATUS's word are its fields. -/
theorem statusReadAndClear : Obligations.StatusReadAndClear := by
  intro s v
  obtain ⟨hbusy, hdone, herr, heovf, htv⟩ := s.status.word_flags
  have hcode := s.status.word_errcode
  refine ⟨⟨s.status.word, hostRead_register .status s _ rfl rfl, hbusy, hdone, herr, heovf, htv, s.status.word_lastop,
    s.status.word_reserved, ?_⟩, ?_⟩
  · refine ⟨?_, ?_, ?_, ?_, ?_, ?_, ?_, ?_⟩ <;> intro h <;> rw [hcode, h] <;> rfl
  · refine (hostWrite_unblocked .status v s rfl rfl).trans ?_
    simp only [writeLoc, Status.clear, answer, and_not_eq_ite]

/-- Settles O51: CTRL's word is its two fields, and a write with bit 31 = 0 is an ordinary write of CTRL. -/
theorem ctrlReadAndWrite : Obligations.CtrlReadAndWrite := by
  intro s v
  refine ⟨⟨s.ctrl.word, hostRead_register .ctrl s _ rfl rfl, s.ctrl.word_spec⟩, fun h => ?_⟩
  refine (hostWrite_unblocked .ctrl v s rfl rfl).trans ?_
  rw [writeLoc, h]
  rfl

/-! ### What the invariant depends on -/

theorem TablesBuilt.of_fields_eq {s t : State} (h : TablesBuilt s) (hq : t.quality = s.quality := by rfl)
    (hf : t.sf = s.sf := by rfl) (hqt : t.qt = s.qt := by rfl) (hft : t.ft = s.ft := by rfl) : TablesBuilt t where
  qualityLow := hq ▸ h.qualityLow
  qualityHigh := hq ▸ h.qualityHigh
  scale := by rw [hf, hq, h.scale]
  inverseTable := by rw [hqt, hq, h.inverseTable]
  forwardTable := by rw [hft, hqt, h.forwardTable]

/-- The tables that a quality in [1,100] gives (R121 to R124); QUALITY's 7 bits hold it. -/
theorem tablesBuilt_of_quality {s : State} {q : Nat} (hlo : 1 ≤ q) (hhi : q ≤ 100)
    (hq : s.quality = BitVec.ofNat 7 q) (hf : s.sf = BitVec.ofNat 13 (scaleFactor q))
    (hqt : s.qt = buildQt (scaleFactor q)) (hft : s.ft = buildFt (buildQt (scaleFactor q))) : TablesBuilt s := by
  have hval : s.quality.toNat = q := by rw [hq, BitVec.toNat_ofNat]; omega
  exact ⟨hval.symm ▸ hlo, hval.symm ▸ hhi, by rw [hval, hf], by rw [hval, hqt], by rw [hqt, hft]⟩

/-- The invariant speaks of STATUS, PEND, PHASE and the tables alone. An update of other fields proves each equation
by `rfl`. -/
theorem Inv.of_fields_eq {s t : State} (h : Inv s) (hst : t.status = s.status := by rfl)
    (hp : t.pend = s.pend := by rfl) (hph : t.phase = s.phase := by rfl) (hq : t.quality = s.quality := by rfl)
    (hf : t.sf = s.sf := by rfl) (hqt : t.qt = s.qt := by rfl) (hft : t.ft = s.ft := by rfl) : Inv t where
  busyIsRun := by rw [hst, hp, h.busyIsRun]
  pendAccepted := by rw [hst, hp]; exact h.pendAccepted
  errHasCode := by rw [hst]; exact h.errHasCode
  lastopLegal := by rw [hst]; exact h.lastopLegal
  phaseStart := by rw [hph]; exact h.phaseStart
  phaseStop := by rw [hph]; exact h.phaseStop
  tablesWhenTv := by rw [hst]; exact fun ht => (h.tablesWhenTv ht).of_fields_eq hq hf hqt hft
  nothingWithoutTv := by rw [hst, hq, hf]; exact h.nothingWithoutTv

/-- R46's reset values meet the invariant, whatever the buffers and the tables hold. -/
theorem inv_of_reset_values {s : State} (hst : s.status = Status.reset) (hp : s.pend = .idle)
    (hph : s.phase = ⟨0#7, 0#7⟩) (hq : s.quality = 0#7) (hf : s.sf = 0#13) : Inv s where
  busyIsRun := by rw [hst, hp]; rfl
  pendAccepted := fun w hw => by rw [hp] at hw; cases hw
  errHasCode := by rw [hst]; decide
  lastopLegal := by rw [hst]; decide
  phaseStart := by rw [hph]; decide
  phaseStop := by rw [hph]; decide
  tablesWhenTv := fun ht => by rw [hst] at ht; cases ht
  nothingWithoutTv := fun _ => ⟨hq, hf⟩

/-- Settles O57: the reset state has R46's values. -/
theorem invariantAtReset : Obligations.InvariantAtReset :=
  inv_of_reset_values rfl rfl rfl rfl rfl

theorem inv_resetState (s : State) : Inv (resetState s) :=
  inv_of_reset_values (resetState_status s) (resetState_pend s) (resetState_phase s) (resetState_quality s)
    (resetState_sf s)

/-! ### Each update of the state keeps the invariant -/

section
variable {s : State} (h : Inv s)
include h

theorem Inv.with_schedule (rest : List Turn) : Inv { s with schedule := rest } :=
  h.of_fields_eq

theorem Inv.after_answer (r : Reply) : Inv (answer r s) :=
  h.of_fields_eq

/-- Recording an error sets ERR, and leaves ERRCODE's error or puts one there (R243). -/
theorem Inv.after_recordError {e : ErrCode} (he : e ≠ .none) (info : Word) : Inv (recordError e info s) where
  busyIsRun := by simpa using h.busyIsRun
  pendAccepted := by simpa using h.pendAccepted
  errHasCode := by
    have hcode : (recordError e info s).status.errcode ≠ .none := by
      rw [recordError_eq_withError, withError]
      split
      case isTrue herr => exact h.errHasCode.1 herr
      case isFalse => exact he
    simpa using hcode
  lastopLegal := by simpa using h.lastopLegal
  phaseStart := by simpa using h.phaseStart
  phaseStop := by simpa using h.phaseStop
  tablesWhenTv := fun ht => (h.tablesWhenTv (by simpa using ht)).of_fields_eq (by simp) (by simp) (by simp) (by simp)
  nothingWithoutTv := by simpa using h.nothingWithoutTv

/-- A STATUS write clears ERR and ERRCODE together, and never raises DONE (R248). -/
theorem Inv.after_clear (v : Word) : Inv { s with status := s.status.clear v } where
  busyIsRun := h.busyIsRun
  pendAccepted := fun w hw => by
    obtain ⟨i, hd, ht, hl, hdone⟩ := h.pendAccepted w hw
    exact ⟨i, hd, ht, hl, by simp [Status.clear, hdone]⟩
  errHasCode := by
    simp only [Status.clear, and_not_eq_ite]
    split
    case isTrue => decide
    case isFalse => exact h.errHasCode
  lastopLegal := h.lastopLegal
  phaseStart := h.phaseStart
  phaseStop := h.phaseStop
  tablesWhenTv := fun ht => (h.tablesWhenTv ht).of_fields_eq
  nothingWithoutTv := h.nothingWithoutTv

/-- An accepted word becomes the pending one (R221). -/
theorem Inv.after_accept {w : Word} {i : Instr} (hd : decode w = .command i)
    (ht : needsTables i = true → s.status.tv = true) :
    Inv { s with pend := .run w, status := { s.status with busy := true, done := false, lastop := opcField w } } where
  busyIsRun := rfl
  pendAccepted := fun w' hw => by cases hw; exact ⟨i, hd, ht, rfl, rfl⟩
  errHasCode := h.errHasCode
  lastopLegal := decode_opc_legal w i hd
  phaseStart := h.phaseStart
  phaseStop := h.phaseStop
  tablesWhenTv := fun htv => (h.tablesWhenTv htv).of_fields_eq
  nothingWithoutTv := h.nothingWithoutTv

/-- A completion leaves nothing pending (R224). -/
theorem Inv.after_finish : Inv (finish s) where
  busyIsRun := rfl
  pendAccepted := fun w hw => by cases hw
  errHasCode := h.errHasCode
  lastopLegal := h.lastopLegal
  phaseStart := h.phaseStart
  phaseStop := h.phaseStop
  tablesWhenTv := fun ht => (h.tablesWhenTv ht).of_fields_eq
  nothingWithoutTv := h.nothingWithoutTv

/-- BUILDQT's outputs are the tables of its quality, with TV = 1 (R120 to R124). -/
theorem Inv.with_tables {q : Nat} (hlo : 1 ≤ q) (hhi : q ≤ 100) :
    Inv { s with
      qt := buildQt (scaleFactor q), ft := buildFt (buildQt (scaleFactor q)), quality := BitVec.ofNat 7 q,
      sf := BitVec.ofNat 13 (scaleFactor q), status := { s.status with tv := true } } where
  busyIsRun := by simpa using h.busyIsRun
  pendAccepted := fun w hw => by
    obtain ⟨i, hd, _, hl, hdone⟩ := h.pendAccepted w hw
    exact ⟨i, hd, fun _ => rfl, hl, hdone⟩
  errHasCode := h.errHasCode
  lastopLegal := h.lastopLegal
  phaseStart := h.phaseStart
  phaseStop := h.phaseStop
  tablesWhenTv := fun _ => tablesBuilt_of_quality hlo hhi rfl rfl rfl rfl
  nothingWithoutTv := fun ht => by cases ht

/-- MASK writes MCOEF, and its clamped bounds into PHASE (R34, R172). -/
theorem Inv.with_mask (b : Buffer Word) {start stop : Nat} (hs : start ≤ 64) (he : stop ≤ 64) :
    Inv { s with mcoef := b, phase := ⟨BitVec.ofNat 7 start, BitVec.ofNat 7 stop⟩ } where
  busyIsRun := h.busyIsRun
  pendAccepted := h.pendAccepted
  errHasCode := h.errHasCode
  lastopLegal := h.lastopLegal
  phaseStart := by simp only [BitVec.toNat_ofNat]; omega
  phaseStop := by simp only [BitVec.toNat_ofNat]; omega
  tablesWhenTv := fun ht => (h.tablesWhenTv ht).of_fields_eq
  nothingWithoutTv := h.nothingWithoutTv

end

/-! ### The step keeps the invariant -/

/-- A completion ends in `finish` of a state with the command's outputs written, whose operands decoding has clamped. -/
theorem Inv.after_exec {s t : State} {i : Instr} (h : Inv s) (hw : i.WellFormed) (e : exec i s = .next t) : Inv t := by
  obtain ⟨_, hc⟩ := exec_next_cases i s t e
  rcases hc with ⟨rfl, rfl⟩ | ⟨q, rfl, rfl⟩ | ⟨m, rfl, rfl⟩ | ⟨a, b, rfl, rfl⟩ | ⟨c, rfl, rfl⟩
  · exact h.after_finish
  · obtain ⟨hlo, hhi⟩ : 1 ≤ q ∧ q ≤ 100 := by simpa [Instr.WellFormed, Instr.wellFormed] using hw
    exact (h.with_tables hlo hhi).after_finish
  · exact Inv.after_finish h.of_fields_eq
  · obtain ⟨hs, he⟩ : a ≤ 64 ∧ b ≤ 64 := by simpa [Instr.WellFormed, Instr.wellFormed] using hw
    exact (h.with_mask _ hs he).after_finish
  · exact Inv.after_finish h.of_fields_eq

/-- One turn, event by event (R232). -/
theorem Inv.after_takeTurn {s t : State} {x : Turn} (h : Inv s) (e : takeTurn x s = .next t) : Inv t := by
  rcases takeTurn_next_cases x s t e with ⟨_, _, rfl⟩ | ⟨w, i, _, _, hd, he⟩ | ⟨code, a, r, _, hne, rfl⟩ |
    ⟨a, _, _, rfl⟩ | ⟨a, v, _, rfl⟩ | ⟨d, _, _, rfl⟩ | ⟨d, _, _, rfl⟩ | ⟨d, _, rfl⟩ | ⟨w, i, _, _, hd, ht, rfl⟩ |
    ⟨w, code, _, _, hne, rfl⟩ | ⟨k, d, _, _, rfl⟩ | ⟨k, d, _, _, rfl⟩ | ⟨k, d, _, _, rfl⟩ | ⟨_, rfl⟩
  · exact h
  · exact h.after_exec (decode_wellFormed w i hd) he
  · exact (h.after_recordError hne _).after_answer _
  · exact h.of_fields_eq
  · exact h.after_answer _
  · exact (inv_resetState s).after_answer _
  · exact h.of_fields_eq
  · exact (h.after_clear d).after_answer _
  · exact (h.after_accept hd ht).after_answer _
  · exact (h.after_recordError hne w).after_answer _
  · exact h.of_fields_eq
  · exact h.of_fields_eq
  · exact h.of_fields_eq
  · exact inv_resetState s

/-- Settles O58: a step is one turn, and every turn keeps the invariant. -/
theorem invariantIsKeptByEveryStep : Obligations.InvariantIsKeptByEveryStep := by
  intro s t h e
  obtain ⟨x, rest, _, hstep⟩ := step_turn s
  exact (h.with_schedule rest).after_takeTurn (hstep.symm.trans e)

end Sys2Proof.Machine
end

section
/-! SUPPORT. The statements of spec/20_memory.md: the address map (R62), the checks of an access (R64), what an access
of an idle unit reads and stores (R65 to R71), and accesses while a command runs (R72). -/

namespace Sys2Proof.Machine

/-! ### The address map (R62) -/

theorem locateRegister_eq_none_iff (n : Nat) : locateRegister n = none ↔ 8 ≤ n := by
  rcases Nat.lt_or_ge n 8 with h | h
  · interval_cases n <;> simp [locateRegister]
  · obtain ⟨m, rfl⟩ := Nat.exists_eq_add_of_le' h
    simp [locateRegister]

/-- Region by region: the registers end at 0x020, and AAN ends at 0xB40. -/
theorem locate_eq_none_iff (a : Addr) :
    locate a = none ↔ (0x020 ≤ a.toNat ∧ a.toNat < 0x100) ∨ 0xB40 ≤ a.toNat := by
  have hregion : a.toNat / 0x100 < 16 := by omega
  interval_cases h : a.toNat / 0x100 <;> simp [locate, h, locateRegister_eq_none_iff] <;> omega

/-- Settles O43: `locate` and `Loc.offset` undo each other, and the unmapped ranges are read off the regions. -/
theorem addressMapIsR62 : Obligations.AddressMapIsR62 :=
  ⟨fun l => ⟨locate_offset l, misaligned_offset l⟩, offset_of_locate, locate_eq_none_iff⟩

theorem misaligned_of_aligned {a : Addr} (h : a.toNat % 4 = 0) : misaligned a = false :=
  Bool.eq_false_iff.2 fun hm => (misaligned_iff a).1 hm h

/-- An aligned offset outside R62's unmapped ranges is some location's. -/
theorem exists_offset_eq {a : Addr} (ha : a.toNat % 4 = 0)
    (hmap : ¬((0x020 ≤ a.toNat ∧ a.toNat < 0x100) ∨ 0xB40 ≤ a.toNat)) : ∃ l : Loc, l.offset = a := by
  obtain ⟨l, hl⟩ := Option.ne_none_iff_exists'.1 (mt (locate_eq_none_iff a).1 hmap)
  exact ⟨l, offset_of_locate a l (misaligned_of_aligned ha) hl⟩

/-- The locations of R72 are those at 0x100..0x7FF. -/
theorem Loc.busyUnspecified_iff (l : Loc) :
    l.busyUnspecified = true ↔ 0x100 ≤ l.offset.toNat ∧ l.offset.toNat < 0x800 := by
  cases l <;> simp [Loc.busyUnspecified, Loc.offset] <;> omega

/-! ### The access checks (R64) -/

theorem readCheck_of_mapped {a : Addr} {l : Loc} (hm : misaligned a = false) (hl : locate a = some l) :
    readCheck a.toNat = none := by
  rw [readCheck_eq, hm, hl]
  rfl

theorem writeCheck_of_writable {a : Addr} {l : Loc} {busy : Bool} (hm : misaligned a = false) (hl : locate a = some l)
    (hr : l.readOnly = false) (hb : busy = true → l.busyBlocked = false) : writeCheck a.toNat busy = none := by
  rw [writeCheck_eq, hm, hl]
  cases busy <;> simp [hr, hb]

theorem busError_eq_withError (e : ErrCode) (a : Addr) (r : Reply) (s : State) :
    busError e a r s = { withError e (a.zeroExtend 32) s with reply := some r } := by
  rw [busError, recordError_eq_withError, answer]

/-- A write that fails a check records that check's error, and nothing else. -/
theorem hostWrite_of_check {a : Addr} {e : ErrCode} (d : Word) {s : State}
    (h : writeCheck a.toNat s.status.busy = some e) : hostWrite a d s = busError e a (.write .error) s := by
  rcases hostWrite_cases a d s with ⟨e', he, hw⟩ | ⟨l, hl, hm, hr, hb, _⟩
  · cases h.symm.trans he
    exact hw
  · rw [writeCheck_of_writable hm hl hr hb] at h
    cases h

/-- A read that fails a check records that check's error, and nothing else. -/
theorem hostRead_of_check {a : Addr} {e : ErrCode} {s : State} (h : readCheck a.toNat = some e) :
    hostRead a s = .next (busError e a (.read 0#32 .error) s) := by
  rcases hostRead_cases a s with ⟨e', he, hr⟩ | ⟨l, hl, hm, _⟩
  · cases h.symm.trans he
    exact hr
  · rw [readCheck_of_mapped hm hl] at h
    cases h

/-- A write that passes the checks is answered OKAY. -/
theorem hostWrite_reply_okay {a : Addr} (d : Word) {s : State} (h : writeCheck a.toNat s.status.busy = none) :
    (hostWrite a d s).reply = some (.write .okay) := by
  rcases hostWrite_cases a d s with ⟨e, he, _⟩ | ⟨l, _, _, _, _, hw⟩
  · rw [h] at he
    cases he
  · rw [hw, answer_reply]

/-- A read that passes the checks and does not fault is answered OKAY. -/
theorem hostRead_reply_okay {a : Addr} {s t : State} (h : readCheck a.toNat = none) (ht : hostRead a s = .next t) :
    ∃ v, t.reply = some (.read v .okay) := by
  rcases hostRead_cases a s with ⟨e, he, _⟩ | ⟨l, _, _, ⟨_, _, hr⟩ | ⟨_, ⟨v, _, hr⟩ | ⟨_, hr⟩⟩⟩
  · rw [h] at he
    cases he
  · cases hr.symm.trans ht
    exact ⟨_, answer_reply _ _⟩
  · cases hr.symm.trans ht
    exact ⟨_, answer_reply _ _⟩
  · cases hr.symm.trans ht

/-- Settles O44: an access that fails records its first failing check, and one that passes answers OKAY. -/
theorem accessChecksInOrder : Obligations.AccessChecksInOrder := fun _ a d =>
  ⟨fun _ h => (hostWrite_of_check d h).trans (busError_eq_withError _ a _ _), hostWrite_reply_okay d,
    fun _ h => (hostRead_of_check h).trans (congrArg _ (busError_eq_withError _ a _ _)),
    fun h _ ht => hostRead_reply_okay h ht⟩

/-! ### Reads of an idle unit (R65 to R69, R71) -/

/-- Fields side by side, as numbers. -/
theorem toNat_append_eq_add {m n : Nat} (x : BitVec m) (y : BitVec n) :
    (x ++ y).toNat = x.toNat * 2 ^ n + y.toNat := by
  rw [BitVec.toNat_append, ← Nat.shiftLeft_add_eq_or_of_lt y.isLt, Nat.shiftLeft_eq]

theorem qualityWord_eq_zeroExtend (q : BitVec 7) : qualityWord q = q.zeroExtend 32 :=
  (BitVec.setWidth_eq_append (by decide)).symm

theorem sfWord_eq_zeroExtend (f : BitVec 13) : sfWord f = f.zeroExtend 32 :=
  (BitVec.setWidth_eq_append (by decide)).symm

/-- START in bits 6:0 and END in bits 14:8 (R34). -/
theorem Phase.word_eq_ofNat (p : Phase) : p.word = BitVec.ofNat 32 (p.stop.toNat * 256 + p.start.toNat) := by
  apply BitVec.eq_of_toNat_eq
  simp only [Phase.word, toNat_append_eq_add, BitVec.toNat_ofNat]
  omega

/-- Settles O45: each location reads its value, packed as R65 to R67 say. -/
theorem hostReadsReturnTheElements : Obligations.HostReadsReturnTheElements := by
  intro s k i hb
  have register (l : Loc) (v : Word) (hv : readLoc l s = some v) := hostRead_value l s v hb hv
  refine ⟨register .id _ rfl, register .cmd _ rfl, register .errinfo _ rfl, ?_, ?_, ?_, ?_, ?_, ?_, ?_, ?_,
    register (.zzToNat k) _ rfl, register (.natToZz k) _ rfl, register (.baseZz k) _ rfl,
    lowWord (aan i), highWord (aan i), highWord_append_lowWord _, register (.aanLow i) _ rfl,
    register (.aanHigh i) _ rfl⟩
  · rw [← qualityWord_eq_zeroExtend]
    exact register .quality _ rfl
  · rw [← sfWord_eq_zeroExtend]
    exact register .sf _ rfl
  · rw [← Phase.word_eq_ofNat]
    exact register .phase _ rfl
  · exact fun h => register (.pixIn k) _ (congrArg (Option.map wordOfByte) (Buffer.get?_of_valid _ k h))
  · exact fun h => register (.coef k) _ (Buffer.get?_of_valid _ k h)
  · exact fun h => register (.mcoef k) _ (Buffer.get?_of_valid _ k h)
  · exact fun h => register (.pixOut k) _ (congrArg (Option.map wordOfByte) (Buffer.get?_of_valid _ k h))
  · exact fun h => ⟨register (.qt k) _ (if_pos h), lowWord s.ft[k], highWord s.ft[k], highWord_append_lowWord _,
      register (.ftLow k) _ (if_pos h), register (.ftHigh k) _ (if_pos h)⟩

/-- A read of an idle unit's location without a defined value faults (R71). -/
theorem hostRead_undefined (l : Loc) (s : State) (hb : s.status.busy = false) (h : readLoc l s = none) :
    hostRead l.offset s = .fault .uninitRead := by
  rw [hostRead_offset, hb, h]
  rfl

/-- Settles O49: an element that is not valid, and a table without TV, has no value to read. -/
theorem undefinedElementsFaultOnRead : Obligations.UndefinedElementsFaultOnRead := by
  intro s k hb
  have undefined (l : Loc) (hl : readLoc l s = none) := hostRead_undefined l s hb hl
  refine ⟨fun h => undefined (.pixIn k) ?_, fun h => undefined (.coef k) (Buffer.get?_of_invalid _ k h),
    fun h => undefined (.mcoef k) (Buffer.get?_of_invalid _ k h), fun h => undefined (.pixOut k) ?_, fun h => ?_⟩
  · exact congrArg (Option.map wordOfByte) (Buffer.get?_of_invalid _ k h)
  · exact congrArg (Option.map wordOfByte) (Buffer.get?_of_invalid _ k h)
  · have htv : ¬ s.status.tv = true := by simp [h]
    exact ⟨undefined (.qt k) (if_neg htv), undefined (.ftLow k) (if_neg htv), undefined (.ftHigh k) (if_neg htv)⟩

/-- What a location reads as does not depend on the last answer. -/
@[simp] theorem readLoc_answer (l : Loc) (r : Reply) (s : State) : readLoc l (answer r s) = readLoc l s := by
  cases l <;> rfl

/-- Settles O47: a read answers OKAY with a draw, on a busy unit, or with the location's value, which the answer leaves
as it is. -/
theorem readsHaveNoSideEffect : Obligations.ReadsHaveNoSideEffect := by
  intro a s t v ht hv
  rcases hostRead_cases a s with ⟨e, _, hr⟩ | ⟨l, hl, hm, ⟨hb, _, hr⟩ | ⟨_, ⟨x, hx, hr⟩ | ⟨_, hr⟩⟩⟩ <;>
    cases hr.symm.trans ht
  case inl => simp [busError] at hv
  case inr.inl => exact ⟨rfl, fun hidle => by rw [hb] at hidle; cases hidle⟩
  case inr.inr.inl =>
    refine ⟨rfl, fun hidle => ⟨rfl, ?_⟩⟩
    obtain rfl := offset_of_locate a l hm hl
    exact hostRead_value l _ x hidle ((readLoc_answer l _ s).trans hx)

/-! ### Writes of an idle unit (R65, R66, R70) -/

/-- A write of an idle unit's location that is not read-only takes effect. -/
theorem hostWrite_idle (l : Loc) (d : Word) (s : State) (hb : s.status.busy = false) (hr : l.readOnly = false) :
    hostWrite l.offset d s = answer (.write .okay) (writeLoc l d s) := by
  rw [hostWrite_offset, hb, hr]
  rfl

/-- A write that takes effect and leaves the unit idle is read back as the location's new value. -/
theorem hostRead_hostWrite_idle (l : Loc) (d v : Word) (s : State) (hb : s.status.busy = false)
    (hr : l.readOnly = false) (hb' : (writeLoc l d s).status.busy = false) (hv : readLoc l (writeLoc l d s) = some v) :
    hostRead l.offset (hostWrite l.offset d s) =
      .next { hostWrite l.offset d s with reply := some (.read v .okay) } := by
  rw [hostWrite_idle l d s hb hr]
  exact hostRead_value l _ v hb' ((readLoc_answer l _ _).trans hv)

/-- A write to an element stores the value and the validity bit there and keeps every other element (R45). -/
theorem Buffer.put_stores {α : Type} (b : Buffer α) (k : Fin 64) (v : α) :
    (b.put k v).data[k] = v ∧ (b.put k v).valid[k] = true ∧
      ∀ j : Fin 64, j ≠ k → (b.put k v).data[j] = b.data[j] ∧ (b.put k v).valid[j] = b.valid[j] :=
  ⟨b.put_data_same k v, b.put_valid_same k v, fun j h => ⟨b.put_data_other k j v h, b.put_valid_other k j v h⟩⟩

@[simp] theorem Buffer.get?_put_same {α : Type} (b : Buffer α) (k : Fin 64) (v : α) : (b.put k v).get? k = some v :=
  (Buffer.get?_of_valid _ k (b.put_valid_same k v)).trans (congrArg some (b.put_data_same k v))

/-- Settles O46: a write of an element puts it in its buffer, and an element just put there is valid. -/
theorem hostWritesStoreTheElement : Obligations.HostWritesStoreTheElement := by
  intro s k d hb
  have hbyte : d.extractLsb' 0 8 = d.truncate 8 := (BitVec.setWidth_eq_extractLsb' (by decide)).symm
  rw [hbyte]
  refine ⟨⟨_, hostWrite_idle (.pixIn k) d s hb rfl, s.pixIn.put_stores k _⟩,
    hostRead_hostWrite_idle (.pixIn k) d _ s hb rfl hb ?_,
    ⟨_, hostWrite_idle (.coef k) d s hb rfl, s.coef.put_stores k d⟩,
    hostRead_hostWrite_idle (.coef k) d _ s hb rfl hb (s.coef.get?_put_same k d),
    ⟨_, hostWrite_idle (.mcoef k) d s hb rfl, s.mcoef.put_stores k d⟩,
    hostRead_hostWrite_idle (.mcoef k) d _ s hb rfl hb (s.mcoef.get?_put_same k d)⟩
  exact congrArg (Option.map wordOfByte) (s.pixIn.get?_put_same k _)

/-! ### Accesses while a command runs (R72) -/

/-- A read of 0x100..0x7FF while BUSY = 1 is a draw. -/
theorem hostRead_draw (l : Loc) (s : State) (hb : s.status.busy = true) (hu : l.busyUnspecified = true) :
    hostRead l.offset s =
      .next { s with reply := some (.read (Config.busyRead s.draws) .okay), draws := s.draws + 1 } := by
  rw [hostRead_offset, hb, hu]
  rfl

/-- Clearing the lowest bit of a word that has it. -/
theorem append_one_sub_one (x : BitVec 31) : (x ++ 1#1) - 1#32 = x ++ 0#1 := by
  apply BitVec.eq_of_toNat_eq
  simp only [BitVec.toNat_sub, toNat_append_eq_add, BitVec.toNat_ofNat]
  omega

/-- BUSY is bit 0 of STATUS, so without it the word is one less (R38). -/
theorem Status.word_busy_cleared (t : Status) (h : t.busy = true) : { t with busy := false }.word = t.word - 1#32 := by
  rw [Status.word, Status.word, h]
  exact (append_one_sub_one _).symm

/-- BUSY shows in no location but STATUS. -/
theorem readLoc_with_busy (l : Loc) (b : Bool) (s : State) (h : l ≠ .status) :
    readLoc l { s with status := { s.status with busy := b } } = readLoc l s := by
  cases l with
  | status => exact absurd rfl h
  | _ => rfl

/-- A register or a ROM reads as it would with BUSY = 0, but for BUSY itself. -/
theorem readLoc_busy_cleared (l : Loc) (s : State) (v : Word) (hb : s.status.busy = true) (hv : readLoc l s = some v) :
    readLoc l { s with status := { s.status with busy := false } } = some (if l = .status then v - 1#32 else v) ∧
      (l = .status → v.getLsbD 0 = true) := by
  by_cases hl : l = .status
  · subst hl
    cases hv
    exact ⟨congrArg some (s.status.word_busy_cleared hb), fun _ => s.status.word_flags.1.trans hb⟩
  · rw [readLoc_with_busy l false s hl, if_neg hl]
    exact ⟨hv, fun h => absurd h hl⟩

/-- Settles O48: 0x100..0x7FF reads as a draw, the writes that BUSY blocks fail a check, and every other location is read
and written as on an idle unit. -/
theorem accessesWhileBusy : Obligations.AccessesWhileBusy := by
  intro s a hb ha
  refine ⟨fun hlo hhi => ?_, fun l hl hrange => ?_, fun d hrange => ?_, fun d hd => ?_, fun d hd => ?_, fun d => ?_⟩
  · obtain ⟨l, rfl⟩ := exists_offset_eq ha (by omega)
    exact hostRead_draw l s hb (l.busyUnspecified_iff.2 ⟨hlo, hhi⟩)
  · obtain rfl := offset_of_locate a l (misaligned_of_aligned ha) hl
    have hu : l.busyUnspecified = false := Bool.eq_false_iff.2 fun h => by
      have := l.busyUnspecified_iff.1 h
      omega
    obtain ⟨v, hv⟩ := readLoc_of_not_unspecified l s hu
    obtain ⟨hclear, hbit⟩ := readLoc_busy_cleared l s v hb hv
    exact ⟨v, hv, hclear, hostRead_register l s v hu hv, hbit⟩
  · have hcheck : writeCheck a.toNat s.status.busy = some .busBusy := by
      rw [writeCheck, if_neg (by omega), if_neg (by omega), if_neg (by omega), if_pos ⟨hb, hrange⟩]
    rw [hostWrite_of_check d hcheck]
    simp [busError, SameData]
  · exact congrArg State.ctrl ((ctrlReadAndWrite s d).2 hd)
  · refine (hostWrite_unblocked .ctrl d s rfl rfl).trans ?_
    rw [writeLoc, hd]
    rfl
  · exact hostWrite_unblocked .status d s rfl rfl

end Sys2Proof.Machine
end

section
/-! SUPPORT. The statements of spec/30_encoding.md: the fields of a BUILDQT and of a MASK word (R92, R93), the opcode and
the reserved bits (R96, R97), and what the assembler's words decode to (R100, R103). -/

namespace Sys2Proof.Machine

/-! ### A clamped operand as a natural number (R10) -/

theorem toNat_clampInt (x lo hi : Int) :
    (clampInt x lo hi).toNat = if x < lo then lo.toNat else if hi < x then hi.toNat else x.toNat := by
  rw [clampInt, apply_ite Int.toNat, apply_ite Int.toNat]

/-- A natural number in the clamp's range is left as it is. -/
theorem toNat_clampInt_of_mem {n : Nat} {lo hi : Int} (h : lo ≤ n) (h' : n ≤ hi) : (clampInt n lo hi).toNat = n := by
  rw [clampInt_of_mem _ _ _ h h', Int.toNat_natCast]

/-! ### The operands of the two commands with signed fields (R92, R93) -/

/-- A word with opcode 1 and bits 15:4 all 0 is BUILDQT of the quality in its upper half. -/
theorem decode_buildqtWord (f : BitVec 16) :
    decode (f ++ 0x0001#16) = .command (.buildqt (clampInt f.toInt 1 100).toNat) := by
  have hopc : opcField (f ++ 0x0001#16) = 0x1#4 := BitVec.extractLsb'_append_eq_of_add_le (by decide)
  have hfree : (f ++ 0x0001#16) &&& (0x0000#16 ++ 0xFFF0#16) = 0#32 := by
    rw [BitVec.and_append, BitVec.and_zero]
    rfl
  have hquality : (f ++ 0x0001#16 : Word).extractLsb' 16 16 = f := BitVec.extractLsb'_append_eq_left
  refine (decode_eq_command _ _).2 ⟨0x0000FFF0#32, by rw [hopc]; rfl, hfree, ?_⟩
  simp only [decodeLegal, hopc, qualityField, hquality]
  rfl

/-- A word with opcode 3 and nothing else outside the rank fields is MASK of those fields. -/
theorem decode_maskWord (s e : BitVec 8) :
    decode (0x00#8 ++ e ++ s ++ 0x03#8) =
      .command (.mask (clampInt s.toInt 0 64).toNat (clampInt e.toInt 0 64).toNat) := by
  have hopc : opcField (0x00#8 ++ e ++ s ++ 0x03#8) = 0x3#4 := BitVec.extractLsb'_append_eq_of_add_le (by decide)
  have hfree : (0x00#8 ++ e ++ s ++ 0x03#8) &&& (0xFF#8 ++ 0x00#8 ++ 0x00#8 ++ 0xF0#8) = 0#32 := by
    simp only [BitVec.and_append, BitVec.and_zero]
    rfl
  have hstart : (0x00#8 ++ e ++ s ++ 0x03#8 : Word).extractLsb' 8 8 = s :=
    (BitVec.extractLsb'_append_eq_of_le (by decide)).trans BitVec.extractLsb'_append_eq_right
  have hstop : (0x00#8 ++ e ++ s ++ 0x03#8 : Word).extractLsb' 16 8 = e :=
    (BitVec.extractLsb'_append_eq_of_le (by decide)).trans <|
      (BitVec.extractLsb'_append_eq_of_le (by decide)).trans BitVec.extractLsb'_append_eq_right
  refine (decode_eq_command _ _).2 ⟨0xFF0000F0#32, by rw [hopc]; rfl, hfree, ?_⟩
  simp only [decodeLegal, hopc, startField, stopField, hstart, hstop]
  rfl

/-- Settles O3: the statement's choices are `clampInt`, as a natural number. -/
theorem operandFieldsAreClamped : Obligations.OperandFieldsAreClamped := by
  refine ⟨fun f => ?_, fun s e => ?_⟩
  · rw [decode_buildqtWord, toNat_clampInt]
    rfl
  · rw [decode_maskWord, toNat_clampInt, toNat_clampInt]
    rfl

/-- An integer that fits BUILDQT's field is the quality its word decodes from. -/
theorem decode_buildqtWord_ofInt {q : Int} (hlo : -32768 ≤ q) (hhi : q ≤ 32767) :
    decode (BitVec.ofInt 16 q ++ 0x0001#16) = .command (.buildqt (clampInt q 1 100).toNat) := by
  rw [decode_buildqtWord, BitVec.toInt_ofInt_eq_self (by decide) (by omega) (by omega)]

/-- Integers that fit MASK's fields are the ranks its word decodes from. -/
theorem decode_maskWord_ofInt {s e : Int} (hs : -128 ≤ s) (hs' : s ≤ 127) (he : -128 ≤ e) (he' : e ≤ 127) :
    decode (0x00#8 ++ BitVec.ofInt 8 e ++ BitVec.ofInt 8 s ++ 0x03#8) =
      .command (.mask (clampInt s 0 64).toNat (clampInt e 0 64).toNat) := by
  rw [decode_maskWord, BitVec.toInt_ofInt_eq_self (by decide) (by omega) (by omega),
    BitVec.toInt_ofInt_eq_self (by decide) (by omega) (by omega)]

/-! ### Decode after encode (R99) -/

/-- Settles O2: a well-formed operand fits its field without sign, and the clamp leaves it. -/
theorem decodeEncodeRoundTrip : Obligations.DecodeEncodeRoundTrip := by
  intro i h
  cases i with
  | nop => decide
  | buildqt q =>
    simp only [Instr.WellFormed, Instr.wellFormed, Bool.and_eq_true, decide_eq_true_eq] at h
    rw [encode, ← BitVec.ofInt_natCast, decode_buildqtWord_ofInt (by omega) (by omega),
      toNat_clampInt_of_mem (by omega) (by omega)]
  | fdct mode => cases mode <;> decide
  | mask start stop =>
    simp only [Instr.WellFormed, Instr.wellFormed, Bool.and_eq_true, decide_eq_true_eq] at h
    rw [encode, ← BitVec.ofInt_natCast 8 stop, ← BitVec.ofInt_natCast 8 start,
      decode_maskWord_ofInt (by omega) (by omega) (by omega) (by omega),
      toNat_clampInt_of_mem (by omega) (by omega), toNat_clampInt_of_mem (by omega) (by omega)]
  | idct src => cases src <;> decide

/-! ### Legality (R96, R97) -/

/-- OPC is what the mask 0xF keeps of a word. -/
theorem opcField_toNat (w : Word) : (opcField w).toNat = (w &&& 0xF#32).toNat := by
  rw [opcField, BitVec.extractLsb'_toNat, Nat.shiftRight_zero, BitVec.toNat_and]
  exact (Nat.and_two_pow_sub_one_eq_mod w.toNat 4).symm

/-- With a mask of reserved bits, those bits decide. -/
theorem decode_of_rmask {w m : Word} (h : rmask (opcField w).toNat = some m) :
    decode w = if w &&& m = 0#32 then .command (decodeLegal w) else .reject .rsvdBits := by
  rw [decode, h]

/-- Opcodes 5 to 15 have no mask (R96). -/
theorem rmask_eq_none {n : Nat} (h : 5 ≤ n) : rmask n = none :=
  Option.eq_none_iff_forall_ne_some.2 fun m hm => by
    have := rmask_some n m hm
    omega

/-- Settles O4: the listed masks are `rmask`'s entries at the opcode that 0xF keeps, and above 4 there is none. -/
theorem reservedBitsDecideLegality : Obligations.ReservedBitsDecideLegality := by
  refine fun w opcMask => ⟨fun h => ?_, fun h => ?_⟩
  · have hmask : rmask (opcField w).toNat = some opcMask := by
      rw [opcField_toNat]
      rcases h with ⟨hw, rfl⟩ | ⟨hw, rfl⟩ | ⟨hw, rfl⟩ | ⟨hw, rfl⟩ | ⟨hw, rfl⟩ <;> rw [hw] <;> rfl
    rw [decode_of_rmask hmask]
    exact ⟨fun h0 => ⟨_, if_pos h0⟩, fun h0 => if_neg h0⟩
  · rw [decode, opcField_toNat, rmask_eq_none h]

/-! ### The assembler (R100, R103) -/

/-- Settles O5: an operand outside its field fails `assemble`'s guard, and one inside is what its word decodes from. -/
theorem assembledOperandsAreNotWrapped : Obligations.AssembledOperandsAreNotWrapped := by
  refine ⟨fun q => ⟨fun h => ?_, fun h => ?_⟩, fun s e => ⟨fun h => ?_, fun h => ?_⟩⟩
  · exact if_neg (by omega)
  · exact ⟨_, if_pos h, decode_buildqtWord_ofInt h.1 h.2⟩
  · exact if_neg (by omega)
  · obtain ⟨hs, hs', he, he'⟩ := h
    exact ⟨_, if_pos ⟨hs, hs', he, he'⟩, decode_maskWord_ofInt hs hs' he he'⟩

/-- Settles O1: each example is one run of the assembler or of the decoder. -/
theorem encodingExamples : Obligations.EncodingExamples := by
  unfold Obligations.EncodingExamples
  decide

end Sys2Proof.Machine
end

section
/-! SUPPORT. The statements of spec/40_tables.md: the ROMs (R112 to R115), BUILDQT's scale factor, step sizes and tables
(R121 to R125), and the binary64 constants, which `fRound` gives from their literals (R113, R141). -/

namespace Sys2Proof.Machine

/-! ### The ROMs (R112 to R115) -/

theorem baseZz_bounds : ∀ r : Fin 64, 10 ≤ (baseZz r).toNat ∧ (baseZz r).toNat ≤ 121 := by decide

theorem baseZz_eq_k1 (r : Fin 64) : baseZz r = k1 (zzToNat r) := by
  rw [← baseZz_natToZz, natToZz_zzToNat]

/-- Settles O15: the maps and BASE_ZZ by the laws of their tables; the walk of R112 is one evaluation. -/
theorem romsAreConsistent : Obligations.RomsAreConsistent :=
  ⟨natToZz_zzToNat, zzToNat_natToZz, by decide, baseZz_eq_k1, baseZz_bounds⟩

/-! ### The scale factor (R121) -/

theorem scaleFactor_low {q : Nat} (h : q < 50) : scaleFactor q = 5000 / q := if_pos h

theorem scaleFactor_high {q : Nat} (h : 50 ≤ q) : scaleFactor q = 200 - q * 2 := by
  rw [scaleFactor, if_neg (by omega), Nat.mul_comm]

theorem scaleFactor_low_ge {q : Nat} (hpos : 1 ≤ q) (h : q < 50) : 102 ≤ scaleFactor q := by
  rw [scaleFactor_low h, Nat.le_div_iff_mul_le hpos]
  omega

theorem scaleFactor_antitone {q q' : Nat} (hpos : 1 ≤ q) (h : q ≤ q') : scaleFactor q' ≤ scaleFactor q := by
  by_cases hq' : q' < 50
  · rw [scaleFactor_low hq', scaleFactor_low (h.trans_lt hq')]
    exact Nat.div_le_div_left h hpos
  · rw [scaleFactor_high (not_lt.1 hq')]
    by_cases hq : q < 50
    · have := scaleFactor_low_ge hpos hq
      omega
    · rw [scaleFactor_high (not_lt.1 hq)]
      omega

/-! ### Step sizes (R122, R125) -/

theorem stepSize_bounds (base sf : Nat) : 1 ≤ (stepSize base sf).toNat ∧ (stepSize base sf).toNat ≤ 255 := by
  have h := stepSize_toNat base sf
  have hlo := clampInt_low (((base * sf + 50) / 100 : Nat) : Int) 1 255 (by decide)
  have hhi := clampInt_high (((base * sf + 50) / 100 : Nat) : Int) 1 255 (by decide)
  omega

theorem stepSize_mono (base : Nat) {sf sf' : Nat} (h : sf ≤ sf') :
    (stepSize base sf).toNat ≤ (stepSize base sf').toNat := by
  zify
  rw [stepSize_toNat, stepSize_toNat]
  exact clampInt_mono _ _ _ _ (by decide) (by gcongr)

/-- Every base entry separates the scale factors 500 of q = 10 and 20 of q = 90: its step sizes are at least 50 and at
most 24. -/
theorem stepSize_lt_stepSize {base : Nat} (hlo : 10 ≤ base) (hhi : base ≤ 121) :
    (stepSize base 20).toNat < (stepSize base 500).toNat := by
  have hsmall := stepSize_toNat base 20
  have hlarge := stepSize_toNat base 500
  rw [clampInt] at hsmall hlarge
  split_ifs at hsmall hlarge <;> omega

/-! ### BUILDQT (R120 to R124) -/

theorem exec_buildqt (q : Nat) (s : State) : exec (.buildqt q) s = .next { s with
    qt := buildQt (scaleFactor q), ft := buildFt (buildQt (scaleFactor q)), quality := BitVec.ofNat 7 q,
    sf := BitVec.ofNat 13 (scaleFactor q), pend := .idle,
    status := { s.status with tv := true, busy := false, done := true } } := rfl

theorem exec_buildqt_sf {q : Nat} {s t : State} (h : exec (.buildqt q) s = .next t) :
    t.sf.toNat = scaleFactor q := by
  cases h
  exact Nat.mod_eq_of_lt ((scaleFactor_le q).trans_lt (by decide))

theorem exec_buildqt_qt {q : Nat} {s t : State} (h : exec (.buildqt q) s = .next t) (k : Fin 64) :
    t.qt[k] = stepSize (baseZz (natToZz k)).toNat (scaleFactor q) := by
  cases h
  exact buildQt_get _ _ k.isLt

/-- R122 by natural index. -/
theorem buildQt_toNat (sf : Nat) (k : Fin 64) :
    (((buildQt sf)[k]).toNat : Int) = clampInt ((((k1 k).toNat * sf + 50) / 100 : Nat) : Int) 1 255 := by
  rw [← baseZz_natToZz, ← stepSize_toNat, ← buildQt_get sf k k.isLt]
  rfl

/-- Settles O16: the tables are `buildQt` and `buildFt` of the scale factor, whose entries their laws give. -/
theorem buildqtResult : Obligations.BuildqtResult := by
  intro q s _ _
  refine ⟨_, _, _, exec_buildqt q s, scaleFactor_low, scaleFactor_high, fun r => ?_, buildQt_toNat _, fun row col => ?_⟩
  · rw [baseZz_eq_k1, buildQt_toNat]
  · rw [buildFt_get, forwardEntry]

/-- Settles O17: SF's 13 bits hold `scaleFactor`. -/
theorem scaleFactorOfQuality : Obligations.ScaleFactorOfQuality := by
  intro q q' s s' t t' hpos hle hmax ht ht'
  rw [exec_buildqt_sf ht, exec_buildqt_sf ht']
  refine ⟨fun h => ⟨scaleFactor_low h, scaleFactor_low_ge hpos h, scaleFactor_le q⟩, fun h => ?_, ?_, ?_,
    scaleFactor_antitone hpos hle⟩
  · have := scaleFactor_high h
    omega
  · rintro rfl
    rfl
  · rintro rfl
    rfl

/-- Settles O18: a step size grows with the scale factor, which falls as the quality grows; between q = 10 and q = 90 the
range of the base entries decides. -/
theorem stepSizesOfQuality : Obligations.StepSizesOfQuality := by
  constructor
  · intro q q' s s' t t' k hpos hle _ ht ht'
    rw [exec_buildqt_qt ht, exec_buildqt_qt ht']
    obtain ⟨hlo, hhi⟩ := stepSize_bounds (baseZz (natToZz k)).toNat (scaleFactor q)
    exact ⟨hlo, hhi, stepSize_mono _ (scaleFactor_antitone hpos hle)⟩
  · intro s s' t t' k ht ht'
    rw [exec_buildqt_qt ht, exec_buildqt_qt ht']
    obtain ⟨hlo, hhi⟩ := baseZz_bounds (natToZz k)
    exact stepSize_lt_stepSize hlo hhi

/-! ### The constants (R113, R141) -/

/-- The pattern that `fRound` makes of a decimal literal is the one nearest to it. -/
theorem correctlyRounded_of_fRound_eq {r : F64} (num den : Nat) (hd : den ≠ 0) (h : fRound false num den 0 = r) :
    CorrectlyRounded r (num / den) := by
  have hr := correctlyRounded_fRound false num den 0 hd
  rwa [h, if_neg Bool.false_ne_true, one_mul, zpow_zero, mul_one] at hr

/-- A literal of nine decimals. -/
theorem correctlyRounded_nineDecimals {r : F64} (num : Nat) (h : fRound false num 1000000000 0 = r) :
    CorrectlyRounded r (num / 1000000000) := by
  exact_mod_cast correctlyRounded_of_fRound_eq num 1000000000 (by decide) h

theorem correctlyRounded_fOne : CorrectlyRounded fOne 1 := by
  simpa using correctlyRounded_of_fRound_eq 1 1 one_ne_zero (by decide : fRound false 1 1 0 = fOne)

/-- Settles O23: each constant is `fRound` of its literal. -/
theorem constantsAreNearestTheirLiterals : Obligations.ConstantsAreNearestTheirLiterals :=
  ⟨correctlyRounded_fOne, correctlyRounded_nineDecimals 1387039845 (by decide),
    correctlyRounded_nineDecimals 1306562965 (by decide), correctlyRounded_nineDecimals 1175875602 (by decide),
    correctlyRounded_fOne, correctlyRounded_nineDecimals 785694958 (by decide),
    correctlyRounded_nineDecimals 541196100 (by decide), correctlyRounded_nineDecimals 275899379 (by decide),
    correctlyRounded_nineDecimals 707106781 (by decide), correctlyRounded_nineDecimals 382683433 (by decide), rfl, rfl⟩

/-! ### Values between powers of two (R123)

A product and a quotient of values between powers of two lie between powers of two, and rounding does not leave that range,
because the powers have patterns of their own. -/

/-- A power of two in the normal range has a pattern. -/
theorem exists_fValue_eq_zpow {k : Int} (hlo : -1022 ≤ k) (hhi : k ≤ 1023) :
    ∃ z : F64, fIsFinite z = true ∧ fValue z = 2 ^ k := by
  obtain ⟨n, hn⟩ : ∃ n : Nat, (n : Int) = k + 1022 := ⟨(k + 1022).toNat, by omega⟩
  obtain ⟨hfin, -, -, hval⟩ := fValue_fPack false n (2 ^ 52) (by norm_num) (.inr le_rfl) (by omega)
  refine ⟨_, hfin, ?_⟩
  rw [hval, if_neg Bool.false_ne_true, one_mul, Nat.cast_pow, Nat.cast_ofNat, ← zpow_natCast, ← zpow_add₀ two_ne_zero]
  congr 1
  omega

/-- No finite value reaches the overflow threshold. -/
theorem abs_fValue_lt_threshold {z : F64} (hz : fIsFinite z = true) : |fValue z| < 2 ^ 1024 - 2 ^ 970 := by
  have hexp : fScale z ≤ 971 := by
    have := fExp_lt z
    simp only [fIsFinite, bne_iff_ne] at hz
    unfold fScale
    split <;> omega
  have hmant : (fMant z : ℚ) ≤ 2 ^ 53 - 1 := by
    have : fMant z + 1 ≤ 2 ^ 53 := fMant_lt z
    rw [le_sub_iff_add_le]
    exact_mod_cast this
  rw [abs_fValue, threshold_eq]
  calc (fMant z : ℚ) * 2 ^ fScale z ≤ (2 ^ 53 - 1) * 2 ^ (971 : Int) := by gcongr; norm_num
    _ < (2 ^ 53 - 1 / 2) * 2 ^ (971 : Int) := mul_lt_mul_of_pos_right (by norm_num) (zpow_pos two_pos 971)

/-- Rounding does not leave a range whose ends have patterns. -/
theorem correctlyRounded_mem_Icc {r x y : F64} {v : ℚ} (h : CorrectlyRounded r v) (hx : fIsFinite x = true)
    (hy : fIsFinite y = true) (hxv : fValue x ≤ v) (hvy : v ≤ fValue y) :
    fIsFinite r = true ∧ fValue x ≤ fValue r ∧ fValue r ≤ fValue y := by
  have hv : |v| < 2 ^ 1024 - 2 ^ 970 :=
    (abs_le_max_abs_abs hxv hvy).trans_lt (max_lt (abs_fValue_lt_threshold hx) (abs_fValue_lt_threshold hy))
  rw [CorrectlyRounded, if_pos hv] at h
  obtain ⟨hfin, hnear⟩ := h
  have hrx := (hnear x hx).1
  have hry := (hnear y hy).1
  rw [abs_of_nonpos (sub_nonpos.2 hxv), abs_le] at hrx
  rw [abs_of_nonneg (sub_nonneg.2 hvy), abs_le] at hry
  exact ⟨hfin, by linarith, by linarith⟩

/-- A finite value between 2^lo and 2^hi. -/
structure PowBounds (lo hi : Int) (x : F64) : Prop where
  finite : fIsFinite x = true
  lower : 2 ^ lo ≤ fValue x
  upper : fValue x ≤ 2 ^ hi

/-- Rounding does not leave a range between powers of two. -/
theorem powBounds_of_correctlyRounded {r : F64} {v : ℚ} {lo hi : Int} (h : CorrectlyRounded r v) (hlo : -1022 ≤ lo)
    (hhi : hi ≤ 1023) (hl : 2 ^ lo ≤ v) (hu : v ≤ 2 ^ hi) : PowBounds lo hi r := by
  have hle : lo ≤ hi := (zpow_le_zpow_iff_right₀ one_lt_two).1 (hl.trans hu)
  obtain ⟨x, hx, hxv⟩ := exists_fValue_eq_zpow hlo (hle.trans hhi)
  obtain ⟨y, hy, hyv⟩ := exists_fValue_eq_zpow (hlo.trans hle) hhi
  rw [← hxv] at hl
  rw [← hyv] at hu
  obtain ⟨hfin, hlower, hupper⟩ := correctlyRounded_mem_Icc h hx hy hl hu
  exact ⟨hfin, hxv ▸ hlower, hyv ▸ hupper⟩

theorem PowBounds.pos {lo hi : Int} {x : F64} (h : PowBounds lo hi x) : 0 < fValue x :=
  (zpow_pos two_pos lo).trans_le h.lower

theorem PowBounds.mul {a b c d : Int} {x y : F64} (hx : PowBounds a b x) (hy : PowBounds c d y) (hlo : -1022 ≤ a + c)
    (hhi : b + d ≤ 1023) : PowBounds (a + c) (b + d) (fMul x y) := by
  refine powBounds_of_correctlyRounded (correctlyRounded_fMul x y hx.finite hy.finite) hlo hhi ?_ ?_
  · rw [zpow_add₀ two_ne_zero]
    exact mul_le_mul hx.lower hy.lower (zpow_pos two_pos c).le hx.pos.le
  · rw [zpow_add₀ two_ne_zero]
    exact mul_le_mul hx.upper hy.upper hy.pos.le (zpow_pos two_pos b).le

theorem PowBounds.div {a b c d : Int} {x y : F64} (hx : PowBounds a b x) (hy : PowBounds c d y) (hlo : -1022 ≤ a - d)
    (hhi : b - c ≤ 1023) : PowBounds (a - d) (b - c) (fDiv x y) := by
  refine powBounds_of_correctlyRounded (correctlyRounded_fDiv x y hx.finite hy.finite hy.pos.ne') hlo hhi ?_ ?_
  · rw [zpow_sub₀ two_ne_zero]
    exact div_le_div₀ hx.pos.le hx.lower hy.pos hy.upper
  · rw [zpow_sub₀ two_ne_zero]
    exact div_le_div₀ (zpow_pos two_pos b).le hx.upper (zpow_pos two_pos c) hy.lower

/-- A positive normal value lies in the binade of its exponent field. -/
theorem powBounds_of_fExp {lo hi : Int} {x : F64} (hs : fSign x = false) (hpos : 1 ≤ fExp x) (hmax : fExp x ≤ 2046)
    (hlo : lo ≤ (fExp x : Int) - 1023) (hhi : (fExp x : Int) - 1022 ≤ hi) : PowBounds lo hi x := by
  have hmant : fMant x = 2 ^ 52 + fFrac x := if_neg (by omega)
  have hscale : fScale x = (fExp x : Int) - 1075 := if_neg (by omega)
  have hminMant : (2 ^ (52 : Int) : ℚ) ≤ fMant x := by
    rw [hmant]
    exact_mod_cast Nat.le_add_right _ _
  have hmaxMant : (fMant x : ℚ) ≤ 2 ^ (53 : Int) := by exact_mod_cast (fMant_lt x).le
  have hval : fValue x = fMant x * 2 ^ ((fExp x : Int) - 1075) := by
    rw [fValue_eq, hs, hscale, if_neg Bool.false_ne_true, one_mul]
  refine ⟨by simp [fIsFinite]; omega, ?_, ?_⟩
  · calc (2 : ℚ) ^ lo ≤ 2 ^ (52 + ((fExp x : Int) - 1075)) := zpow_le_zpow_right₀ one_le_two (by omega)
      _ = 2 ^ (52 : Int) * 2 ^ ((fExp x : Int) - 1075) := zpow_add₀ two_ne_zero _ _
      _ ≤ fValue x := hval ▸ mul_le_mul_of_nonneg_right hminMant (zpow_pos two_pos _).le
  · calc fValue x ≤ 2 ^ (53 : Int) * 2 ^ ((fExp x : Int) - 1075) :=
          hval ▸ mul_le_mul_of_nonneg_right hmaxMant (zpow_pos two_pos _).le
      _ = 2 ^ (53 + ((fExp x : Int) - 1075)) := (zpow_add₀ two_ne_zero _ _).symm
      _ ≤ 2 ^ hi := zpow_le_zpow_right₀ one_le_two (by omega)

/-- A finite value of at least 2^-1022 is positive and normal: a subnormal one is smaller. -/
theorem PowBounds.normal {lo hi : Int} {x : F64} (h : PowBounds lo hi x) (hlo : -1022 ≤ lo) :
    fSign x = false ∧ 1 ≤ fExp x ∧ fExp x ≤ 2046 := by
  refine ⟨?_, ?_, ?_⟩
  · by_contra hs
    rw [Bool.not_eq_false] at hs
    have hneg := fValue_sign x
    rw [if_pos hs] at hneg
    linarith [h.pos, abs_nonneg (fValue x)]
  · by_contra he
    have h0 : fExp x = 0 := by omega
    have hmant : fMant x = fFrac x := if_pos h0
    have hscale : fScale x = -1074 := if_pos h0
    have hfrac : (fMant x : ℚ) < 2 ^ (52 : Int) := by
      rw [hmant]
      exact_mod_cast fFrac_lt x
    have hlt : fValue x < 2 ^ lo :=
      calc fValue x ≤ |fValue x| := le_abs_self _
        _ = fMant x * 2 ^ (-1074 : Int) := by rw [abs_fValue, hscale]
        _ < 2 ^ (52 : Int) * 2 ^ (-1074 : Int) := mul_lt_mul_of_pos_right hfrac (zpow_pos two_pos _)
        _ = 2 ^ (-1022 : Int) := (zpow_add₀ two_ne_zero _ _).symm
        _ ≤ 2 ^ lo := zpow_le_zpow_right₀ one_le_two hlo
    exact hlt.not_ge h.lower
  · have hfin := h.finite
    have := fExp_lt x
    simp only [fIsFinite, bne_iff_ne] at hfin
    omega

/-! ### Forward-table entries (R123) -/

theorem powBounds_aan (i : Fin 8) : PowBounds (-2) 1 (aan i) := by
  have hfields : ∀ i : Fin 8, fSign (aan i) = false ∧ 1021 ≤ fExp (aan i) ∧ fExp (aan i) ≤ 1023 := by decide
  obtain ⟨hs, hlo, hhi⟩ := hfields i
  exact powBounds_of_fExp hs (by omega) (by omega) (by omega) (by omega)

theorem powBounds_fOne : PowBounds 0 1 fOne :=
  powBounds_of_fExp (by decide) (by decide) (by decide) (by decide) (by decide)

theorem powBounds_fEight : PowBounds 3 4 fEight :=
  powBounds_of_fExp (by decide) (by decide) (by decide) (by decide) (by decide)

/-- A step size in [1,255], as binary64. -/
theorem powBounds_step {step : Byte} (h : step ≠ 0#8) : PowBounds 0 8 (fOfInt step.toNat) := by
  have hlt := step.isLt
  have hpos : 1 ≤ step.toNat := Nat.one_le_iff_ne_zero.2 fun h0 => h (BitVec.eq_of_toNat_eq h0)
  obtain ⟨hfin, hval⟩ := fOfInt_exact step.toNat (by omega)
  refine ⟨hfin, ?_, ?_⟩
  · rw [hval, zpow_zero]
    exact_mod_cast hpos
  · rw [hval]
    exact_mod_cast hlt.le

/-- Bounds of a forward-table entry, the bounds of its five operands combined. -/
theorem powBounds_forwardEntry {step : Byte} (h : step ≠ 0#8) (row col : Fin 8) :
    PowBounds (-14) 2 (forwardEntry step row col) := by
  have hrow := (powBounds_step h).mul (powBounds_aan row) (by decide) (by decide)
  have hcol := hrow.mul (powBounds_aan col) (by decide) (by decide)
  have hden := hcol.mul powBounds_fEight (by decide) (by decide)
  exact powBounds_fOne.div hden (by decide) (by decide)

/-- Settles O19: an entry lies between 2^-14 and 4, far inside the normal range. -/
theorem forwardEntriesAreNormal : Obligations.ForwardEntriesAreNormal :=
  fun _ row col h => (powBounds_forwardEntry h row col).normal (by decide)

end Sys2Proof.Machine
end

section
/-! SUPPORT. The statements of spec/41_forward.md: FDCT's passes and its quantizer (R142 to R148), the range of the
forward arithmetic (R149), and flat blocks (R150). -/

namespace Sys2Proof.Machine

/-! ### The completion of FDCT (R140, R145 to R147) -/

theorem exec_fdct (m : PixelMode) {s : State} (hpix : s.pixIn.allValid = true) (htv : s.status.tv = true) :
    exec (.fdct m) s = .next { s with
      coef := ⟨forwardBlock m s.pixIn.data s.ft, Vector.replicate 64 true⟩, pend := .idle,
      status := { s.status with busy := false, done := true } } := by
  simp only [exec, execFdct, hpix, htv, Bool.and_true, if_true, Buffer.full_of_vector, finish]

theorem rowOf_samples (m : PixelMode) (pix : Vector Byte 64) (i : Fin 8) :
    rowOf (samples m pix) i = Vector.ofFn fun n : Fin 8 => fOfInt (levelShift pix[8 * i.val + n.val] m) := by
  simp only [rowOf, samples_get]

/-- Settles O25: the row pass, the column pass and the quantizer, by the laws of `mapRows`, `mapCols` and
`forwardBlock`. -/
theorem fdctResult : Obligations.FdctResult := by
  intro m s hpix htv
  refine ⟨mapRows fdct8 (samples m s.pixIn.data), fdctBlock (samples m s.pixIn.data), _, exec_fdct m hpix htv,
    fun i j => ?_, fun c j => fdctBlock_get _ c j, fun k => forwardBlock_get m _ _ k.val k.isLt⟩
  rw [mapRows_get, rowOf_samples]

/-! ### The level shift (R142, R143) -/

theorem levelShift_raw_bounds (b : Byte) : -128 ≤ levelShift b .raw ∧ levelShift b .raw ≤ 127 := by
  have := b.isLt
  simp only [levelShift]
  omega

theorem levelShift_pre_bounds (b : Byte) : -128 ≤ levelShift b .pre ∧ levelShift b .pre ≤ 127 :=
  ⟨b.le_toInt, Int.le_of_lt_add_one b.toInt_lt⟩

theorem levelShift_bounds (b : Byte) (m : PixelMode) : -128 ≤ levelShift b m ∧ levelShift b m ≤ 127 := by
  cases m
  · exact levelShift_raw_bounds b
  · exact levelShift_pre_bounds b

/-- Inverting the top bit is the level shift in two's complement (R143). -/
theorem levelShift_xor_pre (b : Byte) : levelShift (b ^^^ 0x80#8) .pre = levelShift b .raw := by
  revert b
  decide

theorem samples_pre_of_xor {pix pix' : Vector Byte 64} (h : ∀ k : Fin 64, pix'[k] = pix[k] ^^^ 0x80#8) :
    samples .pre pix' = samples .raw pix := by
  ext k hk : 1
  have hx : pix'[k] = pix[k] ^^^ 0x80#8 := h ⟨k, hk⟩
  rw [samples_get, samples_get, hx, levelShift_xor_pre]

/-- Settles O26: the two blocks of bytes give the same samples, so the same coefficients. -/
theorem preShiftedInputIsEquivalent : Obligations.PreShiftedInputIsEquivalent := by
  refine ⟨fun b => ⟨rfl, rfl, ?_⟩, fun s s' hpix hpix' htv htv' hft hxor => ?_⟩
  · obtain ⟨hraw, hraw'⟩ := levelShift_bounds b .raw
    exact ⟨hraw, hraw', levelShift_bounds b .pre⟩
  · refine ⟨_, _, exec_fdct .raw hpix htv, exec_fdct .pre hpix' htv', ?_⟩
    simp only [forwardBlock_eq, samples_pre_of_xor hxor, hft]

/-! ### The outputs of the butterfly and of its two passes (R144 to R146) -/

theorem forall_getElem_of_eight {α : Type} {P : Fin 8 → α → Prop} {a b c d e f g h : α} (h0 : P 0 a) (h1 : P 1 b)
    (h2 : P 2 c) (h3 : P 3 d) (h4 : P 4 e) (h5 : P 5 f) (h6 : P 6 g) (h7 : P 7 h) (j : Fin 8) :
    P j #v[a, b, c, d, e, f, g, h][j] := by
  match j with
  | 0 => exact h0
  | 1 => exact h1
  | 2 => exact h2
  | 3 => exact h3
  | 4 => exact h4
  | 5 => exact h5
  | 6 => exact h6
  | 7 => exact h7

/-- What the butterfly makes of a row and then of a column, it makes of a block: element k is output j of column c. -/
theorem fdctBlock_of_fdct8 {P : F64 → Prop} {Q : Fin 8 → F64 → Prop} {R : Fin 8 → Fin 8 → F64 → Prop}
    (hrow : ∀ v : Vector F64 8, (∀ i : Fin 8, P v[i]) → ∀ c : Fin 8, Q c (fdct8 v)[c])
    (hcol : ∀ (c : Fin 8) (v : Vector F64 8), (∀ i : Fin 8, Q c v[i]) → ∀ j : Fin 8, R j c (fdct8 v)[j])
    {d : Vector F64 64} (hd : ∀ k : Fin 64, P d[k]) (k : Fin 64) :
    ∃ j c : Fin 8, k.val = 8 * j.val + c.val ∧ R j c (fdctBlock d)[k] := by
  have hrows : ∀ i c : Fin 8, Q c (mapRows fdct8 d)[8 * i.val + c.val] := fun i c => by
    rw [mapRows_get]
    exact hrow _ (fun j => by rw [rowOf_get]; exact hd ⟨8 * i.val + j.val, by omega⟩) c
  obtain ⟨j, c, hk⟩ := index_split k
  refine ⟨j, c, hk, ?_⟩
  have hout := hcol c (colOf (mapRows fdct8 d) c) (fun i => by rw [colOf_get]; exact hrows i c) j
  rw [← fdctBlock_get] at hout
  simpa only [Fin.getElem_fin, hk] using hout

/-! ### Exact integers in the forward datapath (R150) -/

/-- The value of a finite pattern is an integer. -/
structure HasValue (x : F64) (n : Int) : Prop where
  finite : fIsFinite x = true
  value : fValue x = n

theorem hasValue_fOfInt {n : Int} (h : n.natAbs < 2 ^ 53) : HasValue (fOfInt n) n :=
  ⟨(fOfInt_exact n h).1, (fOfInt_exact n h).2⟩

theorem hasValue_samples (m : PixelMode) (pix : Vector Byte 64) (k : Fin 64) :
    HasValue (samples m pix)[k] (levelShift pix[k] m) := by
  have hk : (samples m pix)[k] = fOfInt (levelShift pix[k] m) := samples_get m pix k.val k.isLt
  have := levelShift_bounds pix[k] m
  rw [hk]
  exact hasValue_fOfInt (by omega)

/-- An exact result that is an integer below 2^53 is kept by rounding. -/
theorem HasValue.of_correctlyRounded {r : F64} {n : Int} (h : CorrectlyRounded r n) (hn : n.natAbs < 2 ^ 53) :
    HasValue r n := by
  obtain ⟨z, hz, hzn⟩ := exists_fValue_eq_intCast n hn
  rw [← hzn] at h
  obtain ⟨hfin, hval⟩ := correctlyRounded_exact h hz (abs_fValue_lt_threshold hz)
  exact ⟨hfin, hval.trans hzn⟩

section
variable {x y : F64} {m n : Int}

theorem HasValue.add (hx : HasValue x m) (hy : HasValue y n) (h : (m + n).natAbs < 2 ^ 53) :
    HasValue (fAdd x y) (m + n) := by
  have hr := correctlyRounded_fAdd x y hx.finite hy.finite
  rw [hx.value, hy.value, ← Int.cast_add] at hr
  exact .of_correctlyRounded hr h

theorem HasValue.sub (hx : HasValue x m) (hy : HasValue y n) (h : (m - n).natAbs < 2 ^ 53) :
    HasValue (fSub x y) (m - n) := by
  have hr := (additionIsCorrectlyRounded x y hx.finite hy.finite).2
  rw [hx.value, hy.value, ← Int.cast_sub] at hr
  exact .of_correctlyRounded hr h

theorem HasValue.double (hx : HasValue x n) (hy : HasValue y n) (h : (2 * n).natAbs < 2 ^ 53) :
    HasValue (fAdd x y) (2 * n) :=
  two_mul n ▸ hx.add hy (two_mul n ▸ h)

theorem HasValue.fSub_self (hx : HasValue x n) (hy : HasValue y n) : HasValue (fSub x y) 0 := by
  have h := hx.sub hy
  rw [sub_self] at h
  exact h (by decide)

theorem HasValue.fAdd_zero (hx : HasValue x 0) (hy : HasValue y 0) : HasValue (fAdd x y) 0 :=
  hx.double hy (by decide)

theorem HasValue.fMul_zero (hx : fIsFinite x = true) (hy : HasValue y 0) : HasValue (fMul x y) 0 := by
  have hr := correctlyRounded_fMul x y hx hy.finite
  rw [hy.value, Int.cast_zero, mul_zero, ← Int.cast_zero] at hr
  exact .of_correctlyRounded hr (by decide)

theorem HasValue.zero_fMul (hx : HasValue x 0) (hy : fIsFinite y = true) : HasValue (fMul x y) 0 := by
  have hr := correctlyRounded_fMul x y hx.finite hy
  rw [hx.value, Int.cast_zero, zero_mul, ← Int.cast_zero] at hr
  exact .of_correctlyRounded hr (by decide)

end

/-- The butterfly on eight equal samples: every difference is 0, so every output but the first is (R150). -/
theorem fdct8_flat {d : Vector F64 8} {n : Int} (hn : n.natAbs < 2 ^ 50) (hd : ∀ i : Fin 8, HasValue d[i] n) :
    ∀ j : Fin 8, HasValue (fdct8 d)[j] (if j = 0 then 8 * n else 0) := by
  have tmp0 := (hd 0).double (hd 7) (by omega)
  have tmp1 := (hd 1).double (hd 6) (by omega)
  have tmp2 := (hd 2).double (hd 5) (by omega)
  have tmp3 := (hd 3).double (hd 4) (by omega)
  have tmp7 := (hd 0).fSub_self (hd 7)
  have tmp6 := (hd 1).fSub_self (hd 6)
  have tmp5 := (hd 2).fSub_self (hd 5)
  have tmp4 := (hd 3).fSub_self (hd 4)
  have even10 := tmp0.double tmp3 (by omega)
  have even13 := tmp0.fSub_self tmp3
  have even11 := tmp1.double tmp2 (by omega)
  have even12 := tmp1.fSub_self tmp2
  have z1 := (even12.fAdd_zero even13).zero_fMul (y := kC4) (by decide)
  have odd10 := tmp4.fAdd_zero tmp5
  have odd11 := tmp5.fAdd_zero tmp6
  have odd12 := tmp6.fAdd_zero tmp7
  have z5 := (odd10.fSub_self odd12).zero_fMul (y := kC6) (by decide)
  have z2 := (HasValue.fMul_zero (x := kC2mC6) (by decide) odd10).fAdd_zero z5
  have z4 := (HasValue.fMul_zero (x := kC2pC6) (by decide) odd12).fAdd_zero z5
  have z3 := odd11.zero_fMul (y := kC4) (by decide)
  have z11 := tmp7.fAdd_zero z3
  have z13 := tmp7.fSub_self z3
  have o0 := even10.double even11 (by omega)
  rw [show 2 * (2 * (2 * n)) = 8 * n by ring] at o0
  exact forall_getElem_of_eight (P := fun j x => HasValue x (if j = 0 then 8 * n else 0))
    o0 (z11.fAdd_zero z4) (even13.fAdd_zero z1) (z13.fSub_self z2)
    (even10.fSub_self even11) (z13.fAdd_zero z2) (even13.fSub_self z1) (z11.fSub_self z4)

theorem fdctBlock_flat {d : Vector F64 64} {n : Int} (hn : n.natAbs < 2 ^ 47) (hd : ∀ k : Fin 64, HasValue d[k] n)
    (k : Fin 64) : HasValue (fdctBlock d)[k] (if k = 0 then 64 * n else 0) := by
  obtain ⟨j, c, hk, hval⟩ := fdctBlock_of_fdct8 (P := fun x => HasValue x n)
    (Q := fun c x => HasValue x (if c = 0 then 8 * n else 0))
    (R := fun j c x => HasValue x (if j = 0 then 8 * (if c = 0 then 8 * n else 0) else 0))
    (fun _ hv => fdct8_flat (by omega) hv) (fun _ _ hv => fdct8_flat (by split <;> omega) hv) hd k
  convert hval using 1
  split_ifs <;> omega

/-! ### The quantizer depends on the value only (R147, R148) -/

theorem fValue_fHalf : fValue fHalf = 1 / 2 := by
  rw [fValue_eq, show fSign fHalf = false by decide, show fMant fHalf = 2 ^ 52 by decide,
    show fScale fHalf = -53 by decide]
  norm_num

theorem fTrunc_eq_zero {x : F64} (hx : fIsFinite x = true) (h : |fValue x| < 1) : fTrunc x = 0 := by
  have hfloor : ⌊|fValue x|⌋ = 0 := Int.floor_eq_zero_iff.2 ⟨abs_nonneg _, h⟩
  rw [fTrunc_finite x hx, hfloor, neg_zero, ite_self]

theorem fTrunc_eq_zero_of_half {r : F64} {v : ℚ} (h : CorrectlyRounded r v) (hv : |v| = 1 / 2) : fTrunc r = 0 := by
  have hhalf : |fValue fHalf| = 1 / 2 := by rw [fValue_fHalf, abs_of_pos one_half_pos]
  have hfin : fIsFinite fHalf = true := by decide
  obtain ⟨hr, hle⟩ := correctlyRounded_abs_le h fHalf hfin (hv.trans hhalf.symm).le (abs_fValue_lt_threshold hfin)
  exact fTrunc_eq_zero hr (hle.trans_lt (hhalf ▸ one_half_lt_one))

/-- Both zeros round to 0. -/
theorem HasValue.roundHalfAway_zero {x : F64} (h : HasValue x 0) : roundHalfAway x = 0 := by
  obtain ⟨hadd, hsub⟩ := additionIsCorrectlyRounded x fHalf h.finite (by decide)
  rw [h.value, fValue_fHalf, Int.cast_zero] at hadd hsub
  unfold roundHalfAway
  split
  · exact fTrunc_eq_zero_of_half hadd (by norm_num)
  · exact fTrunc_eq_zero_of_half hsub (by norm_num)

theorem HasValue.quantize_zero {d ft : F64} (hd : HasValue d 0) (hft : fIsFinite ft = true) : quantize d ft = 0#32 := by
  rw [quantize, (hd.zero_fMul hft).roundHalfAway_zero]
  rfl

/-- A coarser unit is a larger value: above the least unit a significand has all its 53 bits. -/
theorem abs_fValue_lt_of_fScale_lt {x y : F64} (h : fScale x < fScale y) : |fValue x| < |fValue y| := by
  have hexp : fExp y ≠ 0 := fun h0 => by
    have hy : fScale y = -1074 := if_pos h0
    have := fScale_ge x
    omega
  have hmant : fMant y = 2 ^ 52 + fFrac y := if_neg hexp
  have hmy : (2 ^ (52 : Int) : ℚ) ≤ fMant y := by
    rw [hmant]
    exact_mod_cast Nat.le_add_right _ _
  have hmx : (fMant x : ℚ) < 2 ^ (53 : Int) := by exact_mod_cast fMant_lt x
  rw [abs_fValue, abs_fValue]
  calc (fMant x : ℚ) * 2 ^ fScale x < 2 ^ (53 : Int) * 2 ^ fScale x :=
        mul_lt_mul_of_pos_right hmx (zpow_pos two_pos _)
    _ = 2 ^ (53 + fScale x) := (zpow_add₀ two_ne_zero _ _).symm
    _ ≤ 2 ^ (52 + fScale y) := zpow_le_zpow_right₀ one_le_two (by omega)
    _ = 2 ^ (52 : Int) * 2 ^ fScale y := zpow_add₀ two_ne_zero _ _
    _ ≤ fMant y * 2 ^ fScale y := mul_le_mul_of_nonneg_right hmy (zpow_pos two_pos _).le

theorem fSign_of_ne_zero {x : F64} (h : fValue x ≠ 0) : fSign x = decide (fValue x < 0) := by
  have hval := fValue_sign x
  have hpos := abs_pos.2 h
  cases hs : fSign x
  · rw [hs, if_neg Bool.false_ne_true, one_mul] at hval
    exact (decide_eq_false (by linarith)).symm
  · rw [hs, if_pos rfl, neg_one_mul] at hval
    exact (decide_eq_true (by linarith)).symm

/-- A value other than 0 has one sign, one significand and one unit. -/
theorem fields_eq_of_fValue_eq {x y : F64} (h : fValue x = fValue y) (h0 : fValue x ≠ 0) :
    fSign x = fSign y ∧ fMant x = fMant y ∧ fScale x = fScale y := by
  have hscale : fScale x = fScale y := by
    rcases lt_trichotomy (fScale x) (fScale y) with hlt | heq | hgt
    · exact absurd (abs_fValue_lt_of_fScale_lt hlt) (by rw [h]; exact lt_irrefl _)
    · exact heq
    · exact absurd (abs_fValue_lt_of_fScale_lt hgt) (by rw [h]; exact lt_irrefl _)
  have hmant : fMant x = fMant y := by
    have habs : |fValue x| = |fValue y| := by rw [h]
    rw [abs_fValue, abs_fValue, hscale] at habs
    exact_mod_cast mul_right_cancel₀ (zpow_pos two_pos (fScale y)).ne' habs
  exact ⟨by rw [fSign_of_ne_zero h0, fSign_of_ne_zero (h ▸ h0), h], hmant, hscale⟩

theorem HasValue.quantize_congr {d e ft : F64} {n : Int} (hd : HasValue d n) (he : HasValue e n)
    (hft : fIsFinite ft = true) : quantize d ft = quantize e ft := by
  by_cases hn : n = 0
  · subst hn
    rw [hd.quantize_zero hft, he.quantize_zero hft]
  · have hne : fValue d ≠ 0 := by
      rw [hd.value]
      exact_mod_cast hn
    obtain ⟨hsign, hmant, hscale⟩ := fields_eq_of_fValue_eq (hd.value.trans he.value.symm) hne
    rw [quantize, quantize, fMul_finite d ft hd.finite hft, fMul_finite e ft he.finite hft, hsign, hmant, hscale]

/-- Settles O27: both passes keep a flat block's exact integers, and the quantizer sees only their values. -/
theorem flatBlockHasOnlyDc : Obligations.FlatBlockHasOnlyDc := by
  intro m s x hpix htv hft hflat
  have hx : x.natAbs ≤ 128 := by
    have := levelShift_bounds s.pixIn.data[(0 : Fin 64)] m
    rw [hflat] at this
    omega
  have hblock := fdctBlock_flat (by omega) fun k => hflat k ▸ hasValue_samples m s.pixIn.data k
  refine ⟨_, exec_fdct m hpix htv, fun k hk => ?_, ?_⟩
  · have hzero := hblock k
    rw [if_neg hk] at hzero
    exact (forwardBlock_get m _ _ k.val k.isLt).trans (hzero.quantize_zero (hft k))
  · exact (forwardBlock_get m _ _ 0 (by decide)).trans
      ((hblock 0).quantize_congr (hasValue_fOfInt (by omega)) (hft 0))

/-! ### RoundHalfAway at its corners (R148) -/

/-- Settles O24: both zeros round to 0, the other corners are evaluations, and the rule is the definition. -/
theorem roundHalfAwayCorners : Obligations.RoundHalfAwayCorners :=
  ⟨HasValue.roundHalfAway_zero ⟨(fZero_value false).2, by exact_mod_cast (fZero_value false).1⟩,
    HasValue.roundHalfAway_zero ⟨(fZero_value true).2, by exact_mod_cast (fZero_value true).1⟩,
    by decide, by decide, by decide, by decide, by decide, fun _ => rfl⟩

/-! ### The range of the forward arithmetic (R149)

Each operation at most doubles a power of two that bounds its operands, so one pass gains at most five bits. -/

/-- A finite value of magnitude at most 2^k. -/
structure MagLe (k : Nat) (x : F64) : Prop where
  finite : fIsFinite x = true
  le : |fValue x| ≤ 2 ^ k

theorem MagLe.mono {k l : Nat} {x : F64} (h : MagLe k x) (hkl : k ≤ l) : MagLe l x :=
  ⟨h.finite, h.le.trans (pow_le_pow_right₀ one_le_two hkl)⟩

/-- Rounding does not leave the range. -/
theorem MagLe.of_correctlyRounded {k : Nat} {r : F64} {v : ℚ} (h : CorrectlyRounded r v) (hk : k ≤ 1023)
    (hv : |v| ≤ 2 ^ k) : MagLe k r := by
  obtain ⟨z, hz, hzv⟩ := exists_fValue_eq_zpow (k := k) (by omega) (by omega)
  have habs : |fValue z| = 2 ^ k := by rw [hzv, zpow_natCast, abs_of_pos (by positivity)]
  rw [← habs] at hv
  obtain ⟨hfin, hle⟩ := correctlyRounded_abs_le h z hz hv (abs_fValue_lt_threshold hz)
  exact ⟨hfin, habs ▸ hle⟩

theorem HasValue.magLe {k : Nat} {x : F64} {n : Int} (h : HasValue x n) (hn : |n| ≤ 2 ^ k) : MagLe k x :=
  ⟨h.finite, by rw [h.value]; exact_mod_cast hn⟩

/-- A pattern is below the end of its binade. -/
theorem magLe_of_fExp {k : Nat} {x : F64} (h : fExp x ≤ 1022 + k) (hk : k ≤ 1023) : MagLe k x := by
  have hscale : fScale x ≤ (k : Int) - 53 := by
    unfold fScale
    split <;> omega
  have hmant : (fMant x : ℚ) ≤ 2 ^ (53 : Int) := by exact_mod_cast (fMant_lt x).le
  refine ⟨by simp [fIsFinite]; omega, ?_⟩
  calc |fValue x| = fMant x * 2 ^ fScale x := abs_fValue x
    _ ≤ 2 ^ (53 : Int) * 2 ^ ((k : Int) - 53) := by gcongr; exact one_le_two
    _ = 2 ^ (53 + ((k : Int) - 53)) := (zpow_add₀ two_ne_zero _ _).symm
    _ = 2 ^ k := by rw [add_sub_cancel, zpow_natCast]

theorem PowBounds.magLe {lo : Int} {k : Nat} {x : F64} (h : PowBounds lo k x) : MagLe k x :=
  ⟨h.finite, by rw [abs_of_pos h.pos, ← zpow_natCast]; exact h.upper⟩

section
variable {k l : Nat} {x y : F64}

theorem MagLe.add (hx : MagLe k x) (hy : MagLe k y) (hk : k ≤ 1022) : MagLe (k + 1) (fAdd x y) := by
  refine .of_correctlyRounded (correctlyRounded_fAdd x y hx.finite hy.finite) (by omega) ?_
  calc |fValue x + fValue y| ≤ |fValue x| + |fValue y| := abs_add_le _ _
    _ ≤ 2 ^ k + 2 ^ k := add_le_add hx.le hy.le
    _ = 2 ^ (k + 1) := by ring

theorem MagLe.neg (hx : MagLe k x) : MagLe k (fNeg x) := by
  obtain ⟨hval, hfin⟩ := fNeg_spec x
  exact ⟨hfin.trans hx.finite, by rw [hval, abs_neg]; exact hx.le⟩

theorem MagLe.sub (hx : MagLe k x) (hy : MagLe k y) (hk : k ≤ 1022) : MagLe (k + 1) (fSub x y) :=
  hx.add hy.neg hk

theorem MagLe.mul (hx : MagLe k x) (hy : MagLe l y) (hk : k + l ≤ 1023) : MagLe (k + l) (fMul x y) := by
  refine .of_correctlyRounded (correctlyRounded_fMul x y hx.finite hy.finite) hk ?_
  rw [abs_mul, pow_add]
  exact mul_le_mul hx.le hy.le (abs_nonneg _) (by positivity)

theorem MagLe.fTrunc_le (hx : MagLe k x) : |fTrunc x| ≤ 2 ^ k := by
  have hfloor : 0 ≤ ⌊|fValue x|⌋ := Int.floor_nonneg.2 (abs_nonneg _)
  have habs : |fTrunc x| = ⌊|fValue x|⌋ := by
    rw [fTrunc_finite x hx.finite]
    split
    · rw [abs_neg, abs_of_nonneg hfloor]
    · exact abs_of_nonneg hfloor
  rw [habs, Int.floor_le_iff]
  push_cast
  linarith [hx.le]

theorem MagLe.roundHalfAway_le (hx : MagLe k x) (hk : k ≤ 1022) : |roundHalfAway x| ≤ 2 ^ (k + 1) := by
  have hhalf : MagLe k fHalf := (magLe_of_fExp (k := 0) (by decide) (by decide)).mono (Nat.zero_le k)
  unfold roundHalfAway
  split
  · exact (hx.add hhalf hk).fTrunc_le
  · exact (hx.sub hhalf hk).fTrunc_le

end

theorem magLe_kC4 : MagLe 0 kC4 := magLe_of_fExp (by decide) (by decide)

theorem magLe_kC6 : MagLe 0 kC6 := magLe_of_fExp (by decide) (by decide)

theorem magLe_kC2mC6 : MagLe 0 kC2mC6 := magLe_of_fExp (by decide) (by decide)

theorem magLe_kC2pC6 : MagLe 1 kC2pC6 := magLe_of_fExp (by decide) (by decide)

theorem magLe_fdct8 {d : Vector F64 8} {k : Nat} (hk : k + 5 ≤ 1023) (hd : ∀ i : Fin 8, MagLe k d[i]) :
    ∀ j : Fin 8, MagLe (k + 5) (fdct8 d)[j] := by
  have tmp0 := (hd 0).add (hd 7) (by omega)
  have tmp7 := (hd 0).sub (hd 7) (by omega)
  have tmp1 := (hd 1).add (hd 6) (by omega)
  have tmp6 := (hd 1).sub (hd 6) (by omega)
  have tmp2 := (hd 2).add (hd 5) (by omega)
  have tmp5 := (hd 2).sub (hd 5) (by omega)
  have tmp3 := (hd 3).add (hd 4) (by omega)
  have tmp4 := (hd 3).sub (hd 4) (by omega)
  have even10 := tmp0.add tmp3 (by omega)
  have even13 := tmp0.sub tmp3 (by omega)
  have even11 := tmp1.add tmp2 (by omega)
  have even12 := tmp1.sub tmp2 (by omega)
  have o0 := even10.add even11 (by omega)
  have o4 := even10.sub even11 (by omega)
  have z1 := (even12.add even13 (by omega)).mul magLe_kC4 (by omega)
  have even13' := even13.mono (Nat.le_succ _)
  have o2 := even13'.add z1 (by omega)
  have o6 := even13'.sub z1 (by omega)
  have odd10 := tmp4.add tmp5 (by omega)
  have odd11 := tmp5.add tmp6 (by omega)
  have odd12 := tmp6.add tmp7 (by omega)
  have z5 := (odd10.sub odd12 (by omega)).mul magLe_kC6 (by omega)
  have z2 := ((magLe_kC2mC6.mul odd10 (by omega)).mono (by omega : _ ≤ k + 3)).add z5 (by omega)
  have z4 := ((magLe_kC2pC6.mul odd12 (by omega)).mono (by omega : _ ≤ k + 3)).add z5 (by omega)
  have z3 := odd11.mul magLe_kC4 (by omega)
  have z11 := ((tmp7.mono (Nat.le_succ _)).add z3 (by omega)).mono (Nat.le_succ _)
  have z13 := ((tmp7.mono (Nat.le_succ _)).sub z3 (by omega)).mono (Nat.le_succ _)
  have o5 := z13.add z2 (by omega)
  have o3 := z13.sub z2 (by omega)
  have o1 := z11.add z4 (by omega)
  have o7 := z11.sub z4 (by omega)
  exact forall_getElem_of_eight (P := fun _ => MagLe (k + 5)) (o0.mono (by omega)) o1 (o2.mono (by omega)) o3
    (o4.mono (by omega)) o5 (o6.mono (by omega)) o7

theorem magLe_fdctBlock {d : Vector F64 64} {k : Nat} (hk : k + 10 ≤ 1023) (hd : ∀ i : Fin 64, MagLe k d[i])
    (i : Fin 64) : MagLe (k + 10) (fdctBlock d)[i] := by
  obtain ⟨-, -, -, hle⟩ := fdctBlock_of_fdct8 (P := MagLe k) (Q := fun _ => MagLe (k + 5))
    (R := fun _ _ => MagLe (k + 10))
    (fun _ hv => magLe_fdct8 (by omega) hv) (fun _ _ hv => magLe_fdct8 (by omega) hv) hd i
  exact hle

theorem magLe_samples (m : PixelMode) (pix : Vector Byte 64) (k : Fin 64) : MagLe 7 (samples m pix)[k] := by
  obtain ⟨hlo, hhi⟩ := levelShift_bounds pix[k] m
  exact (hasValue_samples m pix k).magLe (abs_le.2 ⟨hlo, by omega⟩)

theorem TablesBuilt.magLe_ft {s : State} (h : TablesBuilt s) (k : Fin 64) : MagLe 2 s.ft[k] := by
  obtain ⟨row, col, hk⟩ := index_split k
  have hstep : s.qt[k] ≠ 0#8 := fun h0 => by
    have hq : s.qt[k] = stepSize (baseZz (natToZz k)).toNat (scaleFactor s.quality.toNat) := by
      rw [h.inverseTable]
      exact buildQt_get _ _ k.isLt
    have hpos := (stepSize_bounds (baseZz (natToZz k)).toNat (scaleFactor s.quality.toNat)).1
    rw [← hq, h0] at hpos
    exact absurd hpos (by decide)
  simp only [Fin.getElem_fin, hk] at hstep ⊢
  rw [h.forwardTable, buildFt_get]
  exact (powBounds_forwardEntry hstep row col).magLe

/-- Settles O28: two passes take the samples' 2^7 to 2^17, a table entry is at most 2^2, and rounding adds one bit. -/
theorem forwardArithmeticNeverOverflows : Obligations.ForwardArithmeticNeverOverflows := by
  intro m s hpix htv htables
  refine ⟨_, exec_fdct m hpix htv, fun k => ?_⟩
  have hprod : MagLe 19 (fMul (fdctBlock (samples m s.pixIn.data))[k] s.ft[k]) :=
    (magLe_fdctBlock (by omega) (magLe_samples m s.pixIn.data) k).mul (htables.magLe_ft k) (by omega)
  have hround := hprod.roundHalfAway_le (by omega)
  have hcoef : ((forwardBlock m s.pixIn.data s.ft)[k]).toInt =
      roundHalfAway (fMul (fdctBlock (samples m s.pixIn.data))[k] s.ft[k]) := by
    obtain ⟨hlo, hhi⟩ := abs_le.1 hround
    have hk : (forwardBlock m s.pixIn.data s.ft)[k] = quantize (fdctBlock (samples m s.pixIn.data))[k] s.ft[k] :=
      forwardBlock_get m _ _ k.val k.isLt
    rw [hk, quantize, BitVec.toInt_ofInt]
    exact Int.bmod_eq_of_le (by omega) (by omega)
  exact ⟨hprod.finite, hcoef, hcoef ▸ hround⟩

end Sys2Proof.Machine
end

section
/-! SUPPORT. The statements of spec/42_mask.md: MASK's completion, the ranks it keeps (R170 to R173), and, from the
coefficient it writes to each lane, the edge cases, the added phase and the repeated mask (R174 to R176). -/

namespace Sys2Proof.Machine

/-! ### Ranks and natural indices (R115) -/

theorem natToZz_injective : Function.Injective natToZz :=
  Function.LeftInverse.injective zzToNat_natToZz

theorem natToZz_val_ne {k r : Fin 64} (h : k ≠ zzToNat r) : (natToZz k).val ≠ r.val :=
  fun e => h ((natToZz_eq_iff k r).1 (Fin.ext e))

/-- NAT_TO_ZZ takes the kept set of R171 one to one onto the ranks from start to end. -/
theorem card_keptRanks (start : Nat) {stop : Nat} (hstop : stop ≤ 64) :
    ((Finset.univ : Finset (Fin 64)).filter
      (fun k => start ≤ (natToZz k).val ∧ (natToZz k).val < stop)).card = stop - start := by
  rw [← Nat.card_Ico]
  refine Finset.card_bij (fun k _ => (natToZz k).val) (fun k hk => ?_) (fun k _ l _ e => ?_) (fun n hn => ?_)
  · simpa using hk
  · exact natToZz_injective (Fin.ext e)
  · obtain ⟨hlo, hhi⟩ := Finset.mem_Ico.1 hn
    exact ⟨zzToNat ⟨n, hhi.trans_le hstop⟩, by simp [natToZz_zzToNat, hlo, hhi], by rw [natToZz_zzToNat]⟩

/-! ### The completion of MASK (R170, R172, R173) -/

theorem exec_mask (start stop : Nat) {s : State} (hcoef : s.coef.allValid = true) :
    exec (.mask start stop) s = .next { s with
      mcoef := ⟨Vector.ofFn (maskLane start stop s.coef.data), Vector.replicate 64 true⟩,
      phase := { start := BitVec.ofNat 7 start, stop := BitVec.ofNat 7 stop }, pend := .idle,
      status := { s.status with busy := false, done := true } } := by
  simp only [exec, execMask, hcoef, if_true, finish, Buffer.full]

/-- Both ranks fit PHASE's 7-bit fields (R34). -/
theorem Phase.word_ofNat_toNat {start stop : Nat} (hstart : start ≤ 64) (hstop : stop ≤ 64) :
    ((Phase.mk (BitVec.ofNat 7 start) (BitVec.ofNat 7 stop)).word).toNat = stop * 256 + start := by
  rw [Phase.word_eq_ofNat]
  simp only [BitVec.toNat_ofNat]
  omega

/-- Settles O29: the outputs are `exec_mask`'s, and `maskLane_eq` gives each lane. -/
theorem maskResult : Obligations.MaskResult := by
  intro start stop s hstart hstop hcoef
  refine ⟨_, exec_mask start stop hcoef, fun k => ?_, Phase.word_ofNat_toNat hstart hstop⟩
  rw [← maskLane_eq, Fin.getElem_fin, Vector.getElem_ofFn]

/-! ### The coefficient of each lane (R170, R171) -/

section
variable {start stop : Nat} {s t : State} (h : exec (.mask start stop) s = .next t)
include h

theorem exec_mask_data (k : Fin 64) : t.mcoef.data[k] =
    if start ≤ (natToZz k).val ∧ (natToZz k).val < stop then s.coef.data[k] else 0#32 := by
  rw [exec_mask_mcoef _ _ _ _ h, Buffer.full_data_get, maskLane_eq]

theorem exec_mask_kept {k : Fin 64} (hlo : start ≤ (natToZz k).val) (hhi : (natToZz k).val < stop) :
    t.mcoef.data[k] = s.coef.data[k] :=
  (exec_mask_data h k).trans (if_pos ⟨hlo, hhi⟩)

theorem exec_mask_zeroed {k : Fin 64} (hk : ¬ (start ≤ (natToZz k).val ∧ (natToZz k).val < stop)) :
    t.mcoef.data[k] = 0#32 :=
  (exec_mask_data h k).trans (if_neg hk)

end

/-- Settles O30: the lane of rank r is ZZ_TO_NAT[r], and the maps are inverse. -/
theorem maskKeepsTheRanks : Obligations.MaskKeepsTheRanks := by
  intro start stop s t _ hstop h
  refine ⟨fun r hlo hhi => ?_, fun r hr => ?_, card_keptRanks start hstop⟩
  · exact exec_mask_kept h (by rwa [natToZz_zzToNat]) (by rwa [natToZz_zzToNat])
  · exact exec_mask_zeroed h (by rwa [natToZz_zzToNat])

/-! ### Edge cases (R174) -/

theorem exec_mask_full {s t : State} (h : exec (.mask 0 64) s = .next t) (k : Fin 64) :
    t.mcoef.data[k] = s.coef.data[k] :=
  exec_mask_kept h (Nat.zero_le _) (natToZz k).isLt

theorem exec_mask_one_rank {i : Fin 64} {s t : State} (h : exec (.mask i.val (i.val + 1)) s = .next t) :
    t.mcoef.data[zzToNat i] = s.coef.data[zzToNat i] ∧ ∀ k : Fin 64, k ≠ zzToNat i → t.mcoef.data[k] = 0#32 := by
  refine ⟨exec_mask_kept h (by rw [natToZz_zzToNat]) (by rw [natToZz_zzToNat]; omega), fun k hk => ?_⟩
  have hne := natToZz_val_ne hk
  exact exec_mask_zeroed h (by omega)

theorem zzToNat_zero : zzToNat 0 = 0 := by decide

/-- Settles O31: [0,1) is the one rank 0, which is natural index 0. -/
theorem maskEdgeCases : Obligations.MaskEdgeCases := by
  refine fun s t => ⟨exec_mask_full, fun h => ?_, fun i => exec_mask_one_rank, fun a b hba h k => ?_⟩
  · simpa only [zzToNat_zero] using exec_mask_one_rank (i := 0) h
  · exact exec_mask_zeroed h (by omega)

/-! ### One more phase (R175) -/

/-- Settles O32: a rank other than n is below n + 1 just when it is below n. -/
theorem phaseAddsOneCoefficient : Obligations.PhaseAddsOneCoefficient := by
  refine fun n s t t' h h' => ⟨fun k hk => ?_, ?_⟩
  · have hne := natToZz_val_ne hk
    rw [exec_mask_data h, exec_mask_data h']
    exact if_congr (by omega) rfl rfl
  · simpa using card_keptRanks 0 n.isLt.le

/-! ### Masking twice (R176) -/

theorem maskLane_maskLane (start stop : Nat) (cf : Vector Word 64) (k : Fin 64) :
    maskLane start stop (Buffer.full (maskLane start stop cf)).data k = maskLane start stop cf k := by
  rw [maskLane, Buffer.full_data_get]
  by_cases hk : keeps start stop k = true
  · rw [if_pos hk]
  · rw [if_neg hk, maskLane, if_neg hk]

/-- Settles O33: a lane keeps what it kept, and zeroes what it zeroed. -/
theorem maskIsIdempotent : Obligations.MaskIsIdempotent := by
  intro start stop s t u h h'
  constructor
  · rw [exec_mask_mcoef _ _ _ _ h', exec_mask_mcoef _ _ _ _ h]
    exact congrArg Buffer.full (funext (maskLane_maskLane start stop s.coef.data))
  · rintro rfl rfl
    exact Vector.ext fun k hk => exec_mask_full h ⟨k, hk⟩

end Sys2Proof.Machine
end

section
/-! SUPPORT. The statements of spec/43_inverse.md: IDCT's completion (R185 to R193), the fast path against the butterfly
(R194 to R196), the output stage (R198), the width of the datapath (R206), blocks with only a DC coefficient (R201,
R202), and the flat round trip (R207). -/

namespace Sys2Proof.Machine

/-! ### The completion of IDCT (R185, R187, R191, R193, R197) -/

theorem exec_idct (src : CoefSource) {s : State} (hsrc : (sourceBuffer src s).allValid = true)
    (htv : s.status.tv = true) :
    exec (.idct src) s = .next { s with
      pixOut := ⟨inverseOut .equal (inverseRows .equal (sourceBuffer src s).data s.qt), Vector.replicate 64 true⟩,
      w := inverseRows .equal (sourceBuffer src s).data s.qt, pend := .idle,
      status := { s.status with busy := false, done := true } } := by
  simp only [exec, execIdct, hsrc, htv, Bool.and_true, if_true, Buffer.full_of_vector, finish, Config.idctDcRounding]

theorem inverseRow_get (p : Vector Int 8) (j : Fin 8) : (inverseRow .equal p)[j] =
    if ∀ n : Fin 8, n ≠ 0 → p[n] = 0 then (5793 * p[0] + 896) / 1024 else (idctRow p)[j] := by
  split
  case isTrue h =>
    rw [inverseRow_fast _ _ h, Fin.getElem_fin, Vector.getElem_replicate]
    rfl
  case isFalse h => rw [inverseRow_general _ _ h]

theorem inverseCol_get (x : Vector Int 8) (j : Fin 8) : (inverseCol .equal x)[j] =
    if ∀ n : Fin 8, n ≠ 0 → x[n] = 0 then (5793 * x[0] + 14336) / 16384 else (idctCol x)[j] := by
  split
  case isTrue h =>
    rw [inverseCol_fast _ _ h, Fin.getElem_fin, Vector.getElem_replicate]
    rfl
  case isFalse h => rw [inverseCol_general _ _ h]

/-- Settles O34: the statement's blocks are the model's stages, and each pass is one `inverseRow` or `inverseCol`. -/
theorem idctResult : Obligations.IdctResult := by
  intro src s buf hm hc hbuf htv
  obtain rfl : buf = sourceBuffer src s := by
    cases src
    · exact hm rfl
    · exact hc rfl
  refine ⟨dequantize (sourceBuffer src s).data s.qt, inverseRows .equal (sourceBuffer src s).data s.qt,
    mapCols (inverseCol .equal) (inverseRows .equal (sourceBuffer src s).data s.qt), _, exec_idct src hbuf htv,
    fun k => dequantize_get _ _ _ k.isLt, fun i j => ?_, fun c j => ?_, fun k => ?_⟩
  · rw [inverseRows, mapRows_get, inverseRow_get]
    simp only [rowOf_get]
    simp [rowOf]
  · rw [mapCols_get, inverseCol_get]
    simp only [colOf_get]
    simp [colOf]
  · rw [← outStage_toNat]
    exact congrArg (fun b : Byte => (b.toNat : Int)) (inverseOut_get _ _ _ k.isLt)

/-! ### One butterfly for both passes (R188, R190) -/

/-- The butterfly of both passes: `r` and `n` are the rounding constant and the shift of stage 4 and of the stage-3
rotation, and x3 and x5 enter as `v5` and `v6`, as in `butterflyNodes`. -/
def butterfly (x : Vector Int 8) (v5 v6 r : Int) (n : Nat) : Vector Int 8 :=
  let a0 := asr (5793 * x[0] + r) n
  let a1 := asr (5793 * x[4] + r) n
  let a4 := asr (2896 * (x[1] - x[7]) + r) n
  let a7 := asr (2896 * (x[1] + x[7]) + r) n
  idctTail (asr (a0 + a1 + 1) 1) (asr (a0 - a1 + 1) 1)
    (asr (x[2] * 1567 - x[6] * 3784 + r) n) (asr (x[2] * 3784 + x[6] * 1567 + r) n)
    (asr (a4 + v6 + 1) 1) (asr (a7 - v5 + 1) 1) (asr (a4 - v6 + 1) 1) (asr (a7 + v5 + 1) 1)

theorem idctRow_eq_butterfly (p : Vector Int 8) : idctRow p = butterfly p (p[3] * 16) (p[5] * 16) 128 8 := rfl

theorem idctCol_eq_butterfly (x : Vector Int 8) : idctCol x = butterfly x x[3] x[5] 2048 12 := rfl

/-! ### The fast path (R192, R194 to R196) -/

/-- Stages 2 and 1 when only v0 and v1 are left, and equal. -/
theorem idctTail_dc (b : Int) : idctTail b b 0 0 0 0 0 0 = Vector.replicate 8 (asr (b + 1) 1) := by
  have hround : asr 2048 12 = 0 := rfl
  simp only [idctTail, zero_mul, add_zero, sub_zero, zero_add, hround]
  rfl

/-- Without AC elements the butterfly halves the scaled DC element twice (R195). -/
theorem butterfly_dc {x : Vector Int 8} {r : Int} {n : Nat} (hx : ∀ j : Fin 8, j ≠ 0 → x[j] = 0) (hr : 0 ≤ r)
    (hn : r < 2 ^ n) :
    butterfly x 0 0 r n = Vector.replicate 8 (asr (asr (asr (5793 * x[0] + r) n + 1) 1 + 1) 1) := by
  have h1 : x[1] = 0 := hx 1 (by decide)
  have h2 : x[2] = 0 := hx 2 (by decide)
  have h4 : x[4] = 0 := hx 4 (by decide)
  have h6 : x[6] = 0 := hx 6 (by decide)
  have h7 : x[7] = 0 := hx 7 (by decide)
  have hr0 : asr r n = 0 := Int.ediv_eq_zero_of_lt hr hn
  have h10 : asr 1 1 = 0 := rfl
  simp only [butterfly, h1, h2, h4, h6, h7, hr0, h10, mul_zero, zero_mul, add_zero, sub_zero, zero_add, idctTail_dc]

theorem idctRow_dc {p : Vector Int 8} (hp : ∀ j : Fin 8, j ≠ 0 → p[j] = 0) :
    idctRow p = Vector.replicate 8 (rowDc .equal p[0]) := by
  have h3 : p[3] = 0 := hp 3 (by decide)
  have h5 : p[5] = 0 := hp 5 (by decide)
  rw [idctRow_eq_butterfly, h3, h5, zero_mul, butterfly_dc hp (by decide) (by decide)]
  congr 1
  simp only [rowDc, mulR2, asr]
  omega

theorem idctCol_dc {x : Vector Int 8} (hx : ∀ j : Fin 8, j ≠ 0 → x[j] = 0) :
    idctCol x = Vector.replicate 8 (colDc .equal x[0]) := by
  have h3 : x[3] = 0 := hx 3 (by decide)
  have h5 : x[5] = 0 := hx 5 (by decide)
  rw [idctCol_eq_butterfly, h3, h5, butterfly_dc hx (by decide) (by decide)]
  congr 1
  simp only [colDc, mulR2, asr]
  omega

/-- Settles O35: three nested rounding shifts are one shift with the roundings added up. -/
theorem fastPathEqualsButterfly : Obligations.FastPathEqualsButterfly := by
  intro x hx j
  simp only [idctRow_dc hx, idctCol_dc hx, Fin.getElem_fin, Vector.getElem_replicate]
  exact ⟨rfl, rfl, rfl, rfl⟩

theorem inverseRow_eq_idctRow (p : Vector Int 8) : inverseRow .equal p = idctRow p := by
  by_cases h : ∀ n : Fin 8, n ≠ 0 → p[n] = 0
  · rw [inverseRow_fast _ _ h, idctRow_dc h]
  · exact inverseRow_general _ _ h

theorem inverseCol_eq_idctCol (x : Vector Int 8) : inverseCol .equal x = idctCol x := by
  by_cases h : ∀ n : Fin 8, n ≠ 0 → x[n] = 0
  · rw [inverseCol_fast _ _ h, idctCol_dc h]
  · exact inverseCol_general _ _ h

theorem inverseRows_eq (cf : Vector Word 64) (qt : Vector Byte 64) :
    inverseRows .equal cf qt = mapRows idctRow (dequantize cf qt) :=
  mapRows_congr _ _ _ inverseRow_eq_idctRow

theorem mapCols_inverseCol_eq (w : Vector Int 64) : mapCols (inverseCol .equal) w = mapCols idctCol w :=
  mapCols_congr _ _ _ inverseCol_eq_idctCol

/-- Settles O36: detected or not, a row and a column give the butterfly's outputs. -/
theorem fastPathIsUnobservable : Obligations.FastPathIsUnobservable := by
  refine fun cf qt w => ⟨inverseRows_eq cf qt, fun k => ?_⟩
  rw [← mapCols_inverseCol_eq]
  exact inverseOut_get _ _ _ k.isLt

/-- Settles O37: the two roundings differ by 384 of 1024 in the row form and by 6144 of 16384 in the column form. -/
theorem referenceRoundingDiffersByOne : Obligations.ReferenceRoundingDiffersByOne := by
  refine ⟨fun a => ?_, fun a => ?_, rfl, rfl, rfl, rfl⟩
  · simp only [rowDc, mulR2, asr]
    generalize 5793 * a = m
    split_ifs <;> omega
  · simp only [colDc, mulR2, asr]
    generalize 5793 * a = m
    omega

/-! ### The output stage (R198) -/

/-- A byte of the output stage by its number. -/
theorem outStage_eq_of_clampInt {y : Int} {b : Byte} (h : clampInt (128 + (y + 8) / 16) 0 255 = b.toNat) :
    outStage y = b := by
  rw [← outStage_toNat] at h
  exact BitVec.eq_of_toNat_eq (Int.ofNat.inj h)

theorem outStage_low {y : Int} (h : y ≤ -2041) : outStage y = 0#8 := by
  refine outStage_eq_of_clampInt (le_antisymm ?_ (clampInt_low _ _ _ (by decide)))
  exact (clampInt_mono _ 0 _ _ (by decide) (by omega)).trans_eq (by decide)

theorem outStage_high {y : Int} (h : 2024 ≤ y) : outStage y = 255#8 := by
  refine outStage_eq_of_clampInt (le_antisymm (clampInt_high _ _ _ (by decide)) ?_)
  exact (by decide : _ = clampInt 255 0 255).trans_le (clampInt_mono 255 _ _ _ (by decide) (by omega))

/-- A value within rounding distance of 16·n gives n, level-shifted back. -/
theorem outStage_of_near {y : Int} {b : Byte} (hlo : 16 * ((b.toNat : Int) - 128) - 8 ≤ y)
    (hhi : y ≤ 16 * ((b.toNat : Int) - 128) + 7) : outStage y = b := by
  have := b.isLt
  refine outStage_eq_of_clampInt ?_
  rw [show 128 + (y + 8) / 16 = (b.toNat : Int) by omega]
  exact clampInt_of_mem _ _ _ (by omega) (by omega)

/-- Settles O41: below and above the two outer thresholds the clamp acts, and between them the value is rounded. -/
theorem outputStageThresholds : Obligations.OutputStageThresholds := by
  refine fun y => ⟨outStage_low, ?_, fun hlo hhi => outStage_of_near (by simpa) (by simpa), ?_,
    outStage_high⟩
  · rintro rfl
    decide
  · rintro rfl
    decide

/-! ### The width of the datapath (R206) -/

theorem exists_tailNodes_eq (v0 v1 v2 v3 v4 v5 v6 v7 : Int) :
    ∃ rest, tailNodes v0 v1 v2 v3 v4 v5 v6 v7 = rest ++ (idctTail v0 v1 v2 v3 v4 v5 v6 v7).toList := ⟨_, rfl⟩

theorem exists_butterflyNodes_eq (x : Vector Int 8) (v5 v6 r : Int) (n : Nat) :
    ∃ rest, butterflyNodes x v5 v6 r n = rest ++ (butterfly x v5 v6 r n).toList := by
  simp only [butterflyNodes, butterfly]
  obtain ⟨rest, h⟩ := exists_tailNodes_eq _ _ _ _ _ _ _ _
  exact ⟨_, (congrArg _ h).trans (List.append_assoc _ _ _).symm⟩

theorem halving_bound {a b A B C : Int} (ha : |a| ≤ A) (hb : |b| ≤ B) (h : A + B + 1 ≤ 2 * C) :
    |asr (a + b + 1) 1| ≤ C ∧ |asr (a - b + 1) 1| ≤ C := by
  rw [abs_le] at ha hb
  exact ⟨asr_bound _ _ _ (abs_le.2 ⟨by omega, by omega⟩), asr_bound _ _ _ (abs_le.2 ⟨by omega, by omega⟩)⟩

/-- A rotation of stage 2 at most doubles its inputs, because its multipliers add up to less than 2. -/
theorem rotation_bound {a b p q O : Int} (ha : |a| ≤ O) (hb : |b| ≤ O) (hp : 0 ≤ p) (hq : 0 ≤ q)
    (hpq : p + q ≤ 2 * 2 ^ 12) :
    |asr (a * p + b * q + 2048) 12| ≤ 2 * O + 1 ∧ |asr (a * q - b * p + 2048) 12| ≤ 2 * O + 1 := by
  have hO : 0 ≤ O := (abs_nonneg a).trans ha
  have hsum : O * (p + q) + 2048 ≤ (2 * O + 1) * 2 ^ 12 := by nlinarith
  have hnodes := rotationNodes_bound a b p q 2048 O O (O * (p + q) + 2048) 12 ha hb hp hq (by decide) (by linarith)
    (by linarith)
  exact ⟨asr_bound _ _ _ ((hnodes _ (by simp [rotationNodes])).trans hsum),
    asr_bound _ _ _ ((hnodes _ (by simp [rotationNodes])).trans hsum)⟩

/-- The outputs of stages 2 and 1: half a sum of two even inputs, and a rotation of the odd ones. -/
theorem idctTail_bound {v0 v1 v2 v3 v4 v5 v6 v7 E O C : Int} (h0 : |v0| ≤ E) (h1 : |v1| ≤ E) (h2 : |v2| ≤ E)
    (h3 : |v3| ≤ E) (h4 : |v4| ≤ O) (h5 : |v5| ≤ O) (h6 : |v6| ≤ O) (h7 : |v7| ≤ O) (hC : E + 2 * O + 2 ≤ C) :
    ∀ j : Fin 8, |(idctTail v0 v1 v2 v3 v4 v5 v6 v7)[j]| ≤ C := by
  obtain ⟨w0, w3⟩ := halving_bound (C := E + 1) h0 h3 (by omega)
  obtain ⟨w1, w2⟩ := halving_bound (C := E + 1) h1 h2 (by omega)
  obtain ⟨w7, w4⟩ := rotation_bound (p := mulS3) (q := mulC3) h4 h7 (by decide) (by decide) (by decide)
  obtain ⟨w6, w5⟩ := rotation_bound (p := mulS1) (q := mulC1) h5 h6 (by decide) (by decide) (by decide)
  have add {a b : Int} (ha : |a| ≤ E + 1) (hb : |b| ≤ 2 * O + 1) : |a + b| ≤ C := (abs_add_le a b).trans (by omega)
  have sub {a b : Int} (ha : |a| ≤ E + 1) (hb : |b| ≤ 2 * O + 1) : |a - b| ≤ C := (abs_sub a b).trans (by omega)
  exact forall_getElem_of_eight (P := fun _ y => |y| ≤ C) (add w0 w7) (add w1 w6) (add w2 w5) (add w3 w4)
    (sub w3 w4) (sub w2 w5) (sub w1 w6) (sub w0 w7)

/-- The outputs of a butterfly, from a bound `X` on the inputs, `S` on the stage-4 values, and `V` on v5 and v6. -/
theorem butterfly_bound {x : Vector Int 8} {v5 v6 r X V S C : Int} {n : Nat} (hx : ∀ j : Fin 8, |x[j]| ≤ X)
    (h5 : |v5| ≤ V) (h6 : |v6| ≤ V) (hr : 0 ≤ r) (hS : 5793 * X + r ≤ S * 2 ^ n) (hC : 2 * S + V + 6 ≤ C) :
    ∀ j : Fin 8, |(butterfly x v5 v6 r n)[j]| ≤ C := by
  have stage4 {a : Int} (ha : |a| ≤ 5793 * X + r) : |asr a n| ≤ S := asr_bound _ _ _ (ha.trans hS)
  have hx0 : |x[0]| ≤ X := hx 0
  have hx1 : |x[1]| ≤ X := hx 1
  have hx2 : |x[2]| ≤ X := hx 2
  have hx4 : |x[4]| ≤ X := hx 4
  have hx6 : |x[6]| ≤ X := hx 6
  have hx7 : |x[7]| ≤ X := hx 7
  have a0 : |asr (5793 * x[0] + r) n| ≤ S := stage4 (by rw [abs_le] at *; omega)
  have a1 : |asr (5793 * x[4] + r) n| ≤ S := stage4 (by rw [abs_le] at *; omega)
  have a4 : |asr (2896 * (x[1] - x[7]) + r) n| ≤ S := stage4 (by rw [abs_le] at *; omega)
  have a7 : |asr (2896 * (x[1] + x[7]) + r) n| ≤ S := stage4 (by rw [abs_le] at *; omega)
  have c2 : |asr (x[2] * 1567 - x[6] * 3784 + r) n| ≤ S := stage4 (by rw [abs_le] at *; omega)
  have c3 : |asr (x[2] * 3784 + x[6] * 1567 + r) n| ≤ S := stage4 (by rw [abs_le] at *; omega)
  have hE : S ≤ S + 1 := by omega
  obtain ⟨b0, b1⟩ := halving_bound (C := S + 1) a0 a1 (by omega)
  obtain ⟨b4, b6⟩ := halving_bound (C := (S + V) / 2 + 1) a4 h6 (by omega)
  obtain ⟨b7, b5⟩ := halving_bound (C := (S + V) / 2 + 1) a7 h5 (by omega)
  exact idctTail_bound b0 b1 (c2.trans hE) (c3.trans hE) b4 b5 b6 b7 (by omega)

/-- A dequantized coefficient: 32 signed bits times 8 unsigned bits. -/
theorem dequantize_bound (cf : Vector Word 64) (qt : Vector Byte 64) (k : Fin 64) :
    |(dequantize cf qt)[k]| ≤ 255 * 2 ^ 31 := by
  have hlo := cf[k].le_toInt
  have hhi := cf[k].toInt_lt
  have hc : |cf[k].toInt| ≤ 2 ^ 31 := abs_le.2 ⟨hlo, hhi.le⟩
  have hq : ((qt[k].toNat : Nat) : Int) ≤ 255 := by have := qt[k].isLt; omega
  calc |(dequantize cf qt)[k]| = |cf[k].toInt| * (qt[k].toNat : Int) := by
        rw [Fin.getElem_fin, dequantize_get, abs_mul, Nat.abs_cast]
        rfl
    _ ≤ 2 ^ 31 * 255 := mul_le_mul hc hq (Int.natCast_nonneg _) (by decide)
    _ = 255 * 2 ^ 31 := mul_comm _ _

theorem abs_mul_sixteen_le {a X : Int} (h : |a| ≤ X) : |a * 16| ≤ 16 * X := by
  rw [abs_le] at *
  omega

section
variable {p : Vector Int 8} (hp : ∀ j : Fin 8, |p[j]| ≤ 255 * 2 ^ 31)
include hp

theorem rowNodes_bound : ∀ n ∈ rowNodes p, |n| ≤ 2 ^ 56 - 1 := by
  rw [rowNodes, List.forall_mem_append]
  exact ⟨scalingNodes_bound _ _ _ _ _ _ (hp 0) (by decide) (by decide) (by decide),
    butterflyNodes_bound p _ _ _ (255 * 2 ^ 31) (16 * (255 * 2 ^ 31)) (5771 * 2 ^ 31) (5771 * 2 ^ 31 + 1) _ _ hp
      (abs_mul_sixteen_le (hp 3)) (abs_mul_sixteen_le (hp 5))
      (by decide) (by decide) (by decide) (by decide) (by decide) (by decide) (by decide)⟩

theorem idctRow_bound (j : Fin 8) : |(idctRow p)[j]| ≤ 2 ^ 45 - 1 := by
  rw [idctRow_eq_butterfly]
  exact butterfly_bound (S := 5771 * 2 ^ 31) hp (abs_mul_sixteen_le (hp 3)) (abs_mul_sixteen_le (hp 5)) (by decide)
    (by decide) (by decide) j

end

section
variable {x : Vector Int 8} (hx : ∀ j : Fin 8, |x[j]| ≤ 2 ^ 45 - 1)
include hx

theorem colNodes_bound : ∀ n ∈ colNodes x, |n| ≤ 2 ^ 58 - 1 := by
  rw [colNodes, List.forall_mem_append]
  exact ⟨scalingNodes_bound _ _ _ _ _ _ (hx 0) (by decide) (by decide) (by decide),
    butterflyNodes_bound x _ _ _ (2 ^ 45 - 1) (2 ^ 45 - 1) (5793 * 2 ^ 33) (5793 * 2 ^ 33 + 1) _ _ hx (hx 3) (hx 5)
      (by decide) (by decide) (by decide) (by decide) (by decide) (by decide) (by decide)⟩

theorem idctCol_bound (j : Fin 8) : |(idctCol x)[j]| ≤ 2 ^ 47 - 1 := by
  rw [idctCol_eq_butterfly]
  exact butterfly_bound (S := 5793 * 2 ^ 33) hx (hx 3) (hx 5) (by decide) (by decide) (by decide) j

end

theorem rowOf_dequantize_bound (cf : Vector Word 64) (qt : Vector Byte 64) (i j : Fin 8) :
    |(rowOf (dequantize cf qt) i)[j]| ≤ 255 * 2 ^ 31 := by
  rw [rowOf_get]
  exact dequantize_bound cf qt ⟨8 * i.val + j.val, by omega⟩

theorem inverseRows_bound (cf : Vector Word 64) (qt : Vector Byte 64) (i j : Fin 8) :
    |(inverseRows .equal cf qt)[8 * i.val + j.val]| ≤ 2 ^ 45 - 1 := by
  simp only [inverseRows_eq, mapRows_get]
  exact idctRow_bound (rowOf_dequantize_bound cf qt i) j

theorem colOf_inverseRows_bound (cf : Vector Word 64) (qt : Vector Byte 64) (c j : Fin 8) :
    |(colOf (inverseRows .equal cf qt) c)[j]| ≤ 2 ^ 45 - 1 := by
  rw [colOf_get]
  exact inverseRows_bound cf qt j c

theorem inverseCols_bound (cf : Vector Word 64) (qt : Vector Byte 64) (c j : Fin 8) :
    |(mapCols (inverseCol .equal) (inverseRows .equal cf qt))[8 * j.val + c.val]| ≤ 2 ^ 47 - 1 := by
  simp only [mapCols_inverseCol_eq, mapCols_get]
  exact idctCol_bound (colOf_inverseRows_bound cf qt c) j

theorem toInt_ofInt_of_abs_le {n : Int} (h : |n| ≤ 2 ^ 58 - 1) : (BitVec.ofInt 64 n).toInt = n := by
  rw [abs_le] at h
  exact BitVec.toInt_ofInt_eq_self (by decide) (by omega) (by omega)

/-- Settles O38: interval bounds through the node lists, whose last eight entries are the butterfly's outputs. -/
theorem inverseDatapathFitsIn64Bits : Obligations.InverseDatapathFitsIn64Bits := by
  refine ⟨fun cf qt k => ?_, fun cf qt i => ⟨fun n hn => ?_, fun n hn => ?_⟩, fun x => ⟨?_, ?_⟩⟩
  · obtain ⟨i, j, hk⟩ := index_split k
    have hp := dequantize_bound cf qt k
    have hw := inverseRows_bound cf qt i j
    have hy := inverseCols_bound cf qt j i
    simp only [Fin.getElem_fin, hk] at hp ⊢
    exact ⟨hp.trans_lt (by decide), Int.lt_of_le_sub_one hw, Int.lt_of_le_sub_one hy⟩
  · have h := rowNodes_bound (rowOf_dequantize_bound cf qt i) n hn
    exact ⟨Int.lt_of_le_sub_one h, toInt_ofInt_of_abs_le (h.trans (by decide))⟩
  · have h := colNodes_bound (colOf_inverseRows_bound cf qt i) n hn
    exact ⟨Int.lt_of_le_sub_one h, toInt_ofInt_of_abs_le h⟩
  · obtain ⟨rest, h⟩ := exists_butterflyNodes_eq x (x[3] * 16) (x[5] * 16) 128 8
    refine ⟨scalingNodes 5793 x[0] 896 10 ++ rest, ?_, ?_⟩
    · rw [rowNodes, h, idctRow_eq_butterfly, List.append_assoc]
    · simp [scalingNodes, rowDc, mulR2]
  · obtain ⟨rest, h⟩ := exists_butterflyNodes_eq x x[3] x[5] 2048 12
    refine ⟨scalingNodes 5793 x[0] 14336 14 ++ rest, ?_, ?_⟩
    · rw [colNodes, h, idctCol_eq_butterfly, List.append_assoc]
    · simp [scalingNodes, colDc, mulR2]

/-! ### Blocks with only a DC coefficient (R201, R202) -/

section
variable {cf : Vector Word 64} (hcf : ∀ k : Fin 64, k ≠ 0 → cf[k] = 0#32)
include hcf

theorem dequantize_dcOnly (qt : Vector Byte 64) (k : Fin 64) :
    (dequantize cf qt)[k] = if k = 0 then cf[0].toInt * (qt[0].toNat : Int) else 0 := by
  rw [Fin.getElem_fin, dequantize_get]
  split
  case isTrue hk =>
    subst hk
    rfl
  case isFalse hk =>
    have h0 : cf[k.val] = 0#32 := hcf k hk
    rw [h0, BitVec.toInt_zero, zero_mul]

/-- Row 0 of W holds the row pass's DC value, and the other rows are 0. -/
theorem inverseRows_dcOnly (qt : Vector Byte 64) (i j : Fin 8) : (inverseRows .equal cf qt)[8 * i.val + j.val] =
    if i = 0 then rowDc .equal (cf[0].toInt * (qt[0].toNat : Int)) else 0 := by
  have hrow (n : Fin 8) : (rowOf (dequantize cf qt) i)[n] =
      if (⟨8 * i.val + n.val, by omega⟩ : Fin 64) = 0 then cf[0].toInt * (qt[0].toNat : Int) else 0 := by
    rw [rowOf_get]
    exact dequantize_dcOnly hcf qt ⟨8 * i.val + n.val, by omega⟩
  have hac (n : Fin 8) (hn : n ≠ 0) : (rowOf (dequantize cf qt) i)[n] = 0 := by
    rw [hrow, if_neg]
    have hpos : n.val ≠ 0 := Fin.val_ne_of_ne hn
    rw [Fin.ext_iff]
    show ¬ 8 * i.val + n.val = 0
    omega
  have hdc : (rowOf (dequantize cf qt) i)[0] = if i = 0 then cf[0].toInt * (qt[0].toNat : Int) else 0 := by
    refine (hrow 0).trans (if_congr ?_ rfl rfl)
    rw [Fin.ext_iff, Fin.ext_iff]
    show 8 * i.val + 0 = 0 ↔ i.val = 0
    omega
  rw [inverseRows, mapRows_get, inverseRow_fast _ _ hac, Fin.getElem_fin, Vector.getElem_replicate, hdc,
    apply_ite (rowDc .equal)]
  rfl

theorem inverseOut_dcOnly (qt : Vector Byte 64) (k : Fin 64) : (inverseOut .equal (inverseRows .equal cf qt))[k] =
    outStage (colDc .equal (rowDc .equal (cf[0].toInt * (qt[0].toNat : Int)))) := by
  obtain ⟨j, c, hk⟩ := index_split k
  have hcol (n : Fin 8) : (colOf (inverseRows .equal cf qt) c)[n] =
      if n = 0 then rowDc .equal (cf[0].toInt * (qt[0].toNat : Int)) else 0 := by
    rw [colOf_get, inverseRows_dcOnly hcf]
  simp only [Fin.getElem_fin, inverseOut_get, hk, mapCols_get]
  rw [inverseCol_fast _ _ fun n hn => (hcol n).trans (if_neg hn), Vector.getElem_replicate]
  exact congrArg (fun a => outStage (colDc .equal a)) (hcol 0)

end

theorem ready_idct (src : CoefSource) (s : State) :
    ready (.idct src) s = ((sourceBuffer src s).allValid && s.status.tv) := by
  cases src <;> rfl

/-- Settles O39: every row and every column takes the fast path. -/
theorem dcOnlyBlockIsUniform : Obligations.DcOnlyBlockIsUniform := by
  intro src s hready hdc
  rw [ready_idct, Bool.and_eq_true] at hready
  exact ⟨_, exec_idct src hready.1 hready.2, inverseOut_dcOnly hdc s.qt⟩

theorem one_le_toNat {step : Byte} (h : step ≠ 0#8) : 1 ≤ step.toNat :=
  Nat.one_le_iff_ne_zero.2 fun h0 => h (BitVec.eq_of_toNat_eq h0)

/-- Settles O40: the two DC values are linear bounds, beyond the output stage's thresholds for every step size. -/
theorem largeDcIsClamped : Obligations.LargeDcIsClamped := by
  refine ⟨fun step hlo _ => ?_, fun src s hready hq hdc => ?_⟩
  · simp only [rowDc, colDc, mulR2, asr]
    omega
  · obtain ⟨t, ht, hout⟩ := dcOnlyBlockIsUniform src s hready hdc
    have hstep := one_le_toNat hq
    refine ⟨t, ht, fun hc k => ?_, fun hc k => ?_⟩
    · rw [hout, hc]
      refine outStage_high ?_
      simp only [rowDc, colDc, mulR2, asr]
      omega
    · rw [hout, hc]
      refine outStage_low ?_
      simp only [rowDc, colDc, mulR2, asr]
      omega

/-! ### Rounding errors of the forward path (R207)

Every multiple of 2^-40 below 2^13 in magnitude has a pattern, so an operation whose exact result is in that range errs
by at most 2^-40. That is far less than a quantized DC value needs. -/

/-- Every multiple of a power of two by an integer below 2^53 has a pattern, shifted up to a full significand. -/
theorem exists_fValue_eq_intCast_mul_zpow {n e : Int} (hn : n.natAbs < 2 ^ 53) (hlo : -1022 ≤ e) (hhi : e ≤ 971) :
    ∃ z : F64, fIsFinite z = true ∧ fValue z = n * 2 ^ e := by
  by_cases h0 : n = 0
  · subst h0
    exact ⟨fZero false, (fZero_value false).2, by simp [(fZero_value false).1]⟩
  · have hpos : n.natAbs ≠ 0 := by omega
    obtain ⟨k, hk⟩ : ∃ k, n.natAbs.log2 + k = 52 :=
      ⟨52 - n.natAbs.log2, by have := (Nat.log2_lt hpos).2 hn; omega⟩
    have hmant : 2 ^ 52 ≤ n.natAbs * 2 ^ k := by
      rw [← hk, pow_add]
      exact Nat.mul_le_mul_right _ (Nat.log2_self_le hpos)
    have hmant' : n.natAbs * 2 ^ k < 2 ^ 53 := by
      rw [show 53 = n.natAbs.log2 + 1 + k by omega, pow_add]
      exact Nat.mul_lt_mul_of_pos_right Nat.lt_log2_self (by positivity)
    obtain ⟨E, hE⟩ : ∃ E : Nat, (E : Int) = 1074 + e - k := ⟨(1074 + e - k).toNat, by omega⟩
    obtain ⟨hfin, -, -, hval⟩ := fValue_fPack (decide (n < 0)) E (n.natAbs * 2 ^ k) hmant'.le (.inr hmant) (by omega)
    refine ⟨_, hfin, ?_⟩
    have hmag : ((n.natAbs * 2 ^ k : Nat) : ℚ) * 2 ^ ((E : Int) - 1074) = n.natAbs * 2 ^ e := by
      rw [show (E : Int) - 1074 = e - k by omega, zpow_sub₀ two_ne_zero, zpow_natCast]
      push_cast
      field_simp
    rw [hval, hmag, ← mul_assoc, sign_mul_natAbs]

/-- The value of `x` is `v` but for an error of at most 2^-40. -/
structure Approx (x : F64) (v : ℚ) : Prop where
  finite : fIsFinite x = true
  error : |fValue x - v| ≤ 2 ^ (-40 : Int)

theorem Approx.of_correctlyRounded {r : F64} {v : ℚ} (h : CorrectlyRounded r v) (hv : |v| ≤ 2 ^ 12) : Approx r v := by
  obtain ⟨hlo, hhi⟩ := abs_le.1 hv
  obtain ⟨g, hg, hg'⟩ : ∃ g : Int, g ≤ v * 2 ^ 40 ∧ v * 2 ^ 40 < g + 1 := ⟨_, Int.floor_le _, Int.lt_floor_add_one _⟩
  have hglo : -2 ^ 52 - 1 < g := by
    have : (-2 ^ 52 - 1 : ℚ) < g := by linarith
    exact_mod_cast this
  have hghi : g ≤ 2 ^ 52 := by
    have : (g : ℚ) ≤ 2 ^ 52 := by linarith
    exact_mod_cast this
  obtain ⟨z, hz, hzv⟩ := exists_fValue_eq_intCast_mul_zpow (n := g) (e := -40) (by omega) (by decide) (by decide)
  have hnear : |fValue z - v| ≤ 2 ^ (-40 : Int) := by
    rw [hzv, abs_le, show (2 : ℚ) ^ (-40 : Int) = 1 / 2 ^ 40 by norm_num]
    constructor <;> linarith
  have hthr : |v| < 2 ^ 1024 - 2 ^ 970 := by
    refine hv.trans_lt (lt_of_lt_of_le ?_ threshold_ge)
    rw [← zpow_add₀ two_ne_zero, ← zpow_natCast]
    exact zpow_lt_zpow_right₀ one_lt_two (by decide)
  rw [CorrectlyRounded, if_pos hthr] at h
  exact ⟨h.1, (h.2 z hz).1.trans hnear⟩

theorem Approx.abs_fValue_le {x : F64} {v : ℚ} (h : Approx x v) : |fValue x| ≤ |v| + 1 / 16 := by
  have hunit : (2 : ℚ) ^ (-40 : Int) ≤ 1 / 16 := by norm_num
  linarith [(abs_sub_abs_le_abs_sub (fValue x) v).trans (h.error.trans hunit)]

/-! ### A quantized DC value (R147, R148, R150) -/

theorem HasValue.mul {x y : F64} {m n : Int} (hx : HasValue x m) (hy : HasValue y n) (h : (m * n).natAbs < 2 ^ 53) :
    HasValue (fMul x y) (m * n) := by
  have hr := correctlyRounded_fMul x y hx.finite hy.finite
  rw [hx.value, hy.value, ← Int.cast_mul] at hr
  exact .of_correctlyRounded hr h

theorem hasValue_fOne : HasValue fOne 1 :=
  show HasValue (fOfInt 1) 1 from hasValue_fOfInt (by decide)

theorem hasValue_fEight : HasValue fEight 8 :=
  show HasValue (fOfInt 8) 8 from hasValue_fOfInt (by decide)

/-- The DC entry of the forward table is 1/8 of the inverse step size, rounded (R123). -/
theorem approx_forwardEntry_dc {step : Byte} (h : step ≠ 0#8) :
    Approx (forwardEntry step 0 0) (1 / (8 * step.toNat)) := by
  have hlt := step.isLt
  have hpos := one_le_toNat h
  have haan : aan 0 = fOne := by decide
  have hden : HasValue (fMul (fMul (fMul (fOfInt step.toNat) fOne) fOne) fEight) (step.toNat * 1 * 1 * 8) :=
    (((hasValue_fOfInt (by omega)).mul hasValue_fOne (by omega)).mul hasValue_fOne (by omega)).mul hasValue_fEight
      (by omega)
  have hdiv := correctlyRounded_fDiv _ _ hasValue_fOne.finite hden.finite (by rw [hden.value]; positivity)
  rw [hasValue_fOne.value, hden.value] at hdiv
  push_cast at hdiv
  rw [mul_one, mul_one, mul_comm] at hdiv
  rw [forwardEntry, haan]
  refine .of_correctlyRounded hdiv ?_
  have hq : (1 : ℚ) ≤ step.toNat := by exact_mod_cast hpos
  rw [abs_of_pos (by positivity), div_le_iff₀ (by positivity)]
  linarith

theorem fValue_nonneg_of_fPos {x : F64} (h : fPos x = true) : 0 ≤ fValue x := by
  simp only [fPos, Bool.and_eq_true, Bool.not_eq_true'] at h
  rw [fValue_sign, h.1.1, if_neg Bool.false_ne_true, one_mul]
  exact abs_nonneg _

theorem fValue_nonpos_of_not_fPos {x : F64} (hx : fIsFinite x = true) (h : ¬ fPos x = true) : fValue x ≤ 0 := by
  by_contra hpos
  have hne : fValue x ≠ 0 := (not_le.1 hpos).ne'
  refine h ?_
  rw [fPos, fSign_of_ne_zero hne, (fIsZero_of_value x hne).1, (isFinite_not x hx).1, decide_eq_false (by linarith)]
  rfl

/-- Rounding away from 0 errs by half a unit, and by the error of the added half. -/
theorem roundHalfAway_error {x : F64} (hx : fIsFinite x = true) (hle : |fValue x| ≤ 2 ^ 11) :
    |(roundHalfAway x : ℚ) - fValue x| ≤ 1 / 2 + 2 ^ (-40 : Int) := by
  obtain ⟨hlo, hhi⟩ := abs_le.1 hle
  have hunit : (2 : ℚ) ^ (-40 : Int) ≤ 1 / 2 := by norm_num
  obtain ⟨hadd, hsub⟩ := additionIsCorrectlyRounded x fHalf hx (by decide)
  rw [fValue_fHalf] at hadd hsub
  unfold roundHalfAway
  split
  case isTrue h =>
    have h0 := fValue_nonneg_of_fPos h
    obtain ⟨hfin, herr⟩ := Approx.of_correctlyRounded hadd (abs_le.2 ⟨by linarith, by linarith⟩)
    rw [abs_le] at herr
    rw [(fTrunc_toward_zero _ hfin).1 (by linarith), abs_le]
    have hfloor := Int.floor_le (fValue (fAdd x fHalf))
    have hfloor' := Int.lt_floor_add_one (fValue (fAdd x fHalf))
    constructor <;> linarith
  case isFalse h =>
    have h0 := fValue_nonpos_of_not_fPos hx h
    obtain ⟨hfin, herr⟩ := Approx.of_correctlyRounded hsub (abs_le.2 ⟨by linarith, by linarith⟩)
    rw [abs_le] at herr
    rw [(fTrunc_toward_zero _ hfin).2 (by linarith), abs_le]
    have hceil := Int.le_ceil (fValue (fSub x fHalf))
    have hceil' := Int.ceil_lt_add_one (fValue (fSub x fHalf))
    constructor <;> linarith

/-- The exact quotient, the error of the table entry, of the product and of the final rounding, multiplied by the step
size. -/
theorem abs_mul_sub_le_of_errors {c x n f s δ : ℚ} (hs : 1 ≤ s) (hs' : s ≤ 255) (hn : |n| ≤ 128)
    (hf : |f - 1 / (8 * s)| ≤ δ) (hx : |x - 64 * n * f| ≤ δ) (hc : |c - x| ≤ 1 / 2 + δ) :
    |c * s - 8 * n| ≤ s / 2 + 2 ^ 22 * δ := by
  have hδ : 0 ≤ δ := (abs_nonneg _).trans hf
  have hs0 : |s| = s := abs_of_pos (by linarith)
  have hsplit : c * s - 8 * n = (c - x) * s + (x - 64 * n * f) * s + 64 * (n * (f - 1 / (8 * s))) * s := by
    field_simp
    ring
  have h1 : |(c - x) * s| ≤ (1 / 2 + δ) * s := by
    rw [abs_mul, hs0]
    gcongr
  have h2 : |(x - 64 * n * f) * s| ≤ δ * s := by
    rw [abs_mul, hs0]
    gcongr
  have h3 : |64 * (n * (f - 1 / (8 * s))) * s| ≤ 64 * (128 * δ) * s := by
    rw [abs_mul, abs_mul, abs_mul n, hs0, abs_of_pos (by norm_num : (0 : ℚ) < 64)]
    gcongr
  calc |c * s - 8 * n| ≤ (1 / 2 + δ) * s + δ * s + 64 * (128 * δ) * s := by
        rw [hsplit]
        exact (abs_add_le _ _).trans (add_le_add ((abs_add_le _ _).trans (add_le_add h1 h2)) h3)
    _ = s / 2 + 8194 * δ * s := by ring
    _ ≤ s / 2 + 8194 * δ * 255 := by gcongr
    _ ≤ s / 2 + 2 ^ 22 * δ := by linarith

/-- The product that is quantized: one more rounding, of a value well inside the range of `roundHalfAway_error`. -/
theorem approx_dcProduct {step : Byte} {n : Int} (h : step ≠ 0#8) (hn : |n| ≤ 128) :
    Approx (fMul (fOfInt (64 * n)) (forwardEntry step 0 0)) (64 * n * fValue (forwardEntry step 0 0)) ∧
      |fValue (fMul (fOfInt (64 * n)) (forwardEntry step 0 0))| ≤ 2 ^ 11 := by
  have hs : (1 : ℚ) ≤ step.toNat := by exact_mod_cast one_le_toNat h
  have hnq : |(n : ℚ)| ≤ 128 := by exact_mod_cast hn
  have hf := approx_forwardEntry_dc h
  have hd := hasValue_fOfInt (n := 64 * n) (by rw [abs_le] at hn; omega)
  have hprod := correctlyRounded_fMul _ _ hd.finite hf.finite
  rw [hd.value, Int.cast_mul, Int.cast_ofNat] at hprod
  have hentry : |fValue (forwardEntry step 0 0)| ≤ 3 / 16 := by
    have hinv : |1 / (8 * step.toNat : ℚ)| ≤ 1 / 8 := by
      rw [abs_of_nonneg (by positivity), div_le_div_iff₀ (by linarith) (by norm_num)]
      linarith
    linarith [hf.abs_fValue_le]
  have hv : |64 * (n : ℚ) * fValue (forwardEntry step 0 0)| ≤ 1536 :=
    calc |64 * (n : ℚ) * fValue (forwardEntry step 0 0)| = 64 * |(n : ℚ)| * |fValue (forwardEntry step 0 0)| := by
          rw [abs_mul, abs_mul, abs_of_pos (by norm_num : (0 : ℚ) < 64)]
      _ ≤ 64 * 128 * (3 / 16) := by gcongr
      _ = 1536 := by norm_num
  have happrox := Approx.of_correctlyRounded hprod (by linarith)
  exact ⟨happrox, by linarith [happrox.abs_fValue_le]⟩

/-- The quantized DC value of a flat block of sample `n`: within rounding distance of 8·n / step, though the table
entry and the product are rounded too (R150). -/
theorem quantizedDc_error {step : Byte} {n : Int} (h : step ≠ 0#8) (hn : |n| ≤ 128) :
    |2 * (roundHalfAway (fMul (fOfInt (64 * n)) (forwardEntry step 0 0)) * step.toNat - 8 * n)| ≤ step.toNat := by
  have hs : (1 : ℚ) ≤ step.toNat := by exact_mod_cast one_le_toNat h
  have hs' : (step.toNat : ℚ) ≤ 255 := by exact_mod_cast Nat.le_of_lt_succ step.isLt
  have hnq : |(n : ℚ)| ≤ 128 := by exact_mod_cast hn
  obtain ⟨hx, hle⟩ := approx_dcProduct h hn
  have htotal := abs_mul_sub_le_of_errors hs hs' hnq (approx_forwardEntry_dc h).error hx.error
    (roundHalfAway_error hx.finite hle)
  have hlt : |2 * ((roundHalfAway (fMul (fOfInt (64 * n)) (forwardEntry step 0 0)) : ℚ) * step.toNat - 8 * n)| <
      step.toNat + 1 := by
    have hunit : 2 ^ 22 * (2 : ℚ) ^ (-40 : Int) < 1 / 2 := by norm_num
    rw [abs_mul, abs_two]
    linarith
  exact Int.lt_add_one_iff.1 (by exact_mod_cast hlt)

/-! ### The flat round trip (R207) -/

/-- The sample that comes back, from the quantized DC value `c`. -/
def reconstructedDc (c : Int) (step : Byte) : Byte := outStage (colDc .equal (rowDc .equal (c * step.toNat)))

/-- What FDCT quantizes the DC value of a flat block of raw pixels `v` to. -/
def flatDc (v step : Byte) : Int :=
  roundHalfAway (fMul (fOfInt (64 * levelShift v .raw)) (forwardEntry step 0 0))

theorem TablesBuilt.step_dc {s : State} (h : TablesBuilt s) :
    s.qt[(0 : Fin 64)] = stepSize 16 (scaleFactor s.quality.toNat) := by
  rw [h.inverseTable]
  exact buildQt_get _ 0 (by decide)

theorem TablesBuilt.step_dc_ne_zero {s : State} (h : TablesBuilt s) : s.qt[(0 : Fin 64)] ≠ 0#8 := by
  rw [h.step_dc]
  intro h0
  have := (stepSize_bounds 16 (scaleFactor s.quality.toNat)).1
  rw [h0] at this
  exact absurd this (by decide)

/-- The qualities of R207 are those whose DC step size is at most 8. -/
theorem TablesBuilt.step_dc_le_eight_iff {s : State} (h : TablesBuilt s) :
    s.qt[(0 : Fin 64)].toNat ≤ 8 ↔ 74 ≤ s.quality.toNat := by
  have hstep := stepSize_toNat 16 (scaleFactor s.quality.toNat)
  rw [← h.step_dc, clampInt] at hstep
  by_cases hq : s.quality.toNat < 50
  · have hsf := scaleFactor_low_ge h.qualityLow hq
    split_ifs at hstep <;> omega
  · have hsf := scaleFactor_high (not_lt.1 hq)
    have := h.qualityHigh
    split_ifs at hstep <;> omega

theorem flatDc_error (v : Byte) {step : Byte} (h : step ≠ 0#8) :
    |2 * (flatDc v step * step.toNat - 8 * levelShift v .raw)| ≤ step.toNat := by
  obtain ⟨hlo, hhi⟩ := levelShift_raw_bounds v
  exact quantizedDc_error h (abs_le.2 ⟨hlo, by omega⟩)

/-- A quantized DC value fits COEF's 32 bits (R149). -/
theorem toInt_ofInt_flatDc (v : Byte) {step : Byte} (h : step ≠ 0#8) :
    (BitVec.ofInt 32 (flatDc v step)).toInt = flatDc v step := by
  have hpos := one_le_toNat h
  have herr := flatDc_error v h
  obtain ⟨hlo, hhi⟩ := levelShift_raw_bounds v
  rw [abs_le] at herr
  have hclo : -1025 ≤ flatDc v step := by nlinarith
  have hchi : flatDc v step ≤ 1025 := by nlinarith
  exact BitVec.toInt_ofInt_eq_self (by decide) (by omega) (by omega)

/-- Up to step size 8 the reconstructed value is nearer to 16·n than to its neighbours: with 8 the quotient 8·n / 8 is
exact, and below it the error is at most 3. -/
theorem reconstructedDc_eq {v step : Byte} {c : Int} (hle : step.toNat ≤ 8)
    (hc : |2 * (c * step.toNat - 8 * levelShift v .raw)| ≤ step.toNat) : reconstructedDc c step = v := by
  have hv := v.isLt
  rw [levelShift, abs_le] at hc
  have herr : -3 ≤ c * step.toNat - 8 * ((v.toNat : Int) - 128) ∧ c * step.toNat - 8 * ((v.toNat : Int) - 128) ≤ 3 := by
    rcases hle.lt_or_eq with hlt | heq
    · omega
    · rw [heq] at hc ⊢
      omega
  unfold reconstructedDc
  generalize c * (step.toNat : Int) = p at *
  refine outStage_of_near ?_ ?_ <;> (simp only [rowDc, colDc, mulR2, asr]; omega)

/-- From step size 9 on there are fewer quantized DC values than pixels. -/
theorem exists_flatDc_eq {step : Byte} (h : 9 ≤ step.toNat) :
    ∃ v w : Byte, v ≠ w ∧ flatDc v step = flatDc w step := by
  have hne : step ≠ 0#8 := by rintro rfl; exact absurd h (by decide)
  have hmaps : ∀ v ∈ (Finset.univ : Finset Byte), flatDc v step ∈ Finset.Icc (-114 : Int) 113 := by
    intro v _
    have herr := flatDc_error v hne
    obtain ⟨hlo, hhi⟩ := levelShift_raw_bounds v
    rw [abs_le] at herr
    rw [Finset.mem_Icc]
    constructor <;> nlinarith
  have hcard : (Finset.Icc (-114 : Int) 113).card < (Finset.univ : Finset Byte).card := by
    rw [Int.card_Icc, Finset.card_univ, Fintype.card_congr (BitVec.equivFin (m := 8)).toEquiv, Fintype.card_fin]
    decide
  obtain ⟨v, -, w, -, hvw, heq⟩ := Finset.exists_ne_map_eq_of_card_lt_of_maps_to hcard hmaps
  exact ⟨v, w, hvw, heq⟩

/-- What FDCT leaves for IDCT.COEF. -/
theorem exec_fdct_next {m : PixelMode} {s t : State} (h : exec (.fdct m) s = .next t) :
    t.coef.allValid = true ∧ t.status.tv = s.status.tv ∧ t.qt = s.qt := by
  rcases (exec_next_cases _ _ _ h).2 with ⟨e, _⟩ | ⟨_, e, _⟩ | ⟨_, _, rfl⟩ | ⟨_, _, e, _⟩ | ⟨_, e, _⟩
  · cases e
  · cases e
  · simp
  · cases e
  · cases e

/-- A flat block goes through FDCT and IDCT.COEF as its one coefficient (R150, R201). -/
theorem exec_flat_roundTrip {s : State} (h : TablesBuilt s) (htv : s.status.tv = true) (v : Byte) :
    ∃ t u : State, exec (.fdct .raw) { s with pixIn := Buffer.full fun _ => v } = .next t ∧
      exec (.idct .coef) t = .next u ∧
      ∀ k : Fin 64, u.pixOut.data[k] = reconstructedDc (flatDc v s.qt[(0 : Fin 64)]) s.qt[(0 : Fin 64)] := by
  have hpix : (Buffer.full fun _ => v).allValid = true := Buffer.full_allValid _
  obtain ⟨t, ht, hac, hdc⟩ := flatBlockHasOnlyDc .raw { s with pixIn := Buffer.full fun _ => v } (levelShift v .raw)
    hpix htv (fun k => (h.magLe_ft k).finite) (fun k => by rw [Buffer.full_data_get])
  have hft : s.ft[(0 : Fin 64)] = forwardEntry s.qt[(0 : Fin 64)] 0 0 := by
    rw [h.forwardTable]
    exact buildFt_get s.qt 0 0
  have hcoef : t.coef.data[(0 : Fin 64)].toInt = flatDc v s.qt[(0 : Fin 64)] := by
    rw [hdc, hft]
    exact toInt_ofInt_flatDc v h.step_dc_ne_zero
  obtain ⟨hvalid, htv', hqt⟩ := exec_fdct_next ht
  obtain ⟨u, hu, hout⟩ := dcOnlyBlockIsUniform .coef t (by rw [ready, hvalid, htv', htv]; rfl) hac
  refine ⟨t, u, ht, hu, fun k => (hout k).trans ?_⟩
  rw [hqt, sourceBuffer, hcoef, reconstructedDc]

/-- Settles O42: up to step size 8 rounding cannot move a sample, and from 9 on two samples share their quantized DC
value, so they come back as one. -/
theorem flatRoundTripExactFrom74 : Obligations.FlatRoundTripExactFrom74 := by
  intro s h htv
  rw [← h.step_dc_le_eight_iff]
  constructor
  · intro hle v
    obtain ⟨t, u, ht, hu, hout⟩ := exec_flat_roundTrip h htv v
    exact ⟨t, u, ht, hu, fun k => (hout k).trans (reconstructedDc_eq hle (flatDc_error v h.step_dc_ne_zero))⟩
  · intro hall
    by_contra hgt
    have hback (v : Byte) : reconstructedDc (flatDc v s.qt[(0 : Fin 64)]) s.qt[(0 : Fin 64)] = v := by
      obtain ⟨t, u, ht, hu, hout⟩ := exec_flat_roundTrip h htv v
      obtain ⟨t', u', ht', hu', hv⟩ := hall v
      cases ht.symm.trans ht'
      cases hu.symm.trans hu'
      exact (hout 0).symm.trans (hv 0)
    obtain ⟨v, w, hne, heq⟩ := exists_flatDc_eq (not_le.1 hgt)
    exact hne ((hback v).symm.trans (heq ▸ hback w))

end Sys2Proof.Machine
end

section
/-! SUPPORT. The statements of spec/44_control.md: the turn a step takes (R232), acceptance (R221), and the completion of a
command (R224 to R230): its frame, its inputs, and that host accesses before it do not change what it computes. -/

namespace Sys2Proof.Machine

/-! ### Steps (R223, R232, R272) -/

theorem with_schedule_self {s : State} {rest : List Turn} (h : s.schedule = rest) : { s with schedule := rest } = s := by
  subst h
  rfl

/-- When the engine moves, its turn is taken off the schedule. -/
theorem step_engine {s : State} {rest : List Turn}
    (h : (s.schedule = [] ∧ rest = []) ∨ s.schedule = .engine :: rest) :
    step s = engineTurn { s with schedule := rest } := by
  rcases h with ⟨hs, rfl⟩ | hs
  · rw [step_nil s hs, with_schedule_self hs]
  · exact step_cons s .engine rest hs

/-- Settles O6: a scheduled turn is `takeTurn`'s event, and the engine's turn is `exec` of what PEND decodes to. -/
theorem stepTakesOneTurn : Obligations.StepTakesOneTurn := fun s rest =>
  ⟨fun w i he hp hd => (step_engine he).trans (engineTurn_run _ w i hp hd),
    fun a h => step_cons s (.read a) rest h,
    fun a d h => step_cons s (.write a d) rest h,
    fun h => step_cons s .reset rest h,
    fun he hp => (step_engine he).trans (engineTurn_idle _ hp)⟩

/-! ### Acceptance (R221) -/

theorem needsTables_iff (i : Instr) : needsTables i = true ↔ (∃ m, i = .fdct m) ∨ (∃ c, i = .idct c) := by
  cases i <;> simp [needsTables]

theorem accept_of_command {w : Word} {i : Instr} {s : State} (hd : decode w = .command i)
    (ht : needsTables i = true → s.status.tv = true) :
    accept w s = { s with
      pend := .run w, status := { s.status with busy := true, done := false, lastop := opcField w } } := by
  have hok : (needsTables i && !s.status.tv) = false := by
    cases hn : needsTables i
    · rfl
    · simp [ht hn]
  simp [accept, hd, hok]

theorem accept_of_reject {w : Word} {r : CmdReject} {s : State} (hd : decode w = .reject r) :
    accept w s = withError (rejectCode r) w s := by
  simp only [accept, hd, recordError_eq_withError]

theorem accept_of_noTable {w : Word} {i : Instr} {s : State} (hd : decode w = .command i)
    (hn : needsTables i = true) (ht : s.status.tv = false) : accept w s = withError .cmdNoTable w s := by
  simp [accept, hd, hn, ht, recordError_eq_withError]

/-- Settles O7: a CMD write of an idle unit is `accept` with OKAY answered, and `accept` has these cases. -/
theorem acceptanceOfACommandWord : Obligations.AcceptanceOfACommandWord := by
  intro s w hb
  have hwrite : hostWrite 0x00C#12 w s = answer (.write .okay) (accept w s) := hostWrite_idle .cmd w s hb rfl
  rw [hwrite]
  refine ⟨fun i hd ht => ?_, fun hd => ?_, fun hd => ?_, fun i hd hn ht => ?_⟩
  · rw [accept_of_command hd fun hn => ht ((needsTables_iff i).1 hn)]
    rfl
  · rw [accept_of_reject hd]
    rfl
  · rw [accept_of_reject hd]
    rfl
  · rw [accept_of_noTable hd ((needsTables_iff i).2 hn) ht]
    rfl

/-! ### NOP (R230) -/

theorem decodeLegal_eq_nop {w : Word} (h : decodeLegal w = .nop) : (opcField w).toNat = 0 := by
  unfold decodeLegal at h
  split at h
  case h_1 h0 => exact h0
  all_goals cases h

/-- NOP's opcode and its reserved bits are the whole word (R97). -/
theorem decode_eq_nop_iff (w : Word) : decode w = .command .nop ↔ w = 0#32 := by
  refine ⟨fun h => ?_, fun h => by rw [h]; decide⟩
  obtain ⟨m, hm, hrsvd, hi⟩ := (decode_eq_command w .nop).1 h
  have hopc := decodeLegal_eq_nop hi
  rw [hopc] at hm
  cases hm
  have hlow : w &&& 0xF#32 = 0#32 := BitVec.eq_of_toNat_eq ((opcField_toNat w).symm.trans hopc)
  calc w = w &&& (0xFFFFFFF0#32 ||| 0xF#32) := (BitVec.and_allOnes (x := w)).symm
    _ = (w &&& 0xFFFFFFF0#32) ||| (w &&& 0xF#32) := BitVec.and_or_distrib_left
    _ = 0#32 := by rw [hrsvd, hlow]; rfl

/-- Settles O8: `execNop` only finishes, and only the word 0 has opcode 0 and no reserved bit. -/
theorem nopCompletes : Obligations.NopCompletes := ⟨fun _ => rfl, decode_eq_nop_iff⟩

/-! ### The frame of a completion, and what its outputs depend on (R224, R225) -/

/-- Settles O10: each command ends in `finish` of a state with its own row of R225's table written. -/
theorem completionFrame : Obligations.CompletionFrame := by
  intro i s t h
  rcases (exec_next_cases i s t h).2 with ⟨rfl, rfl⟩ | ⟨q, rfl, rfl⟩ | ⟨m, rfl, rfl⟩ | ⟨a, b, rfl, rfl⟩ | ⟨c, rfl, rfl⟩ <;>
    simp

theorem exec_fdct_coef {m : PixelMode} {s t : State} (h : exec (.fdct m) s = .next t) :
    t.coef = ⟨forwardBlock m s.pixIn.data s.ft, Vector.replicate 64 true⟩ := by
  have hready := (exec_next_cases _ _ _ h).1
  rw [ready, Bool.and_eq_true] at hready
  cases (exec_fdct m hready.1 hready.2).symm.trans h
  rfl

theorem exec_mask_phase {a b : Nat} {s t : State} (h : exec (.mask a b) s = .next t) :
    t.phase = ⟨BitVec.ofNat 7 a, BitVec.ofNat 7 b⟩ := by
  cases (exec_mask a b (exec_next_cases _ _ _ h).1).symm.trans h
  rfl

theorem exec_idct_outputs {c : CoefSource} {s t : State} (h : exec (.idct c) s = .next t) :
    t.pixOut = ⟨inverseOut .equal (inverseRows .equal (sourceBuffer c s).data s.qt), Vector.replicate 64 true⟩ ∧
      t.w = inverseRows .equal (sourceBuffer c s).data s.qt := by
  have hready := (exec_next_cases _ _ _ h).1
  rw [ready_idct, Bool.and_eq_true] at hready
  cases (exec_idct c hready.1 hready.2).symm.trans h
  exact ⟨rfl, rfl⟩

theorem exec_idct_outputs_eq {c : CoefSource} {s s' t t' : State}
    (hsrc : (sourceBuffer c s).data = (sourceBuffer c s').data) (hqt : s.qt = s'.qt)
    (h : exec (.idct c) s = .next t) (h' : exec (.idct c) s' = .next t') : t.pixOut = t'.pixOut ∧ t.w = t'.w := by
  obtain ⟨hpix, hw⟩ := exec_idct_outputs h
  obtain ⟨hpix', hw'⟩ := exec_idct_outputs h'
  rw [hpix, hw, hpix', hw', hsrc, hqt]
  exact ⟨rfl, rfl⟩

/-- Settles O11: the outputs of each command, written as functions of its inputs. -/
theorem commandsArePureFunctions : Obligations.CommandsArePureFunctions := by
  intro s s' t t'
  refine ⟨fun q h h' => ?_, fun m hpix hft h h' => ?_, fun a b hcoef h h' => ?_, exec_idct_outputs_eq (c := .mcoef),
    exec_idct_outputs_eq (c := .coef)⟩
  · rw [exec_buildqt] at h h'
    cases h
    cases h'
    exact ⟨rfl, rfl, rfl, rfl, rfl⟩
  · rw [exec_fdct_coef h, exec_fdct_coef h', hpix, hft]
  · rw [exec_mask_mcoef a b s t h, exec_mask_mcoef a b s' t' h', exec_mask_phase h, exec_mask_phase h', hcoef]
    exact ⟨rfl, rfl⟩

/-! ### DONE (R226) -/

/-- A turn that raises DONE is the engine's, and completes the running command. -/
theorem takeTurn_done_rises {x : Turn} {u t : State} (h : takeTurn x u = .next t) (hdone : t.status.done = true) :
    u.status.done = true ∨ (x = .engine ∧ u.pend.isRun = true ∧ t.pend = .idle ∧ t.status.busy = false) := by
  rcases takeTurn_next_cases x u t h with ⟨_, _, rfl⟩ | ⟨w, i, hx, hp, _, he⟩ | ⟨code, a, r, _, _, rfl⟩ |
    ⟨a, _, _, rfl⟩ | ⟨a, v, _, rfl⟩ | ⟨d, _, _, rfl⟩ | ⟨d, _, _, rfl⟩ | ⟨d, _, rfl⟩ | ⟨w, i, _, _, _, _, rfl⟩ |
    ⟨w, code, _, _, _, rfl⟩ | ⟨k, d, _, _, rfl⟩ | ⟨k, d, _, _, rfl⟩ | ⟨k, d, _, _, rfl⟩ | ⟨_, rfl⟩
  · exact .inl hdone
  · obtain ⟨hidle, hbusy, _⟩ := completionFrame i u t he
    exact .inr ⟨hx, by rw [hp]; rfl, hidle, hbusy⟩
  · exact .inl (by simpa [busError] using hdone)
  · exact .inl hdone
  · exact .inl hdone
  · simp [Status.reset] at hdone
  · exact .inl hdone
  · exact .inl (Bool.and_elim_left hdone)
  · cases hdone
  · exact .inl (by simpa using hdone)
  · exact .inl hdone
  · exact .inl hdone
  · exact .inl hdone
  · simp [Status.reset] at hdone

/-- Settles O12: a step is one turn. -/
theorem doneRisesOnlyByCompletion : Obligations.DoneRisesOnlyByCompletion := by
  intro s t h hdone
  obtain ⟨x, rest, hx, hstep⟩ := step_turn s
  rcases takeTurn_done_rises (hstep.symm.trans h) hdone with hs | ⟨rfl, hdone⟩
  · exact .inl hs
  · exact .inr ⟨hx.imp And.left fun hs => ⟨rest, hs⟩, hdone⟩

/-! ### A running command and host accesses (R222) -/

/-- What a host access that is no soft reset leaves of a running command: its operands and its outputs so far, and PEND,
BUSY, LASTOP. -/
def CommandKept (s t : State) : Prop :=
  SameData s t ∧ t.pend = s.pend ∧ t.status.busy = true ∧ t.status.lastop = s.status.lastop

theorem takeTurn_harmless {x : Turn} {u t : State} (hb : u.status.busy = true) (hx : harmless x = true)
    (h : takeTurn x u = .next t) : CommandKept u t ∧ t.schedule = u.schedule := by
  have idle_false : u.status.busy ≠ false := by rw [hb]; decide
  rcases takeTurn_next_cases x u t h with ⟨rfl, _, _⟩ | ⟨w, i, rfl, _, _, _⟩ | ⟨code, a, r, _, _, rfl⟩ |
    ⟨a, _, _, rfl⟩ | ⟨a, v, _, rfl⟩ | ⟨d, rfl, hd, _⟩ | ⟨d, _, _, rfl⟩ | ⟨d, _, rfl⟩ | ⟨w, i, _, hidle, _, _, _⟩ |
    ⟨w, code, _, hidle, _, _⟩ | ⟨k, d, _, hidle, _⟩ | ⟨k, d, _, hidle, _⟩ | ⟨k, d, _, hidle, _⟩ | ⟨rfl, _⟩
  · cases hx
  · cases hx
  · simp [CommandKept, SameData, busError, hb]
  · simp [CommandKept, SameData, hb]
  · simp [CommandKept, SameData, hb]
  · rw [harmless, hd] at hx
    cases hx
  · simp [CommandKept, SameData, hb]
  · simp [CommandKept, SameData, Status.clear, hb]
  · exact absurd hidle idle_false
  · exact absurd hidle idle_false
  · exact absurd hidle idle_false
  · exact absurd hidle idle_false
  · exact absurd hidle idle_false
  · cases hx

theorem step_harmless {s t : State} {x : Turn} {rest : List Turn} (hb : s.status.busy = true) (hx : harmless x = true)
    (hs : s.schedule = x :: rest) (h : step s = .next t) : CommandKept s t ∧ t.schedule = rest :=
  takeTurn_harmless (u := { s with schedule := rest }) hb hx ((step_cons s x rest hs).symm.trans h)

/-- Settles O13: the step is the access. -/
theorem operandsAreFrozenWhileBusy : Obligations.OperandsAreFrozenWhileBusy :=
  fun _ _ _ _ hb hx hs h => (step_harmless hb hx hs h).1

/-! ### Latency (R222, R287, R288) -/

theorem SameData.trans {s t u : State} (h : SameData s t) (h' : SameData t u) : SameData s u := by
  obtain ⟨hpix, hcoef, hmcoef, hout, hqt, hft, hw, hq, hsf, hphase, htv⟩ := h
  rw [SameData, hpix, hcoef, hmcoef, hout, hqt, hft, hw, hq, hsf, hphase, htv]
  exact h'

theorem SameData.ready_eq {s s' : State} (h : SameData s s') (i : Instr) : ready i s = ready i s' := by
  obtain ⟨hpix, hcoef, hmcoef, _, _, _, _, _, _, _, htv⟩ := h
  cases i with
  | nop => rfl
  | buildqt q => rfl
  | fdct m => rw [ready, ready, hpix, htv]
  | mask a b => rw [ready, ready, hcoef]
  | idct c => cases c <;> simp only [ready, hcoef, hmcoef, htv]

/-- A command computes the same from the same data: it writes its own row of R225's table, as a function of its inputs,
and keeps the rest. -/
theorem SameData.exec_next {s s' t : State} {i : Instr} (hs : SameData s s') (h : exec i s = .next t) :
    ∃ t', exec i s' = .next t' ∧ SameData t t' := by
  have hready := (exec_next_cases i s t h).1
  have hready' := hs.ready_eq i ▸ hready
  obtain ⟨hpix, hcoef, hmcoef, hout, hqt, hft, hw, hq, hsf, hphase, htv⟩ := hs
  cases i with
  | nop =>
    cases h
    exact ⟨_, rfl, hpix, hcoef, hmcoef, hout, hqt, hft, hw, hq, hsf, hphase, htv⟩
  | buildqt q =>
    cases (exec_buildqt q s).symm.trans h
    exact ⟨_, exec_buildqt q s', hpix, hcoef, hmcoef, hout, rfl, rfl, hw, rfl, rfl, hphase, rfl⟩
  | fdct m =>
    rw [ready, Bool.and_eq_true] at hready hready'
    cases (exec_fdct m hready.1 hready.2).symm.trans h
    exact ⟨_, exec_fdct m hready'.1 hready'.2, hpix, by rw [hpix, hft], hmcoef, hout, hqt, hft, hw, hq, hsf, hphase, htv⟩
  | mask a b =>
    cases (exec_mask a b hready).symm.trans h
    exact ⟨_, exec_mask a b hready', hpix, hcoef, by rw [hcoef], hout, hqt, hft, hw, hq, hsf, rfl, htv⟩
  | idct c =>
    have hsrc : sourceBuffer c s = sourceBuffer c s' := by
      cases c with
      | mcoef => exact hmcoef
      | coef => exact hcoef
    rw [ready_idct, Bool.and_eq_true] at hready hready'
    cases (exec_idct c hready.1 hready.2).symm.trans h
    exact ⟨_, exec_idct c hready'.1 hready'.2, hpix, hcoef, hmcoef, by rw [hsrc, hqt], hqt, hft, by rw [hsrc, hqt], hq,
      hsf, hphase, htv⟩

/-- While BUSY = 1 a host access has a next state. -/
theorem step_harmless_next {s : State} {x : Turn} {rest : List Turn} (hb : s.status.busy = true)
    (hx : harmless x = true) (hs : s.schedule = x :: rest) : ∃ t, step s = .next t := by
  rw [step_cons s x rest hs]
  cases x with
  | read a => exact hostRead_busy a _ hb
  | write a d => exact ⟨_, rfl⟩
  | engine => cases hx
  | reset => cases hx

theorem run_succ_of_step {s u : State} (n : Nat) (h : step s = .next u) :
    Sys2Proof.core.run (n + 1) s = Sys2Proof.core.run n u := by
  have hcore : Sys2Proof.core.step s = .next u := h
  simp only [Host.Core.run, hcore]

/-- Host accesses before a completion: each keeps the running command, so the completion comes, with the data that the
command leaves from `s₀`. -/
theorem run_harmless_engine {w : Word} {i : Instr} {s₀ t₀ : State} (hd : decode w = .command i)
    (h₀ : exec i s₀ = .next t₀) (turns : List Turn) :
    ∀ {s : State}, SameData s₀ s → s.pend = .run w → s.status.busy = true → s.schedule = turns ++ [.engine] →
      (∀ x ∈ turns, harmless x = true) →
      ∃ t, Sys2Proof.core.run (turns.length + 1) s = .next t ∧
        SameData t₀ t ∧ t.pend = .idle ∧ t.status.busy = false ∧ t.status.done = true := by
  induction turns with
  | nil =>
    intro s hsame hp _ hs _
    obtain ⟨t, ht, hdata⟩ := SameData.exec_next (s' := { s with schedule := [] }) hsame h₀
    obtain ⟨hidle, hbusy, hdone, _⟩ := completionFrame i _ t ht
    have hstep : step s = .next t := ((stepTakesOneTurn s []).1 w i (.inr hs) hp hd).trans ht
    exact ⟨t, run_succ_of_step 0 hstep, hdata, hidle, hbusy, hdone⟩
  | cons x turns ih =>
    intro s hsame hp hb hs hall
    obtain ⟨hx, hrest⟩ := List.forall_mem_cons.1 hall
    obtain ⟨u, hu⟩ := step_harmless_next hb hx hs
    obtain ⟨⟨hkept, hpend, hbusy, _⟩, hsched⟩ := step_harmless hb hx hs hu
    obtain ⟨t, hrun, hend⟩ := ih (hsame.trans hkept) (hpend.trans hp) hbusy hsched hrest
    exact ⟨t, (run_succ_of_step _ hu).trans hrun, hend⟩

/-- The engine's turn, when it has a next state from a running command, is that command's completion. -/
theorem exec_of_step_engine {s t : State} {rest : List Turn} (hs : s.schedule = .engine :: rest)
    (hrun : s.pend.isRun = true) (h : step s = .next t) :
    ∃ w i, s.pend = .run w ∧ decode w = .command i ∧ exec i { s with schedule := rest } = .next t := by
  have hturn := (step_engine (.inr hs)).symm.trans h
  rcases engineTurn_cases { s with schedule := rest } with ⟨hp, _⟩ | ⟨w, i, hp, hd, e⟩ | ⟨_, _, _, _, e⟩
  · rw [hp] at hrun
    cases hrun
  · exact ⟨w, i, hp, hd, e.symm.trans hturn⟩
  · cases e.symm.trans hturn

/-- Settles O14: by induction on the accesses before the completion. -/
theorem resultIsIndependentOfLatency : Obligations.ResultIsIndependentOfLatency := by
  intro s t₀ turns hb hrun hall h
  obtain ⟨w, i, hp, hd, h₀⟩ := exec_of_step_engine (s := { s with schedule := [.engine] }) rfl hrun h
  exact run_harmless_engine (s := { s with schedule := turns ++ [.engine] }) hd h₀ turns
    ⟨rfl, rfl, rfl, rfl, rfl, rfl, rfl, rfl, rfl, rfl, rfl⟩ hp hb rfl hall

/-! ### What stops the machine (R221, R252) -/

theorem exec_next_or_uninitRead (i : Instr) (s : State) : (∃ t, exec i s = .next t) ∨ exec i s = .fault .uninitRead := by
  rcases exec_cases i s with ⟨_, h⟩ | ⟨_, u, h, _⟩
  · exact .inr h
  · exact .inl ⟨_, h⟩

theorem hostRead_next_or_uninitRead (a : Addr) (s : State) :
    (∃ t, hostRead a s = .next t) ∨ hostRead a s = .fault .uninitRead := by
  rcases hostRead_cases a s with ⟨_, _, h⟩ | ⟨_, _, _, ⟨_, _, h⟩ | ⟨_, ⟨_, _, h⟩ | ⟨_, h⟩⟩⟩
  · exact .inl ⟨_, h⟩
  · exact .inl ⟨_, h⟩
  · exact .inl ⟨_, h⟩
  · exact .inr h

/-- Under the invariant PEND holds no rejected word, so the engine's turn is a completion or nothing. -/
theorem Inv.engineTurn_next_or_uninitRead {s : State} (h : Inv s) :
    (∃ t, engineTurn s = .next t) ∨ engineTurn s = .fault .uninitRead := by
  rcases engineTurn_cases s with ⟨_, e⟩ | ⟨w, i, _, _, e⟩ | ⟨w, r, hp, hr, _⟩
  · exact .inl ⟨s, e⟩
  · rw [e]
    exact exec_next_or_uninitRead i s
  · obtain ⟨i, hd, _⟩ := h.pendAccepted w hp
    cases hr.symm.trans hd

/-- Settles O59: turn by turn. -/
theorem onlyUninitReadCanStopTheMachine : Obligations.OnlyUninitReadCanStopTheMachine := by
  intro s h
  obtain ⟨x, rest, _, hstep⟩ := step_turn s
  rw [hstep]
  cases x with
  | engine => exact (h.with_schedule rest).engineTurn_next_or_uninitRead
  | read a => exact hostRead_next_or_uninitRead a _
  | write a d => exact .inl ⟨_, rfl⟩
  | reset => exact .inl ⟨_, rfl⟩

end Sys2Proof.Machine
end

section
/-! SUPPORT. The statements of spec/60_exceptions.md: who changes the error record (R243, R244), that nothing else depends
on it (R245), and the interrupt line (R250). -/

namespace Sys2Proof.Machine

/-! ### Recording an error (R243) -/

/-- Settles O52: the two branches of `recordError`. -/
theorem recordErrorKeepsTheFirst : Obligations.RecordErrorKeepsTheFirst :=
  fun _ _ _ => ⟨fun h => if_neg (Bool.eq_false_iff.1 h), fun h => if_pos h⟩

/-! ### The turn of a step (R223, R232) -/

/-- The next turn of `s` is `x`, and `rest` stays scheduled: the schedule's head, or the engine's turn with nothing
scheduled. -/
def NextTurn (s : State) (x : Turn) (rest : List Turn) : Prop :=
  (s.schedule = [] ∧ rest = [] ∧ x = .engine) ∨ s.schedule = x :: rest

theorem exists_nextTurn (s : State) : ∃ x rest, NextTurn s x rest := by
  obtain ⟨x, rest, hx, _⟩ := step_turn s
  exact ⟨x, rest, hx⟩

section
variable {s : State} {x : Turn} {rest : List Turn} (hx : NextTurn s x rest)
include hx

theorem NextTurn.step_eq : step s = takeTurn x { s with schedule := rest } := by
  rcases hx with ⟨hs, hrest, rfl⟩ | hs
  · exact step_engine (.inl ⟨hs, hrest⟩)
  · exact step_cons s x rest hs

theorem NextTurn.eq_of_schedule {y : Turn} {rest' : List Turn} (hy : s.schedule = y :: rest') : x = y := by
  rcases hx with ⟨hnil, _⟩ | hx
  · cases hnil.symm.trans hy
  · cases hx.symm.trans hy
    rfl

theorem NextTurn.eq_engine (hs : s.schedule = [] ∨ ∃ rest, s.schedule = .engine :: rest) : x = .engine := by
  rcases hs with hnil | ⟨_, hs⟩
  · rcases hx with ⟨_, _, rfl⟩ | hx
    · rfl
    · cases hnil.symm.trans hx
  · exact hx.eq_of_schedule hs

/-- A turn that is not the engine's was scheduled. -/
theorem NextTurn.schedule_eq (hne : x ≠ .engine) : s.schedule = x :: rest :=
  hx.resolve_left fun ⟨_, _, he⟩ => hne he

end

theorem eq_of_takeTurn_reset {s t : State} (h : takeTurn .reset s = .next t) : t = resetState s := by
  simpa [takeTurn, eq_comm] using h

/-! ### Who changes the record (R244, R248, R270) -/

/-- ERR, ERRCODE, EOVF and ERRINFO are in `t` what they are in `s`. -/
def SameRecord (s t : State) : Prop :=
  t.status.err = s.status.err ∧ t.status.errcode = s.status.errcode ∧ t.status.eovf = s.status.eovf ∧
    t.errinfo = s.errinfo

/-- The accesses that can record an error: one that fails a bus check, and a CMD write (R244). -/
def Turn.canRecord (busy : Bool) : Turn → Prop
  | .read a => readCheck a.toNat ≠ none
  | .write a _ => writeCheck a.toNat busy ≠ none ∨ a = 0x00C#12
  | .engine => False
  | .reset => False

/-- The turns that can clear the record: a STATUS write (R248), a soft reset and a reset (R270, R271). -/
def Turn.canClear : Turn → Prop
  | .write a d => a = 0x008#12 ∨ (a = 0x004#12 ∧ d.getLsbD 31 = true)
  | .reset => True
  | .read _ => False
  | .engine => False

/-- What any turn does to the record: it leaves it, or it is an access that can record an error, or it is a turn that
can clear the record, and then it raises neither ERR nor EOVF. -/
theorem takeTurn_record {x : Turn} {u t : State} (h : takeTurn x u = .next t) :
    SameRecord u t ∨ x.canRecord u.status.busy ∨
      (x.canClear ∧ (t.status.err = true → u.status.err = true) ∧ (t.status.eovf = true → u.status.eovf = true)) := by
  rcases takeTurn_next_cases x u t h with ⟨_, _, rfl⟩ | ⟨w, i, _, _, _, he⟩ |
    ⟨code, a, r, ⟨rfl, hc⟩ | ⟨d, rfl, hc⟩, _, _⟩ | ⟨a, _, _, rfl⟩ | ⟨a, v, _, rfl⟩ | ⟨d, rfl, hd, rfl⟩ |
    ⟨d, _, _, rfl⟩ | ⟨d, rfl, rfl⟩ | ⟨w, i, _, _, _, _, rfl⟩ | ⟨w, code, rfl, _, _, _⟩ | ⟨k, d, _, _, rfl⟩ |
    ⟨k, d, _, _, rfl⟩ | ⟨k, d, _, _, rfl⟩ | ⟨rfl, rfl⟩
  · exact .inl ⟨rfl, rfl, rfl, rfl⟩
  · obtain ⟨_, _, _, herr, heovf, hcode, hinfo, _⟩ := completionFrame i u t he
    exact .inl ⟨herr, hcode, heovf, hinfo⟩
  · exact .inr (.inl (by simp [Turn.canRecord, hc]))
  · exact .inr (.inl (by simp [Turn.canRecord, hc]))
  · exact .inl ⟨rfl, rfl, rfl, rfl⟩
  · exact .inl ⟨rfl, rfl, rfl, rfl⟩
  · exact .inr (.inr ⟨.inr ⟨rfl, hd⟩, by simp [Status.reset], by simp [Status.reset]⟩)
  · exact .inl ⟨rfl, rfl, rfl, rfl⟩
  · exact .inr (.inr ⟨.inl rfl, Bool.and_elim_left, Bool.and_elim_left⟩)
  · exact .inl ⟨rfl, rfl, rfl, rfl⟩
  · exact .inr (.inl (.inr rfl))
  · exact .inl ⟨rfl, rfl, rfl, rfl⟩
  · exact .inl ⟨rfl, rfl, rfl, rfl⟩
  · exact .inl ⟨rfl, rfl, rfl, rfl⟩
  · exact .inr (.inr ⟨trivial, by simp [Status.reset], by simp [Status.reset]⟩)

/-- A turn that can record an error, as an access at the head of the schedule. -/
theorem Turn.canRecord_access {s : State} {x : Turn} {rest : List Turn} (hx : NextTurn s x rest)
    (h : x.canRecord s.status.busy) :
    (∃ a rest, s.schedule = .read a :: rest ∧ readCheck a.toNat ≠ none) ∨
      (∃ a d rest, s.schedule = .write a d :: rest ∧ (writeCheck a.toNat s.status.busy ≠ none ∨ a = 0x00C#12)) := by
  cases x with
  | read a => exact .inl ⟨a, rest, hx.schedule_eq nofun, h⟩
  | write a d => exact .inr ⟨a, d, rest, hx.schedule_eq nofun, h⟩
  | engine => exact h.elim
  | reset => exact h.elim

/-- Settles O53: by what the step's turn does to the record. -/
theorem errorsBelongToHostAccesses : Obligations.ErrorsBelongToHostAccesses := by
  intro s t h
  obtain ⟨x, rest, hx⟩ := exists_nextTurn s
  have hturn := hx.step_eq.symm.trans h
  have hrec := takeTurn_record hturn
  refine ⟨fun hs => ?_, fun ⟨_, hs⟩ => ?_, fun hchanged => ?_, fun hrise => ?_⟩
  · obtain rfl := hx.eq_engine hs
    exact hrec.resolve_right fun hne => hne.elim id And.left
  · obtain rfl := hx.eq_of_schedule hs
    rw [eq_of_takeTurn_reset hturn]
    simp [Status.reset]
  · rcases hrec.resolve_left hchanged with hrecord | ⟨hclear, _⟩
    · rcases Turn.canRecord_access hx hrecord with hread | ⟨a, d, rest, hs, hcause⟩
      · exact .inr (.inl hread)
      · exact .inr (.inr ⟨a, d, rest, hs, hcause.imp_right .inl⟩)
    · cases x with
      | engine => exact hclear.elim
      | read a => exact hclear.elim
      | write a d => exact .inr (.inr ⟨a, d, rest, hx.schedule_eq nofun, .inr (.inr hclear)⟩)
      | reset => exact .inl ⟨rest, hx.schedule_eq nofun⟩
  · rcases hrec with ⟨herr, _, heovf, _⟩ | hrecord | ⟨_, herr, heovf⟩
    · rcases hrise with ⟨hs, ht⟩ | ⟨hs, ht⟩
      · cases hs.symm.trans (herr.symm.trans ht)
      · cases hs.symm.trans (heovf.symm.trans ht)
    · exact Turn.canRecord_access hx hrecord
    · rcases hrise with ⟨hs, ht⟩ | ⟨hs, ht⟩
      · cases hs.symm.trans (herr ht)
      · cases hs.symm.trans (heovf ht)

/-! ### The record is not read (R245) -/

/-- `s` with the error record of `r`. -/
def State.withRecordOf (s r : State) : State :=
  { s with
    status := { s.status with err := r.status.err, errcode := r.status.errcode, eovf := r.status.eovf }
    errinfo := r.errinfo }

/-- `s'` is `s` up to the error record. -/
def SameButRecord (s s' : State) : Prop := s' = s.withRecordOf s'

theorem sameButRecord_iff {s s' : State} : SameButRecord s s' ↔ ∃ r, s' = s.withRecordOf r :=
  ⟨fun h => ⟨s', h⟩, fun ⟨_, h⟩ => by subst h; rfl⟩

/-- A read that R72 does not cover answers the location's value. -/
theorem hostRead_defined (l : Loc) (s : State) (v : Word) (hu : s.status.busy = true → l.busyUnspecified = false)
    (hv : readLoc l s = some v) : hostRead l.offset s = .next (answer (.read v .okay) s) := by
  cases hb : s.status.busy
  · exact hostRead_value l s v hb hv
  · exact hostRead_register l s v (hu hb) hv

section
variable {s s' : State} (h : SameButRecord s s')
include h

theorem SameButRecord.recordError (e : ErrCode) (info : Word) :
    SameButRecord (recordError e info s) (recordError e info s') := by
  obtain ⟨r, rfl⟩ := sameButRecord_iff.1 h
  rw [recordError_eq_withError, recordError_eq_withError]
  rfl

theorem SameButRecord.answer (r : Reply) : SameButRecord (answer r s) (answer r s') := by
  obtain ⟨p, rfl⟩ := sameButRecord_iff.1 h
  rfl

theorem SameButRecord.busError (e : ErrCode) (a : Addr) (r : Reply) :
    SameButRecord (busError e a r s) (busError e a r s') :=
  (h.recordError e _).answer r

/-- Whatever each of the two was last told. -/
theorem SameButRecord.with_reply (p p' : Option Reply) : { s' with reply := p' } =
    { State.withRecordOf { s with reply := p } { s' with reply := p' } with reply := p' } := by
  obtain ⟨r, rfl⟩ := sameButRecord_iff.1 h
  rfl

theorem SameButRecord.resetState : SameButRecord (resetState s) (resetState s') := by
  obtain ⟨r, rfl⟩ := sameButRecord_iff.1 h
  rfl

/-- Acceptance asks for TV, and not for ERR (R221). -/
theorem SameButRecord.accept (w : Word) : SameButRecord (accept w s) (accept w s') := by
  have htv : s'.status.tv = s.status.tv := by rw [h]; rfl
  unfold Machine.accept
  rw [htv]
  split
  · exact h.recordError _ _
  · split
    · exact h.recordError _ _
    · obtain ⟨r, rfl⟩ := sameButRecord_iff.1 h
      rfl

theorem SameButRecord.writeLoc (l : Loc) (d : Word) : SameButRecord (writeLoc l d s) (writeLoc l d s') := by
  cases l with
  | ctrl =>
    simp only [Machine.writeLoc]
    split
    · exact h.resetState
    · obtain ⟨r, rfl⟩ := sameButRecord_iff.1 h
      rfl
  | cmd => exact h.accept d
  | _ =>
    obtain ⟨r, rfl⟩ := sameButRecord_iff.1 h
    rfl

theorem SameButRecord.hostWrite (a : Addr) (d : Word) : SameButRecord (hostWrite a d s) (hostWrite a d s') := by
  have hbusy : s'.status.busy = s.status.busy := by rw [h]; rfl
  unfold Machine.hostWrite
  rw [hbusy]
  split
  · exact h.busError _ _ _
  · split
    · exact h.busError _ _ _
    · split
      · exact h.busError _ _ _
      · split
        · exact h.busError _ _ _
        · exact (h.writeLoc _ d).answer _

theorem SameButRecord.readLoc {l : Loc} (hstatus : l ≠ .status) (hinfo : l ≠ .errinfo) :
    readLoc l s' = readLoc l s := by
  obtain ⟨r, rfl⟩ := sameButRecord_iff.1 h
  cases l with
  | status => exact absurd rfl hstatus
  | errinfo => exact absurd rfl hinfo
  | _ => rfl

theorem SameButRecord.hostRead {a : Addr} {t : State} (hstatus : a ≠ 0x008#12) (hinfo : a ≠ 0x010#12)
    (ht : hostRead a s = .next t) : ∃ t', hostRead a s' = .next t' ∧ SameButRecord t t' := by
  have hbusy : s'.status.busy = s.status.busy := by rw [h]; rfl
  rcases hostRead_cases a s with ⟨e, he, hr⟩ | ⟨l, hl, hm, hcases⟩
  · cases hr.symm.trans ht
    exact ⟨_, hostRead_of_check he, h.busError _ _ _⟩
  · obtain rfl := offset_of_locate a l hm hl
    rcases hcases with ⟨hb, hu, hr⟩ | ⟨hu, ⟨v, hv, hr⟩ | ⟨_, hr⟩⟩
    · cases hr.symm.trans ht
      refine ⟨_, hostRead_draw l s' (hbusy.trans hb) hu, ?_⟩
      obtain ⟨r, rfl⟩ := sameButRecord_iff.1 h
      rfl
    · cases hr.symm.trans ht
      have hv' : Machine.readLoc l s' = some v := by
        rw [h.readLoc (fun hl => hstatus (congrArg Loc.offset hl)) fun hl => hinfo (congrArg Loc.offset hl), hv]
      exact ⟨_, hostRead_defined l s' v (hbusy ▸ hu) hv', h.answer _⟩
    · cases hr.symm.trans ht

/-- A completion consumes no part of the record and leaves it as it is (R224, R225). -/
theorem SameButRecord.exec {i : Instr} {t : State} (ht : exec i s = .next t) :
    ∃ t', exec i s' = .next t' ∧ SameButRecord t t' := by
  obtain ⟨r, rfl⟩ := sameButRecord_iff.1 h
  have hready := (exec_next_cases i s t ht).1
  cases i with
  | nop =>
    cases ht
    exact ⟨_, rfl, rfl⟩
  | buildqt q =>
    cases (exec_buildqt q s).symm.trans ht
    exact ⟨_, exec_buildqt q _, rfl⟩
  | fdct m =>
    rw [ready, Bool.and_eq_true] at hready
    cases (exec_fdct m hready.1 hready.2).symm.trans ht
    exact ⟨_, exec_fdct m hready.1 hready.2, rfl⟩
  | mask a b =>
    cases (exec_mask a b hready).symm.trans ht
    exact ⟨_, exec_mask a b hready, rfl⟩
  | idct c =>
    rw [ready_idct, Bool.and_eq_true] at hready
    cases (exec_idct c hready.1 hready.2).symm.trans ht
    cases c <;> exact ⟨_, exec_idct _ hready.1 hready.2, rfl⟩

theorem SameButRecord.engineTurn {t : State} (ht : engineTurn s = .next t) :
    ∃ t', engineTurn s' = .next t' ∧ SameButRecord t t' := by
  have hpend : s'.pend = s.pend := by rw [h]; rfl
  rcases engineTurn_cases s with ⟨hp, e⟩ | ⟨w, i, hp, hd, e⟩ | ⟨_, _, _, _, e⟩
  · cases e.symm.trans ht
    exact ⟨s', engineTurn_idle s' (hpend.trans hp), h⟩
  · rw [engineTurn_run s' w i (hpend.trans hp) hd]
    exact h.exec (e.symm.trans ht)
  · cases e.symm.trans ht

/-- A turn that is no read of STATUS or ERRINFO takes states that agree up to the record to such states, the answer
included. -/
theorem SameButRecord.takeTurn {x : Turn} {t : State} (hstatus : x ≠ .read 0x008#12) (hinfo : x ≠ .read 0x010#12)
    (ht : takeTurn x s = .next t) : ∃ t', takeTurn x s' = .next t' ∧ SameButRecord t t' := by
  cases x with
  | read a => exact h.hostRead (fun ha => hstatus (congrArg _ ha)) (fun ha => hinfo (congrArg _ ha)) ht
  | write a d =>
    cases ht
    exact ⟨_, rfl, h.hostWrite a d⟩
  | engine => exact h.engineTurn ht
  | reset =>
    rw [eq_of_takeTurn_reset ht]
    exact ⟨_, rfl, h.resetState⟩

end

theorem hostRead_status (s : State) :
    hostRead 0x008#12 s = .next { s with reply := some (.read s.status.word .okay) } :=
  hostRead_register .status s _ rfl rfl

theorem hostRead_errinfo (s : State) : hostRead 0x010#12 s = .next { s with reply := some (.read s.errinfo .okay) } :=
  hostRead_register .errinfo s _ rfl rfl

/-- Settles O54: a read of STATUS or of ERRINFO returns the state's own register, and every other turn is blind to the
record. -/
theorem errorRecordBlocksNothing : Obligations.ErrorRecordBlocksNothing := by
  intro s s' t hs h
  obtain ⟨x, rest, hx⟩ := exists_nextTurn s
  have hx' : NextTurn s' x rest := by rw [hs]; exact hx
  have hsame : SameButRecord { s with schedule := rest } { s' with schedule := rest } := by
    obtain ⟨r, rfl⟩ := sameButRecord_iff.1 hs
    rfl
  have hturn := hx.step_eq.symm.trans h
  rw [hx'.step_eq]
  by_cases hstatus : x = .read 0x008#12
  · subst hstatus
    cases (hostRead_status _).symm.trans hturn
    exact ⟨_, hostRead_status _, hsame.with_reply _ _, fun hne _ => absurd (hx.schedule_eq nofun) (hne rest),
      fun _ => rfl, fun ⟨_, h⟩ => nomatch hx.eq_of_schedule h⟩
  · by_cases hinfo : x = .read 0x010#12
    · subst hinfo
      cases (hostRead_errinfo _).symm.trans hturn
      exact ⟨_, hostRead_errinfo _, hsame.with_reply _ _, fun _ hne => absurd (hx.schedule_eq nofun) (hne rest),
        fun ⟨_, h⟩ => (nomatch hx.eq_of_schedule h), fun _ => rfl⟩
    · obtain ⟨t', ht', hrec⟩ := hsame.takeTurn hstatus hinfo hturn
      obtain ⟨r, rfl⟩ := sameButRecord_iff.1 hrec
      exact ⟨_, ht', rfl, fun _ _ => rfl, fun ⟨_, h⟩ => absurd (hx.eq_of_schedule h) hstatus,
        fun ⟨_, h⟩ => absurd (hx.eq_of_schedule h) hinfo⟩

/-! ### The interrupt line (R43, R250) -/

theorem irq_of_done {s : State} (hdone : s.status.done = true) (hie : s.ctrl.doneIe = true) : s.irq = true := by
  rw [State.irq, hdone, hie]
  rfl

theorem irq_of_err {s : State} (herr : s.status.err = true) (hie : s.ctrl.errIe = true) : s.irq = true := by
  rw [State.irq, herr, hie, Bool.and_true, Bool.or_true]

theorem irq_of_recordError (e : ErrCode) (info : Word) {s : State} (hie : s.ctrl.errIe = true) :
    (recordError e info s).irq = true :=
  irq_of_err (recordError_err e info s) (by rwa [recordError_ctrl])

theorem irq_answer (r : Reply) (s : State) : (answer r s).irq = s.irq := rfl

theorem irq_of_busError (e : ErrCode) (a : Addr) (r : Reply) {s : State} (hie : s.ctrl.errIe = true) :
    (busError e a r s).irq = true :=
  irq_of_recordError e _ hie

/-- A CMD write of an idle unit moves the line as acceptance does. -/
theorem irq_hostWrite_cmd {s : State} (w : Word) (hb : s.status.busy = false) :
    (hostWrite 0x00C#12 w s).irq = (accept w s).irq :=
  (congrArg State.irq (hostWrite_idle .cmd w s hb rfl)).trans (irq_answer _ _)

/-- Settles O55: each event's DONE, ERR and CTRL, in R250's formula. -/
theorem interruptIsRaisedAndCleared : Obligations.InterruptIsRaisedAndCleared := by
  refine ⟨fun s => ⟨by simp [State.irq], fun hd he => by simp [State.irq, hd, he]⟩, fun i s t h hie => ?_,
    fun s a d code hie => ⟨fun hc => ?_, fun hc => ?_⟩, fun s w hie hb => ⟨fun r hd => ?_, fun i hd hn htv => ?_⟩,
    fun s w i hb hd htv => ?_, fun s d => ?_, fun s d hrst hdone herr => ?_, fun s => ?_,
    fun s t _ hdone herr hctrl => ?_⟩
  · obtain ⟨_, _, hdone, _, _, _, _, _, hctrl, _⟩ := completionFrame i s t h
    exact irq_of_done hdone (by rwa [hctrl])
  · rw [hostWrite_of_check d hc]
    exact irq_of_busError _ _ _ hie
  · exact ⟨_, hostRead_of_check hc, irq_of_busError _ _ _ hie⟩
  · rw [irq_hostWrite_cmd w hb, accept_of_reject hd, ← recordError_eq_withError]
    exact irq_of_recordError _ _ hie
  · rw [irq_hostWrite_cmd w hb, accept_of_noTable hd ((needsTables_iff i).2 hn) htv, ← recordError_eq_withError]
    exact irq_of_recordError _ _ hie
  · rw [irq_hostWrite_cmd w hb, accept_of_command hd fun hn => htv ((needsTables_iff i).1 hn)]
    simp [State.irq]
  · exact congrArg State.irq (hostWrite_unblocked .status d s rfl rfl)
  · rw [(ctrlReadAndWrite s d).2 hrst, hdone, herr]
    simp [State.irq]
  · simp [State.irq]
  · rw [State.irq, State.irq, hdone, herr, hctrl]

end Sys2Proof.Machine
end

section
/-! SUPPORT. The statements of spec/70_reset_and_hazards.md: commands on data that was never written and what keeps an
element valid (R252, R275), and both resets (R270 to R272). -/

namespace Sys2Proof.Machine

/-! ### Completion and the validity of its outputs (R252, R275) -/

/-- A command whose precondition fails stops at the fault of R252. -/
theorem exec_of_not_ready {i : Instr} {s : State} (h : ready i s = false) : exec i s = .fault .uninitRead := by
  rcases exec_cases i s with ⟨_, e⟩ | ⟨h', _⟩
  · exact e
  · cases h.symm.trans h'

theorem Buffer.allValid_mk {α : Type} (v : Vector α 64) :
    (Buffer.mk v (Vector.replicate 64 true)).allValid = true := by
  rw [← Buffer.full_of_vector]
  exact Buffer.full_allValid _

/-! ### Validity persists (R275) -/

/-- Every valid element of `b` is valid in `b'`. -/
def Buffer.ValidKept {α : Type} (b b' : Buffer α) : Prop := ∀ k : Fin 64, b.valid[k] = true → b'.valid[k] = true

@[simp] theorem Buffer.ValidKept.refl {α : Type} (b : Buffer α) : b.ValidKept b := fun _ h => h

theorem Buffer.validKept_put {α : Type} (b : Buffer α) (k : Fin 64) (v : α) : b.ValidKept (b.put k v) :=
  fun j => b.put_valid_mono k j v

theorem Buffer.validKept_full {α : Type} (b : Buffer α) (f : Fin 64 → α) : b.ValidKept (Buffer.full f) :=
  fun k _ => (Buffer.allValid_iff _).1 (Buffer.full_allValid f) k

/-- Every element that is valid in `s` is valid in `t`. A buffer that an update does not touch needs no proof. -/
structure ValidityKept (s t : State) : Prop where
  pixIn : s.pixIn.ValidKept t.pixIn := by simp
  coef : s.coef.ValidKept t.coef := by simp
  mcoef : s.mcoef.ValidKept t.mcoef := by simp
  pixOut : s.pixOut.ValidKept t.pixOut := by simp

theorem validityKept_recordError (r : Reply) (e : ErrCode) (info : Word) (s : State) :
    ValidityKept s (answer r (recordError e info s)) := {}

/-- A completion writes whole buffers, with every element valid. -/
theorem validityKept_exec {i : Instr} {s t : State} (h : exec i s = .next t) : ValidityKept s t := by
  rcases (exec_next_cases i s t h).2 with ⟨_, rfl⟩ | ⟨q, _, rfl⟩ | ⟨m, _, rfl⟩ | ⟨a, b, _, rfl⟩ | ⟨c, _, rfl⟩
  · exact {}
  · exact {}
  · exact { coef := s.coef.validKept_full _ }
  · exact { mcoef := s.mcoef.validKept_full _ }
  · exact { pixOut := s.pixOut.validKept_full _ }

/-- Only the two resets make an element invalid. -/
theorem validityKept_takeTurn {x : Turn} {u t : State} (h : takeTurn x u = .next t) (hreset : x ≠ .reset)
    (hsoft : ∀ d, d.getLsbD 31 = true → x ≠ .write 0x004#12 d) : ValidityKept u t := by
  rcases takeTurn_next_cases x u t h with ⟨_, _, rfl⟩ | ⟨w, i, _, _, _, he⟩ | ⟨code, a, r, _, _, rfl⟩ |
    ⟨a, _, _, rfl⟩ | ⟨a, v, _, rfl⟩ | ⟨d, hx, hd, _⟩ | ⟨d, _, _, rfl⟩ | ⟨d, _, rfl⟩ | ⟨w, i, _, _, _, _, rfl⟩ |
    ⟨w, code, _, _, _, rfl⟩ | ⟨k, d, _, _, rfl⟩ | ⟨k, d, _, _, rfl⟩ | ⟨k, d, _, _, rfl⟩ | ⟨hx, _⟩
  · exact {}
  · exact validityKept_exec he
  · exact validityKept_recordError r code _ u
  · exact {}
  · exact {}
  · exact absurd hx (hsoft d hd)
  · exact {}
  · exact {}
  · exact {}
  · exact validityKept_recordError _ code w u
  · exact { pixIn := u.pixIn.validKept_put k _ }
  · exact { coef := u.coef.validKept_put k d }
  · exact { mcoef := u.mcoef.validKept_put k d }
  · exact absurd hx hreset

theorem validityKept_step {s t : State} (h : step s = .next t) (hreset : ∀ rest, s.schedule ≠ .reset :: rest)
    (hsoft : ∀ d rest, d.getLsbD 31 = true → s.schedule ≠ .write 0x004#12 d :: rest) : ValidityKept s t := by
  obtain ⟨x, rest, hx⟩ := exists_nextTurn s
  have hkept : ValidityKept { s with schedule := rest } t :=
    validityKept_takeTurn (hx.step_eq.symm.trans h)
      (fun e => by subst e; exact hreset rest (hx.schedule_eq nofun))
      (fun d hd e => by subst e; exact hsoft d rest hd (hx.schedule_eq nofun))
  exact { hkept with }

/-- Settles O9: a command completes or faults as `exec_cases` says, the buffer it writes is all valid, and no turn but
a reset or a soft reset loses a validity bit. -/
theorem commandsCompleteExactlyWhenReady : Obligations.CommandsCompleteExactlyWhenReady := by
  refine ⟨fun i s => ⟨exec_of_ready i s, exec_of_not_ready⟩, fun m s t h => ?_, fun a b s t h => ?_, fun c s t h => ?_,
    fun s t k h hreset hsoft => ?_⟩
  · rw [exec_fdct_coef h]
    exact Buffer.allValid_mk _
  · rw [exec_mask_mcoef a b s t h]
    exact Buffer.full_allValid _
  · rw [(exec_idct_outputs h).1]
    exact Buffer.allValid_mk _
  · have hkept := validityKept_step h hreset hsoft
    exact ⟨hkept.pixIn k, hkept.coef k, hkept.mcoef k, hkept.pixOut k⟩

/-! ### The resets (R46, R270 to R272) -/

/-- A CTRL write with bit 31 = 1 is the soft reset, busy or not, whatever its other bits are (R271). -/
theorem hostWrite_softReset {d : Word} (s : State) (hd : d.getLsbD 31 = true) :
    hostWrite 0x004#12 d s = { resetState s with reply := some (.write .okay) } := by
  refine (hostWrite_unblocked .ctrl d s rfl rfl).trans ?_
  rw [writeLoc, hd]
  rfl

theorem resetState_irq (s : State) : (resetState s).irq = false := by
  rw [State.irq, resetState_status, resetState_ctrl]
  rfl

/-- With PEND Idle and nothing scheduled the machine stands still (R272). -/
theorem step_idle_unscheduled {s : State} (hp : s.pend = .idle) (hs : s.schedule = []) : step s = .next s :=
  (step_nil s hs).trans (engineTurn_idle s hp)

/-- Settles O56: a soft reset writes `resetState`, whose registers are R46's, with PEND Idle and no valid element. -/
theorem resetLeavesTheResetState : Obligations.ResetLeavesTheResetState := by
  refine ⟨fun s d hd => hostWrite_softReset s hd, ?_⟩
  rintro s _ rfl
  refine ⟨congrArg Ctrl.word (resetState_ctrl s), congrArg Status.word (resetState_status s), resetState_errinfo s,
    congrArg qualityWord (resetState_quality s), congrArg sfWord (resetState_sf s),
    congrArg Phase.word (resetState_phase s), resetState_pend s, resetState_irq s, resetState_schedule s,
    step_idle_unscheduled (resetState_pend s) rfl, fun k => by simp⟩

end Sys2Proof.Machine
end
